-- ==== Sys2Proof/Word.lean ====
section
/-! DEFINITION. The word types of the BP128 core: the 64-bit register word, the memory byte, and the two word sizes an
element can have (spec/00_scope.md R6, spec/10_state.md R22). -/

namespace Sys2Proof

/-- One register of the register block (R22): 64 bits. -/
abbrev Word := BitVec 64

/-- One byte of the data memory (R39). -/
abbrev Byte := BitVec 8

/-- The word size w of a command or of a container: 32 or 64 bits (R6). -/
inductive WordSize where
  | w32
  | w64
deriving DecidableEq, Repr

end Sys2Proof
end

