-- ==== Sys2Proof/Config.lean ====
section
/-! DEFINITION. What the platform fixes for one machine (MEM_SIZE and REG_BASE, spec/00_scope.md R11), and the free
values of the spec's "any value" cases (spec/93_implementation_defined.md I13, I14, I15). -/

namespace Sys2Proof

/-- The two OPEN parameters of R11. They stand in the state (`State.platform`) so that a statement about every state is
a statement about every platform, and no step changes them (assumption 1). -/
structure Platform where
  /-- MEM_SIZE: the data memory holds the addresses 0 to `memSize` − 1. -/
  memSize : Nat
  /-- REG_BASE: the host's address of register 0 of the register block. -/
  regBase : Nat
deriving DecidableEq, Repr

/-- What the spec says of the parameters: 16 ≤ MEM_SIZE ≤ 2^64 (R11), REG_BASE aligned to 256 bytes (R72). -/
abbrev Platform.wf (p : Platform) : Prop :=
  16 ≤ p.memSize ∧ p.memSize ≤ 2 ^ 64 ∧ p.regBase % 256 = 0

/-- The platform of `State.reset`: MEM_SIZE = 0x10000 is the start state of the spec's own programs
(spec/95_test_vectors.md section 3); REG_BASE is the first multiple of 256 above it. DESIGN CHOICE (assumption 1, unsafe). -/
def Platform.launch : Platform := { memSize := 0x10000, regBase := 0x10000 }

/-- The byte that the `draw`-th "any value" event of a run gives at address `addr`: a host read of the destination
window in flight (I13), the bytes of a command whose windows the host wrote in flight (I14), the destination window after
a reset in flight (I15). It has no body, so no proof can use a value of it (assumption 2). -/
opaque Config.freeByte (draw addr : Nat) : Byte

end Sys2Proof
end

