-- ==== Sys2Proof/Syntax.lean ====
section
/-! DEFINITION. The commands of the BP128 core: one constructor for each row of spec/opcode_table.json
(spec/30_encoding.md R93, R96). -/

namespace Sys2Proof

/-- One command of the opcode map (R93). `nb` is the bit width of the eight kernel commands (R92), a number; the other
operands of a command are the window registers and the seed. -/
inductive Instr where
  /-- PACK32 nb (R148) -/
  | pack32 (nb : Nat)
  /-- PACK64 nb (R149) -/
  | pack64 (nb : Nat)
  /-- UNPACK32 nb (R150) -/
  | unpack32 (nb : Nat)
  /-- UNPACK64 nb (R151) -/
  | unpack64 (nb : Nat)
  /-- DPACK32 nb (R152) -/
  | dpack32 (nb : Nat)
  /-- DPACK64 nb (R153) -/
  | dpack64 (nb : Nat)
  /-- DUNPACK32 nb (R154) -/
  | dunpack32 (nb : Nat)
  /-- DUNPACK64 nb (R155) -/
  | dunpack64 (nb : Nat)
  /-- PACKINTS32 (R190) -/
  | packints32
  /-- PACKINTS64 (R191) -/
  | packints64
  /-- DPACKINTS32 (R192) -/
  | dpackints32
  /-- DPACKINTS64 (R193) -/
  | dpackints64
  /-- UNPACKINTS32 (R194) -/
  | unpackints32
  /-- UNPACKINTS64 (R195) -/
  | unpackints64
  /-- SERIALIZE (R220) -/
  | serialize
  /-- DESERIALIZE (R221) -/
  | deserialize
deriving DecidableEq, Repr

end Sys2Proof
end

