-- ==== Sys2Proof/WellFormed.lean ====
section
/-! DEFINITION. Which commands can be written as a command word: the bit width of a kernel command fits the 7-bit field NB
(spec/30_encoding.md R92, R96). -/

namespace Sys2Proof

/-- The bit width can be encoded: 0 ≤ nb ≤ 127 (R96). A width above the word size is encodable; the command then ends with
InvalidWidth (R141). -/
abbrev nbEncodable (nb : Nat) : Prop := nb ≤ 127

/-- "An assembler refuses nb > 127, because it cannot be encoded" (R96); a command without a bit width is always
well formed. -/
abbrev Instr.WellFormed : Instr → Prop
  | .pack32 nb => nbEncodable nb
  | .pack64 nb => nbEncodable nb
  | .unpack32 nb => nbEncodable nb
  | .unpack64 nb => nbEncodable nb
  | .dpack32 nb => nbEncodable nb
  | .dpack64 nb => nbEncodable nb
  | .dunpack32 nb => nbEncodable nb
  | .dunpack64 nb => nbEncodable nb
  | .packints32 => True
  | .packints64 => True
  | .dpackints32 => True
  | .dpackints64 => True
  | .unpackints32 => True
  | .unpackints64 => True
  | .serialize => True
  | .deserialize => True

/-- The same check as a Bool, for a test to run. -/
def Instr.wellFormed : Instr → Bool
  | .pack32 nb => decide (nbEncodable nb)
  | .pack64 nb => decide (nbEncodable nb)
  | .unpack32 nb => decide (nbEncodable nb)
  | .unpack64 nb => decide (nbEncodable nb)
  | .dpack32 nb => decide (nbEncodable nb)
  | .dpack64 nb => decide (nbEncodable nb)
  | .dunpack32 nb => decide (nbEncodable nb)
  | .dunpack64 nb => decide (nbEncodable nb)
  | .packints32 => true
  | .packints64 => true
  | .dpackints32 => true
  | .dpackints64 => true
  | .unpackints32 => true
  | .unpackints64 => true
  | .serialize => true
  | .deserialize => true

end Sys2Proof
end

