-- ==== Sys2Proof/Decode.lean ====
section
/-! DEFINITION. The decoder of command words, total on every 64-bit value and rejecting by name (spec/30_encoding.md R90 to
R95), and the encoder written from the same opcode map (R93). -/

namespace Sys2Proof

/-- Why a value of CMD matches no row of the opcode map (R94), one name for each of its conditions. -/
inductive DecodeError where
  /-- CMD[63:32] ≠ 0 -/
  | reservedHigh
  /-- CMD[15:9] ≠ 0 or CMD[31:23] ≠ 0 -/
  | reservedBits
  /-- OP is none of 0x01 to 0x04, 0x10 to 0x12, 0x20, 0x21 -/
  | unknownOpcode
  /-- NB ≠ 0 for an OP other than 0x01 to 0x04 -/
  | widthNotZero
  /-- W = 1 for SERIALIZE or DESERIALIZE -/
  | wordSizeNotZero
deriving DecidableEq, Repr

/-- OP: bits [7:0] of the command word (R91). -/
def opField (c : Word) : Nat := (c.extractLsb' 0 8).toNat

/-- W: bit [8]; `false` selects w = 32 (R91, R92). -/
def wField (c : Word) : Bool := c.getLsbD 8

/-- NB: bits [22:16], zero-extended (R91, R92). -/
def nbField (c : Word) : Nat := (c.extractLsb' 16 7).toNat

/-- The reserved bits [15:9] and [31:23] (R91), which must be 0. -/
def reservedField (c : Word) : Nat := (c.extractLsb' 9 7).toNat + 128 * (c.extractLsb' 23 9).toNat

/-- The reserved bits [63:32] (R90), which must be 0. -/
def highField (c : Word) : Nat := (c.extractLsb' 32 32).toNat

/-- A row whose NB must be 0 (R91: "must be 0 for every other command"). -/
def withoutWidth (nb : Nat) (i : Instr) : Except DecodeError Instr :=
  if nb = 0 then .ok i else .error .widthNotZero

/-- A row whose W and NB must be 0 (R93, R94: "W = 1 for SERIALIZE or DESERIALIZE"). -/
def withoutWordSize (w : Bool) (nb : Nat) (i : Instr) : Except DecodeError Instr :=
  if w then .error .wordSizeNotZero else withoutWidth nb i

/-- A row that exists for both word sizes (R92: W = 0 is w = 32, W = 1 is w = 64). -/
def byWordSize (w : Bool) (i32 i64 : Instr) : Instr := if w then i64 else i32

/-- The opcode map of R93, read from the fields OP, W and NB. -/
def decodeFields (op : Nat) (w : Bool) (nb : Nat) : Except DecodeError Instr :=
  match op with
  | 0x01 => .ok (byWordSize w (.pack32 nb) (.pack64 nb))
  | 0x02 => .ok (byWordSize w (.unpack32 nb) (.unpack64 nb))
  | 0x03 => .ok (byWordSize w (.dpack32 nb) (.dpack64 nb))
  | 0x04 => .ok (byWordSize w (.dunpack32 nb) (.dunpack64 nb))
  | 0x10 => withoutWidth nb (byWordSize w .packints32 .packints64)
  | 0x11 => withoutWidth nb (byWordSize w .dpackints32 .dpackints64)
  | 0x12 => withoutWidth nb (byWordSize w .unpackints32 .unpackints64)
  | 0x20 => withoutWordSize w nb .serialize
  | 0x21 => withoutWordSize w nb .deserialize
  | _ => .error .unknownOpcode

/-- The command that a command word stands for, or the condition of R94 that makes it match no row. Every word is read;
one that matches no row ends with IllegalCommand at completion (R261 check 1). -/
def decode (c : Word) : Except DecodeError Instr :=
  if highField c ≠ 0 then .error .reservedHigh
  else if reservedField c ≠ 0 then .error .reservedBits
  else decodeFields (opField c) (wField c) (nbField c)

/-- "a kernel command word is `match | (nb << 16)`" (R93). -/
def kernelWord (fixed : Word) (nb : Nat) : Word := fixed ||| (BitVec.ofNat 64 nb <<< 16)

/-- The command word of a command (R93). -/
def encode : Instr → Word
  | .pack32 nb => kernelWord 0x0001 nb
  | .pack64 nb => kernelWord 0x0101 nb
  | .unpack32 nb => kernelWord 0x0002 nb
  | .unpack64 nb => kernelWord 0x0102 nb
  | .dpack32 nb => kernelWord 0x0003 nb
  | .dpack64 nb => kernelWord 0x0103 nb
  | .dunpack32 nb => kernelWord 0x0004 nb
  | .dunpack64 nb => kernelWord 0x0104 nb
  | .packints32 => 0x0010
  | .packints64 => 0x0110
  | .dpackints32 => 0x0011
  | .dpackints64 => 0x0111
  | .unpackints32 => 0x0012
  | .unpackints64 => 0x0112
  | .serialize => 0x0020
  | .deserialize => 0x0021

/-- The word that `nbits` bits `w` of a row of the opcode table stand for: bit 0 the least significant, the bits above
`nbits` zero. A command word is one 64-bit register value with no byte order of its own (R90, R95). -/
def tableWord (nbits w : Nat) : Word := BitVec.ofNat 64 (w % 2 ^ nbits)

/-- What the decoder reads from a table row's word (none where it refuses). -/
def decodeTableWord (nbits w : Nat) : Option Instr :=
  match decode (tableWord nbits w) with
  | .ok i => some i
  | .error _ => none

end Sys2Proof
end

