-- ==== Sys2Proof/Machine/State.lean ====
section
/-! DEFINITION. The state of the BP128 core (spec/10_state.md R20): the register block (R22), the in-flight latch (R38) and
the data memory (R39); beside them what the model itself holds of the platform and of the host (assumptions 1 to 4). -/

namespace Sys2Proof.Machine

/-- The error codes that a command can report (spec/60_exceptions.md R260). Codes 11 to 255 are never reported and have
no name here. -/
inductive ErrorCode where
  | none
  | invalidWidth
  | bufferTooSmall
  | corruptData
  | wordSizeMismatch
  | invalidInput
  | illegalCommand
  | misalignedBuffer
  | malformedContainer
  | bufferOverlap
  | addressRange
deriving DecidableEq, Repr

/-- The fields of STATUS (R25). The host never writes them, and its reserved bits read 0; the 64-bit value it reads is
`Status.toWord`. -/
structure Status where
  /-- bit 0: a command is in flight (R26) -/
  busy : Bool
  /-- bit 1: set by a completion, cleared by the next issue (R27) -/
  done : Bool
  /-- bit 2: the last completed command ended with an error (R28) -/
  err : Bool
  /-- bit 3, sticky: a host write was ignored because BUSY was 1 (R29) -/
  wign : Bool
  /-- bits 15:8: the error code of the last completed command (R30) -/
  code : ErrorCode
deriving DecidableEq, Repr

/-- The operands captured at issue, meaningful only while BUSY = 1 (R24, R38). -/
structure Latch where
  cmd : Word
  srcAddr : Word
  srcLen : Word
  dstAddr : Word
  dstLen : Word
deriving DecidableEq, Repr

/-- What can happen to the block from outside, and the core's own turn (spec/60_exceptions.md R269: a host register access,
the completion step, reset; spec/20_memory.md R60: the host's memory accesses). -/
inductive Event where
  /-- a host read of `size` bytes at the host address `addr` of the register block -/
  | regRead (addr size : Nat)
  /-- a host write of `size` bytes at the host address `addr` of the register block -/
  | regWrite (addr size : Nat) (value : Word)
  /-- a host read of `len` bytes of the data memory -/
  | memRead (addr len : Nat)
  /-- a host write to the data memory -/
  | memWrite (addr : Nat) (bytes : List Byte)
  /-- the reset event (spec/70_reset_and_hazards.md R290) -/
  | reset
  /-- the core's enabled step, if it has one (R73) -/
  | coreTurn
deriving DecidableEq, Repr

/-- What a host read returned. -/
inductive Observation where
  | reg (addr : Nat) (value : Word)
  | mem (addr : Nat) (bytes : List Byte)
deriving DecidableEq, Repr

/-- The data memory: pairs of address and byte, the addresses strictly rising, no byte 0 (`Memory.wf`); an address that is
not listed reads as 0 (assumption 5). -/
abbrev Memory := List Host.Cell

/-- The whole state. -/
structure State where
  /-- CMD (R24) -/
  cmd : Word
  /-- STATUS (R25) -/
  status : Status
  /-- SRC_ADDR (R31) -/
  srcAddr : Word
  /-- SRC_LEN (R31) -/
  srcLen : Word
  /-- DST_ADDR (R32) -/
  dstAddr : Word
  /-- DST_LEN (R32) -/
  dstLen : Word
  /-- RES_LEN (R33) -/
  resLen : Word
  /-- SEED_LO: seed bytes 0 to 7 (R34) -/
  seedLo : Word
  /-- SEED_HI: seed bytes 8 to 15 (R34) -/
  seedHi : Word
  /-- the in-flight latch (R38) -/
  latch : Latch
  /-- the data memory (R39) -/
  mem : Memory
  /-- the recorded fault HostHazard, never cleared (R76) -/
  hostHazard : Bool
  /-- the command in flight is the one a HostHazard hit, so its bytes are unconstrained (R76; assumption 6) -/
  raced : Bool
  /-- MEM_SIZE and REG_BASE (R11; assumption 1) -/
  platform : Platform
  /-- MODEL's own: what the host, the reset line and the core do next, in order (R269; assumption 3) -/
  inputs : List Event
  /-- MODEL's own: what host reads returned, the newest first (assumption 4) -/
  observed : List Observation
  /-- MODEL's own: how many "any value" events there have been (assumption 2) -/
  draws : Nat
deriving DecidableEq, Repr

/-- What stops the machine. -/
inductive Fault where
  /-- a host access to a data-memory address at or above MEM_SIZE, which does not exist (R60); raised by `hostMemRead` and
  `hostMemWrite`; safe: the spec gives such an access no effect -/
  | noSuchAddress (addr len : Nat)
deriving DecidableEq, Repr

/-- What the model has no step for. -/
inductive Refusal where
  /-- a command that has no meaning yet; raised by no arm of `exec`; safe -/
  | notModelled (mnemonic : String)
  /-- a host register access that is not an aligned 64-bit access inside the block, which "a model refuses"
  (R35, R81; spec/93 I17); raised by `hostRegRead` and `hostRegWrite`; safe -/
  | badRegisterAccess (addr size : Nat)
deriving DecidableEq, Repr

/-- STATUS after reset: 0 (R25, R290). -/
def Status.reset : Status := { busy := false, done := false, err := false, wign := false, code := .none }

/-- The discarded latch (R290); its value then means nothing (R38). DESIGN CHOICE 0 (assumption 7). -/
def Latch.empty : Latch := { cmd := 0, srcAddr := 0, srcLen := 0, dstAddr := 0, dstLen := 0 }

/-- The machine at power-on on a platform whose memory holds `m`, with nothing happening yet: "At power-on the block is in
its reset state" (R293), and the memory holds whatever the host's memory holds (R39). -/
def State.powerOn (p : Platform) (m : Memory) : State :=
  { cmd := 0, status := Status.reset, srcAddr := 0, srcLen := 0, dstAddr := 0, dstLen := 0, resLen := 0,
    seedLo := 0, seedHi := 0, latch := Latch.empty, mem := m, hostHazard := false, raced := false,
    platform := p, inputs := [], observed := [], draws := 0 }

/-- The machine right after reset, on the launch platform, with nothing listed in memory (R22, R290, R293). -/
def State.reset : State := State.powerOn Platform.launch []

end Sys2Proof.Machine
end

