-- ==== Sys2Proof/Machine/Flags.lean ====
section
/-! DEFINITION. The status register (spec/10_state.md R25 to R30) and the error codes (spec/60_exceptions.md R260): what an
issue, a completion and an ignored write make of it, and the 64-bit value that the host reads. -/

namespace Sys2Proof.Machine

/-- The number of an error code (R260). -/
def ErrorCode.toByte : ErrorCode → Byte
  | .none => 0
  | .invalidWidth => 1
  | .bufferTooSmall => 2
  | .corruptData => 3
  | .wordSizeMismatch => 4
  | .invalidInput => 5
  | .illegalCommand => 6
  | .misalignedBuffer => 7
  | .malformedContainer => 8
  | .bufferOverlap => 9
  | .addressRange => 10

/-- The value of STATUS that a host read returns (R25): BUSY [0], DONE [1], ERR [2], WIGN [3], zeros [7:4], CODE [15:8],
zeros [63:16]. -/
def Status.toWord (st : Status) : Word :=
  0#48 ++ st.code.toByte ++ 0#4 ++ BitVec.ofBool st.wign ++ BitVec.ofBool st.err ++ BitVec.ofBool st.done
    ++ BitVec.ofBool st.busy

/-- STATUS at issue: BUSY = 1 and every other field 0 (R24). -/
def Status.issued : Status := { busy := true, done := false, err := false, wign := false, code := .none }

/-- STATUS at completion: BUSY = 0, DONE = 1, ERR and CODE as the outcome says (R73, R263, R264); WIGN is kept (R29). -/
def Status.completed (st : Status) (c : ErrorCode) : Status :=
  { busy := false, done := true, err := decide (c ≠ .none), wign := st.wign, code := c }

/-- STATUS after an ignored host write: WIGN = 1 (R37). -/
def Status.writeIgnored (st : Status) : Status := { st with wign := true }

end Sys2Proof.Machine
end

