-- ==== Sys2Proof/Machine/Operands.lean ====
section
/-! DEFINITION. The arithmetic primitives (spec/00_scope.md R15, R17), byte order (spec/20_memory.md R61), element arrays
(spec/30_encoding.md R98), and the operands of a command: its two windows (spec/20_memory.md R64) and the seed
(spec/30_encoding.md R99 to R101). -/

namespace Sys2Proof.Machine

/-- `ceil(a/b)` (R15). -/
def ceilDiv (a b : Nat) : Nat := (a + b - 1) / b

/-- `pad16(n) = 16·ceil(n/16)` (R15). -/
def pad16 (n : Nat) : Nat := 16 * ceilDiv n 16

/-- `bitlength(v)`: 0 for 0, and floor(log2 v) + 1 otherwise (R15). -/
def bitlength (v : Nat) : Nat := if v = 0 then 0 else Nat.log2 v + 1

/-- w, in bits (R6). -/
def bitsOf : WordSize → Nat
  | .w32 => 32
  | .w64 => 64

/-- w/8: the bytes of one element (R98). -/
def bytesOf : WordSize → Nat
  | .w32 => 4
  | .w64 => 8

/-- SL(w) = 128/w: the lanes of the seed (R9). -/
def lanesOf : WordSize → Nat
  | .w32 => 4
  | .w64 => 2

/-- 128·w/8: the bytes of one block of 128 elements (R98). -/
def blockBytes (w : WordSize) : Nat := 128 * bytesOf w

/-- `a +w b` (R15). -/
def addW (w : WordSize) (a b : Nat) : Nat := (a + b) % 2 ^ bitsOf w

/-- `a −w b` (R15). -/
def subW (w : WordSize) (a b : Nat) : Nat := (a + (2 ^ bitsOf w - b % 2 ^ bitsOf w)) % 2 ^ bitsOf w

/-- `toLE_N(v)`: the N-byte little-endian encoding (R17). -/
def toLE : Nat → Nat → List Byte
  | 0, _ => []
  | n + 1, v => BitVec.ofNat 8 v :: toLE n (v / 256)

/-- `LE_N(bytes)`: the number whose little-endian encoding is the byte list (R17). -/
def fromLE : List Byte → Nat
  | [] => 0
  | b :: bs => b.toNat + 256 * fromLE bs

/-- The first `n` elements, of `k` bytes each, of an element array (R98). -/
def elements (k : Nat) : Nat → List Byte → List Nat
  | 0, _ => []
  | n + 1, bs => fromLE (bs.take k) :: elements k n (bs.drop k)

/-- The element array of a list of values, `k` bytes each (R98). -/
def elementBytes (k : Nat) (vs : List Nat) : List Byte := vs.flatMap (toLE k)

/-- The base of the source window, from the latch (R64). -/
def srcBase (s : State) : Nat := s.latch.srcAddr.toNat

/-- The length of the source window, from the latch (R64). -/
def srcSize (s : State) : Nat := s.latch.srcLen.toNat

/-- The base of the destination window, from the latch (R64). -/
def dstBase (s : State) : Nat := s.latch.dstAddr.toNat

/-- The length of the destination window, from the latch (R64). -/
def dstSize (s : State) : Nat := s.latch.dstLen.toNat

/-- The address lies in the source window [SRC_ADDR, SRC_ADDR + SRC_LEN) (R64). -/
abbrev inSource (s : State) (a : Nat) : Prop := srcBase s ≤ a ∧ a < srcBase s + srcSize s

/-- The address lies in the destination window [DST_ADDR, DST_ADDR + DST_LEN) (R64). -/
abbrev inDestination (s : State) (a : Nat) : Prop := dstBase s ≤ a ∧ a < dstBase s + dstSize s

/-- Check 3 fails: a base is not a multiple of 16 (R63, R261). -/
abbrev windowsMisaligned (s : State) : Prop := srcBase s % 16 ≠ 0 ∨ dstBase s % 16 ≠ 0

/-- Check 4 fails: a window reaches past MEM_SIZE (R65, R261). -/
abbrev windowsOutOfRange (s : State) : Prop :=
  srcBase s + srcSize s > s.platform.memSize ∨ dstBase s + dstSize s > s.platform.memSize

/-- Check 5 fails: both windows are non-empty and share an address (R66, R261). -/
abbrev windowsOverlap (s : State) : Prop :=
  srcSize s ≠ 0 ∧ dstSize s ≠ 0 ∧ srcBase s < dstBase s + dstSize s ∧ dstBase s < srcBase s + srcSize s

/-- The 16 seed bytes: SEED_LO, then SEED_HI (R99). -/
def seedBytes (s : State) : List Byte := toLE 8 s.seedLo.toNat ++ toLE 8 s.seedHi.toNat

/-- Lane j of the seed (R100). -/
def seedLane (w : WordSize) (s : State) (j : Nat) : Nat :=
  fromLE (((seedBytes s).drop (j * bytesOf w)).take (bytesOf w))

/-- The seed last element: lane SL(w) − 1 (R101). -/
def seedLast (w : WordSize) (s : State) : Nat := seedLane w s (lanesOf w - 1)

/-- `seedOf(w, K)`: the 16 bytes of the last SL(w) of 128 raw values (R101). -/
def seedOf (w : WordSize) (K : List Nat) : List Byte := elementBytes (bytesOf w) (K.drop (128 - lanesOf w))

end Sys2Proof.Machine
end

