-- ==== Sys2Proof/Machine/Ops.lean ====
section
/-! DEFINITION. The named operations over memory and registers: reading and writing bytes of the data memory, the register
block (spec/10_state.md R22 to R37), issuing a command (R24), ending a command with an error (spec/60_exceptions.md R263,
the "trap" of this hardware, from which there is no return step, R265) and ending it with success (R264). -/

namespace Sys2Proof.Machine

/-! ### The data memory -/

/-- The byte at an address; an address that is not listed reads as 0 (assumption 5). -/
def Memory.read : Memory → Nat → Byte
  | [], _ => 0
  | c :: m, a => if c.1 = a then c.2 else Memory.read m a

/-- `MemRead(addr, n)` (R17). -/
def Memory.readBytes (m : Memory) (a n : Nat) : List Byte := (List.range n).map fun k => m.read (a + k)

/-- The cells that hold a byte list from an address on: one for each byte that is not 0. -/
def cellsOf : Nat → List Byte → Memory
  | _, [] => []
  | a, b :: bs => if b = 0 then cellsOf (a + 1) bs else (a, b) :: cellsOf (a + 1) bs

/-- `MemWrite(addr, n, v)` for a byte list v of length n (R17): the cells below, the bytes written, the cells above. -/
def Memory.write (m : Memory) (a : Nat) (bs : List Byte) : Memory :=
  m.filter (fun c => c.1 < a) ++ (cellsOf a bs ++ m.filter (fun c => a + bs.length ≤ c.1))

/-- The canonical form of a memory of `size` bytes: the addresses strictly rise, no listed byte is what an unlisted address
reads as, and every listed address exists (R39, R60). -/
abbrev Memory.wf (size : Nat) (m : Memory) : Prop :=
  m.Pairwise (fun x y => x.1 < y.1) ∧ ∀ c ∈ m, c.2 ≠ 0 ∧ c.1 < size

/-! ### The register block -/

/-- ID (R23): the constant 0x0000_0001_3231_5042. -/
def idConstant : Word := 0x0000000132315042

/-- A read of register `i` of the block (R22): ID is a constant (R23), the reserved registers read 0 (R35). -/
def readReg (s : State) (i : Nat) : Word :=
  match i with
  | 0 => idConstant
  | 1 => s.cmd
  | 2 => s.status.toWord
  | 3 => s.srcAddr
  | 4 => s.srcLen
  | 5 => s.dstAddr
  | 6 => s.dstLen
  | 7 => s.resLen
  | 8 => s.seedLo
  | 9 => s.seedHi
  | _ => 0

/-- Issuing the command word `c` (R24). -/
def issue (c : Word) (s : State) : State :=
  { s with
    cmd := c
    status := Status.issued
    resLen := 0
    latch := { cmd := c, srcAddr := s.srcAddr, srcLen := s.srcLen, dstAddr := s.dstAddr, dstLen := s.dstLen }
    raced := false }

/-- A write that R37 ignores while BUSY = 1 sets WIGN; while BUSY = 0 it takes effect. -/
def whenIdle (f : State → State) (s : State) : State :=
  if s.status.busy then { s with status := s.status.writeIgnored } else f s

/-- A host write of `v` to register `i` of the block (R22, R36, R37): ID, STATUS, RES_LEN and the reserved registers ignore
it and set no bit. -/
def writeReg (i : Nat) (v : Word) (s : State) : State :=
  match i with
  | 1 => whenIdle (issue v) s
  | 3 => whenIdle (fun s => { s with srcAddr := v }) s
  | 4 => whenIdle (fun s => { s with srcLen := v }) s
  | 5 => whenIdle (fun s => { s with dstAddr := v }) s
  | 6 => whenIdle (fun s => { s with dstLen := v }) s
  | 8 => whenIdle (fun s => { s with seedLo := v }) s
  | 9 => whenIdle (fun s => { s with seedHi := v }) s
  | _ => s

/-! ### The core's accesses

A command whose windows the host wrote while it was in flight (`raced`) reads and writes bytes of any value (R76, I14). -/

/-- `MemRead` of `n` bytes at the base of the source window, by the command in flight (R67). -/
def coreRead (s : State) (n : Nat) : List Byte :=
  if s.raced then (List.range n).map fun k => Config.freeByte s.draws (srcBase s + k)
  else s.mem.readBytes (srcBase s) n

/-- The bytes that land in memory when the command in flight writes `bs` at the base of the destination window (R68). -/
def coreBytes (s : State) (bs : List Byte) : List Byte :=
  if s.raced then (List.range bs.length).map fun k => Config.freeByte (s.draws + 1) (dstBase s + k)
  else bs

/-- The draws that a completion uses up: one for what a hazarded command reads and one for what it writes. -/
def drawsAfter (s : State) : Nat := if s.raced then s.draws + 2 else s.draws

/-! ### Ending a command -/

/-- `raise code` (R17, R263): STATUS and RES_LEN are written and nothing else. -/
def raiseError (c : ErrorCode) (s : State) : State :=
  { s with status := s.status.completed c, resLen := 0, raced := false, draws := drawsAfter s }

/-- What a successful command does beyond STATUS: its result length R, the bytes it writes at DST_ADDR, and the 16 bytes
of the new seed where it updates the seed. -/
structure Result where
  len : Nat
  bytes : List Byte
  seed : Option (List Byte)
deriving DecidableEq, Repr

/-- SEED_LO after the seed update of a result (R99). -/
def seedLoAfter (s : State) : Option (List Byte) → Word
  | none => s.seedLo
  | some bs => BitVec.ofNat 64 (fromLE (bs.take 8))

/-- SEED_HI after the seed update of a result (R99). -/
def seedHiAfter (s : State) : Option (List Byte) → Word
  | none => s.seedHi
  | some bs => BitVec.ofNat 64 (fromLE ((bs.drop 8).take 8))

/-- `complete(R)` (R17, R264): the memory writes, any seed update, RES_LEN ← R, STATUS. -/
def succeed (r : Result) (s : State) : State :=
  { s with
    mem := s.mem.write (dstBase s) (coreBytes s r.bytes)
    seedLo := seedLoAfter s r.seed
    seedHi := seedHiAfter s r.seed
    resLen := BitVec.ofNat 64 r.len
    status := s.status.completed .none
    raced := false
    draws := drawsAfter s }

/-- The completion step of a command that has decided its outcome (R73): the first failing check's code, or the effects. -/
def finish (outcome : Except ErrorCode Result) (s : State) : Host.Outcome State Fault Refusal :=
  match outcome with
  | .error c => .next (raiseError c s)
  | .ok r => .next (succeed r s)

/-- One check: the command ends with the code if the check fails (R261). -/
def check (fails : Prop) [Decidable fails] (c : ErrorCode) : Except ErrorCode Unit :=
  if fails then .error c else .ok ()

/-- Checks 3 to 5 (R261): MisalignedBuffer, AddressRange, BufferOverlap, in this order. -/
def checkWindows (s : State) : Except ErrorCode Unit := do
  check (windowsMisaligned s) .misalignedBuffer
  check (windowsOutOfRange s) .addressRange
  check (windowsOverlap s) .bufferOverlap

end Sys2Proof.Machine
end

