-- ==== Sys2Proof/Machine/Codec.lean ====
section
/-! DEFINITION. The kernel functions: the packed bit stream (spec/30_encoding.md R102, R103), packBits and unpackBits
(spec/40_kernels.md R142, R143), deltas and prefix sums (R145, R146), and the bit-width selector
(spec/41_block_encoder.md R180). Elements are numbers below 2^w. -/

namespace Sys2Proof.Machine

/-- The number Σ (V[i] mod 2^nb)·2^(i·nb) whose bits are the packed stream (R103). -/
def streamOf (nb : Nat) : List Nat → Nat
  | [] => 0
  | v :: vs => v % 2 ^ nb + 2 ^ nb * streamOf nb vs

/-- `packBits(nb, V)`: the 16·nb bytes of the packed block; each element gives its low nb bits (R142). -/
def packBits (nb : Nat) (V : List Nat) : List Byte := toLE (16 * nb) (streamOf nb V)

/-- The first `k` fields of nb bits of a number. -/
def fieldsOf (nb : Nat) : Nat → Nat → List Nat
  | 0, _ => []
  | k + 1, n => n % 2 ^ nb :: fieldsOf nb k (n / 2 ^ nb)

/-- `unpackBits(nb, P)`: the 128 elements of a packed block (R143). -/
def unpackBits (nb : Nat) (P : List Byte) : List Nat := fieldsOf nb 128 (fromLE P)

/-- `deltaEnc(w, last, K)`: each value minus the one before it, the first minus `last`, mod 2^w (R145). -/
def deltaEnc (w : WordSize) : Nat → List Nat → List Nat
  | _, [] => []
  | last, k :: ks => subW w k last :: deltaEnc w k ks

/-- `deltaDec(w, last, D)`: the prefix sums from `last`, mod 2^w (R146). -/
def deltaDec (w : WordSize) : Nat → List Nat → List Nat
  | _, [] => []
  | last, d :: ds => addW w last d :: deltaDec w (addW w last d) ds

/-- `selectWidth(V) = bitlength(max V[i])` (R180). -/
def selectWidth (V : List Nat) : Nat := bitlength (V.foldl max 0)

end Sys2Proof.Machine
end

