-- ==== Sys2Proof/Machine/Formats.lean ====
section
/-! DEFINITION. The container (spec/30_encoding.md R105, R106), its in-memory image (R110 to R115) and its wire format
(R120 to R124). -/

namespace Sys2Proof.Machine

/-- The abstract container (R105): blocks are pairs of a bit width and the packed bytes. -/
structure Container where
  count : Nat
  word : WordSize
  delta : Bool
  blocks : List (Nat × List Byte)
deriving DecidableEq, Repr

/-- B(count) = ceil(count/128): the blocks of a container of that many elements (R106). -/
def blockCount (count : Nat) : Nat := ceilDiv count 128

/-- Σ nb_b over the blocks. -/
def widthSum (C : Container) : Nat := (C.blocks.map (·.1)).sum

/-- A container is valid (R105, R106): the count fits u32, there are B(count) blocks, each width is at most w and each
block has 16·nb bytes. -/
abbrev Container.valid (C : Container) : Prop :=
  C.count < 2 ^ 32 ∧ C.blocks.length = blockCount C.count ∧
    ∀ b ∈ C.blocks, b.1 ≤ bitsOf C.word ∧ b.2.length = 16 * b.1

/-- word_size_tag: 32 or 64 (R111, R121). -/
def tagByte (w : WordSize) : Byte := BitVec.ofNat 8 (bitsOf w)

/-- delta_flag: 0 plain, 1 delta (R111, R121). -/
def flagByte (delta : Bool) : Byte := if delta then 1 else 0

/-- The word size of a tag, where it is 32 or 64 (M2, W2). -/
def wordOfTag (b : Byte) (c : ErrorCode) : Except ErrorCode WordSize :=
  if b = 32 then .ok .w32 else if b = 64 then .ok .w64 else .error c

/-- The mode of a flag, where it is 0 or 1 (M3, W3). -/
def deltaOfFlag (b : Byte) (c : ErrorCode) : Except ErrorCode Bool :=
  if b = 0 then .ok false else if b = 1 then .ok true else .error c

/-- `L[i..j)` (R16). -/
def slice (L : List Byte) (i j : Nat) : List Byte := (L.drop i).take (j - i)

/-! ### The container image -/

/-- `S(C) = 16 + pad16(B) + 16·Σ nb_b` (R114). -/
def imageSize (C : Container) : Nat := 16 + pad16 C.blocks.length + 16 * widthSum C

/-- The 16 header bytes (R111). -/
def imageHeader (C : Container) : List Byte :=
  toLE 4 C.count ++ [tagByte C.word, flagByte C.delta, 0, 0] ++ toLE 4 C.blocks.length ++ [0, 0, 0, 0]

/-- The nbits table and its padding (R112). -/
def imageTable (C : Container) : List Byte :=
  C.blocks.map (fun b => BitVec.ofNat 8 b.1) ++ List.replicate (pad16 C.blocks.length - C.blocks.length) 0

/-- `imageEncode(C)` (R111 to R114): header, table, then the packed blocks in order with no gaps. -/
def imageEncode (C : Container) : List Byte := imageHeader C ++ imageTable C ++ C.blocks.flatMap (·.2)

/-- The blocks of a payload, each 16·nb bytes, in the order of their widths (R113). -/
def splitBlocks : List Nat → List Byte → List (Nat × List Byte)
  | [], _ => []
  | nb :: nbs, L => (nb, L.take (16 * nb)) :: splitBlocks nbs (L.drop (16 * nb))

/-- `imageDecode(L)`: checks M1 to M8 in order, then the container (R115). -/
def imageDecode (L : List Byte) : Except ErrorCode Container := do
  check (L.length < 16) .malformedContainer -- M1
  let word ← wordOfTag (L.getD 4 0) .malformedContainer -- M2
  let delta ← deltaOfFlag (L.getD 5 0) .malformedContainer -- M3
  check (∃ b ∈ slice L 6 8 ++ slice L 12 16, b ≠ 0) .malformedContainer -- M4
  let count := fromLE (slice L 0 4)
  let B := fromLE (slice L 8 12)
  check (B ≠ blockCount count) .malformedContainer -- M5
  check (L.length < 16 + pad16 B) .malformedContainer -- M6
  let widths := (slice L 16 (16 + B)).map (·.toNat)
  check (∃ nb ∈ widths, nb > bitsOf word) .malformedContainer -- M7
  check (L.length < 16 + pad16 B + 16 * widths.sum) .malformedContainer -- M8
  return { count := count, word := word, delta := delta, blocks := splitBlocks widths (L.drop (16 + pad16 B)) }

/-! ### The wire format -/

/-- `WS(C) = 10 + Σ (5 + 16·nb_b)` (R122). -/
def wireSize (C : Container) : Nat := 10 + (C.blocks.map fun b => 5 + 16 * b.1).sum

/-- One block record: nbits, packed_byte_length = 16·nbits, the data (R120, R121). -/
def wireRecord (b : Nat × List Byte) : List Byte := BitVec.ofNat 8 b.1 :: (toLE 4 (16 * b.1) ++ b.2)

/-- `wireEncode(C)` (R120 to R123). -/
def wireEncode (C : Container) : List Byte :=
  toLE 4 C.count ++ [tagByte C.word, flagByte C.delta] ++ toLE 4 C.blocks.length ++ C.blocks.flatMap wireRecord

/-- The first `B` records of the rest of a stream, checks W5 to W8 on each, and what is left after them (R124). -/
def wireRecords (tag : Nat) : Nat → List Byte → Except ErrorCode (List (Nat × List Byte) × List Byte)
  | 0, rest => .ok ([], rest)
  | B + 1, rest => do
    check (rest.length < 5) .corruptData -- W5
    let nb := (rest.getD 0 0).toNat
    let len := fromLE (slice rest 1 5)
    check (nb > tag) .corruptData -- W6
    check (len ≠ 16 * nb) .corruptData -- W7
    check (rest.length - 5 < len) .corruptData -- W8
    let (blocks, left) ← wireRecords tag B (rest.drop (5 + len))
    return ((nb, slice rest 5 (5 + len)) :: blocks, left)

/-- `wireDecode(L)`: checks W1 to W9 in order, then the container (R124). -/
def wireDecode (L : List Byte) : Except ErrorCode Container := do
  check (L.length < 10) .corruptData -- W1
  let count := fromLE (slice L 0 4)
  let B := fromLE (slice L 6 10)
  let word ← wordOfTag (L.getD 4 0) .corruptData -- W2
  let delta ← deltaOfFlag (L.getD 5 0) .corruptData -- W3
  check (B ≠ blockCount count) .corruptData -- W4
  let (blocks, left) ← wireRecords (bitsOf word) B (L.drop 10)
  check (left ≠ []) .corruptData -- W9
  return { count := count, word := word, delta := delta, blocks := blocks }

end Sys2Proof.Machine
end

