-- ==== Sys2Proof/Machine/BlockEncoder.lean ====
section
/-! DEFINITION. The adaptive block encoder and decoder: PACKINTS, DPACKINTS and UNPACKINTS (spec/41_block_encoder.md R180 to
R199). -/

namespace Sys2Proof.Machine

/-- INIT_SEED (R187; spec/93 I2): the running seed last element starts at 0. -/
def initSeed : Nat := 0

/-- The first `B` groups of up to 128 consecutive elements (R182). -/
def groupsOf : Nat → List Nat → List (List Nat)
  | 0, _ => []
  | B + 1, X => X.take 128 :: groupsOf B (X.drop 128)

/-- The kernel input of a group in plain mode: padded with zeros (R183). -/
def padPlain (G : List Nat) : List Nat := G ++ List.replicate (128 - G.length) 0

/-- The raw kernel input of a group in delta mode: padded with its last element, so that every padded delta is 0 (R184). -/
def padDelta (G : List Nat) : List Nat := G ++ List.replicate (128 - G.length) (G.getLastD 0)

/-- The 128 values that the fixed-width kernel packs for a group, from the running seed `last` (R183, R184). -/
def kernelInput (w : WordSize) (delta : Bool) (last : Nat) (G : List Nat) : List Nat :=
  if delta then deltaEnc w last (padDelta G) else padPlain G

/-- One block: the least width that holds every value, and the packed bytes (R180, R186). -/
def encodeBlock (V : List Nat) : Nat × List Byte := (selectWidth V, packBits (selectWidth V) V)

/-- The blocks of the groups, from the running seed `last`, which advances to each group's own last raw value (R186, R188). -/
def encodeBlocks (w : WordSize) (delta : Bool) : Nat → List (List Nat) → List (Nat × List Byte)
  | _, [] => []
  | last, G :: Gs => encodeBlock (kernelInput w delta last G) :: encodeBlocks w delta ((padDelta G).getD 127 0) Gs

/-- `encodeFn(w, X, delta)` (R186). -/
def encodeFn (w : WordSize) (X : List Nat) (delta : Bool) : Container :=
  { count := X.length, word := w, delta := delta,
    blocks := encodeBlocks w delta initSeed (groupsOf (blockCount X.length) X) }

/-- The 128 raw values of a block, from the running seed `last` (R189). -/
def decodeBlock (w : WordSize) (delta : Bool) (last : Nat) (b : Nat × List Byte) : List Nat :=
  if delta then deltaDec w last (unpackBits b.1 b.2) else unpackBits b.1 b.2

/-- The elements of the blocks, `n` of them still to come, from the running seed `last` (R189): min(128, n) of each. -/
def decodeBlocks (w : WordSize) (delta : Bool) : Nat → Nat → List (Nat × List Byte) → List Nat
  | _, _, [] => []
  | n, last, b :: bs =>
    (decodeBlock w delta last b).take (min 128 n) ++
      decodeBlocks w delta (n - 128) ((decodeBlock w delta last b).getD 127 0) bs

/-- `decodeFn(C)` (R189). -/
def decodeFn (C : Container) : List Nat := decodeBlocks C.word C.delta C.count initSeed C.blocks

/-- PACKINTS and DPACKINTS (R190 to R193). -/
def packIntsPlan (w : WordSize) (delta : Bool) (s : State) : Except ErrorCode Result := do
  checkWindows s
  check (srcSize s % bytesOf w ≠ 0 ∨ srcSize s / bytesOf w > 2 ^ 32 - 1) .invalidInput
  let X := elements (bytesOf w) (srcSize s / bytesOf w) (coreRead s (srcSize s))
  let C := encodeFn w X delta
  check (dstSize s < imageSize C) .bufferTooSmall
  return { len := imageSize C, bytes := imageEncode C, seed := none }

/-- UNPACKINTS (R194, R195). -/
def unpackIntsPlan (w : WordSize) (s : State) : Except ErrorCode Result := do
  checkWindows s
  let C ← imageDecode (coreRead s (srcSize s))
  check (C.word ≠ w) .wordSizeMismatch
  check (dstSize s < bytesOf w * C.count) .bufferTooSmall
  return { len := bytesOf w * C.count, bytes := elementBytes (bytesOf w) (decodeFn C), seed := none }

/-- PACKINTS32 (R190). -/
def execPackInts32 (s : State) : Host.Outcome State Fault Refusal := finish (packIntsPlan .w32 false s) s

/-- PACKINTS64 (R191). -/
def execPackInts64 (s : State) : Host.Outcome State Fault Refusal := finish (packIntsPlan .w64 false s) s

/-- DPACKINTS32 (R192). -/
def execDpackInts32 (s : State) : Host.Outcome State Fault Refusal := finish (packIntsPlan .w32 true s) s

/-- DPACKINTS64 (R193). -/
def execDpackInts64 (s : State) : Host.Outcome State Fault Refusal := finish (packIntsPlan .w64 true s) s

/-- UNPACKINTS32 (R194). -/
def execUnpackInts32 (s : State) : Host.Outcome State Fault Refusal := finish (unpackIntsPlan .w32 s) s

/-- UNPACKINTS64 (R195). -/
def execUnpackInts64 (s : State) : Host.Outcome State Fault Refusal := finish (unpackIntsPlan .w64 s) s

end Sys2Proof.Machine
end

