-- ==== Sys2Proof/Machine/Kernels.lean ====
section
/-! DEFINITION. The kernel commands PACK, UNPACK, DPACK and DUNPACK (spec/40_kernels.md R140 to R157). Each plan makes the
checks in the order of spec/60_exceptions.md R261 and gives the first failing code or the effects. -/

namespace Sys2Proof.Machine

/-- Checks 2 to 7 of a kernel command that needs `srcNeed` source bytes and writes `dstNeed` bytes (R141, R261). Check 1
is the decoder's. -/
def kernelChecks (w : WordSize) (nb srcNeed dstNeed : Nat) (s : State) : Except ErrorCode Unit := do
  check (nb > bitsOf w) .invalidWidth
  checkWindows s
  check (srcSize s < srcNeed) .bufferTooSmall
  check (dstSize s < dstNeed) .bufferTooSmall

/-- The 128 elements in the source window (R98, R148). -/
def sourceBlock (w : WordSize) (s : State) : List Nat := elements (bytesOf w) 128 (coreRead s (blockBytes w))

/-- PACK (R148, R149). -/
def packPlan (w : WordSize) (nb : Nat) (s : State) : Except ErrorCode Result := do
  kernelChecks w nb (blockBytes w) (16 * nb) s
  let V := sourceBlock w s
  return { len := 16 * nb, bytes := packBits nb V, seed := none }

/-- UNPACK (R150, R151). -/
def unpackPlan (w : WordSize) (nb : Nat) (s : State) : Except ErrorCode Result := do
  kernelChecks w nb (16 * nb) (blockBytes w) s
  let U := unpackBits nb (coreRead s (16 * nb))
  return { len := blockBytes w, bytes := elementBytes (bytesOf w) U, seed := none }

/-- DPACK (R152, R153): the deltas are packed, and the seed becomes the last raw values (R147). -/
def dpackPlan (w : WordSize) (nb : Nat) (s : State) : Except ErrorCode Result := do
  kernelChecks w nb (blockBytes w) (16 * nb) s
  let K := sourceBlock w s
  let D := deltaEnc w (seedLast w s) K
  return { len := 16 * nb, bytes := packBits nb D, seed := some (seedOf w K) }

/-- DUNPACK (R154, R155): the raw values are written, and the seed becomes the last of them (R147). -/
def dunpackPlan (w : WordSize) (nb : Nat) (s : State) : Except ErrorCode Result := do
  kernelChecks w nb (16 * nb) (blockBytes w) s
  let D := unpackBits nb (coreRead s (16 * nb))
  let K := deltaDec w (seedLast w s) D
  return { len := blockBytes w, bytes := elementBytes (bytesOf w) K, seed := some (seedOf w K) }

/-- PACK32 nb (R148). -/
def execPack32 (nb : Nat) (s : State) : Host.Outcome State Fault Refusal := finish (packPlan .w32 nb s) s

/-- PACK64 nb (R149). -/
def execPack64 (nb : Nat) (s : State) : Host.Outcome State Fault Refusal := finish (packPlan .w64 nb s) s

/-- UNPACK32 nb (R150). -/
def execUnpack32 (nb : Nat) (s : State) : Host.Outcome State Fault Refusal := finish (unpackPlan .w32 nb s) s

/-- UNPACK64 nb (R151). -/
def execUnpack64 (nb : Nat) (s : State) : Host.Outcome State Fault Refusal := finish (unpackPlan .w64 nb s) s

/-- DPACK32 nb (R152). -/
def execDpack32 (nb : Nat) (s : State) : Host.Outcome State Fault Refusal := finish (dpackPlan .w32 nb s) s

/-- DPACK64 nb (R153). -/
def execDpack64 (nb : Nat) (s : State) : Host.Outcome State Fault Refusal := finish (dpackPlan .w64 nb s) s

/-- DUNPACK32 nb (R154). -/
def execDunpack32 (nb : Nat) (s : State) : Host.Outcome State Fault Refusal := finish (dunpackPlan .w32 nb s) s

/-- DUNPACK64 nb (R155). -/
def execDunpack64 (nb : Nat) (s : State) : Host.Outcome State Fault Refusal := finish (dunpackPlan .w64 nb s) s

end Sys2Proof.Machine
end

