-- ==== Sys2Proof/Machine/Serializer.lean ====
section
/-! DEFINITION. SERIALIZE and DESERIALIZE (spec/42_container.md R220, R221). -/

namespace Sys2Proof.Machine

/-- SERIALIZE: container image to wire format (R220). -/
def serializePlan (s : State) : Except ErrorCode Result := do
  checkWindows s
  let C ← imageDecode (coreRead s (srcSize s))
  check (dstSize s < wireSize C) .bufferTooSmall
  return { len := wireSize C, bytes := wireEncode C, seed := none }

/-- DESERIALIZE: wire format to container image (R221). -/
def deserializePlan (s : State) : Except ErrorCode Result := do
  checkWindows s
  let C ← wireDecode (coreRead s (srcSize s))
  check (dstSize s < imageSize C) .bufferTooSmall
  return { len := imageSize C, bytes := imageEncode C, seed := none }

/-- SERIALIZE (R220). -/
def execSerialize (s : State) : Host.Outcome State Fault Refusal := finish (serializePlan s) s

/-- DESERIALIZE (R221). -/
def execDeserialize (s : State) : Host.Outcome State Fault Refusal := finish (deserializePlan s) s

end Sys2Proof.Machine
end

