-- ==== Sys2Proof/Machine/Dispatch.lean ====
section
/-! DEFINITION. One arm for each command: the completion step of a command that decodes (spec/30_encoding.md R93). -/

namespace Sys2Proof.Machine

/-- The completion step of the command in flight, given the command it decodes to (spec/20_memory.md R73). -/
def exec (i : Instr) (s : State) : Host.Outcome State Fault Refusal :=
  match i with
  | .pack32 nb => Sys2Proof.Machine.execPack32 nb s
  | .pack64 nb => Sys2Proof.Machine.execPack64 nb s
  | .unpack32 nb => Sys2Proof.Machine.execUnpack32 nb s
  | .unpack64 nb => Sys2Proof.Machine.execUnpack64 nb s
  | .dpack32 nb => Sys2Proof.Machine.execDpack32 nb s
  | .dpack64 nb => Sys2Proof.Machine.execDpack64 nb s
  | .dunpack32 nb => Sys2Proof.Machine.execDunpack32 nb s
  | .dunpack64 nb => Sys2Proof.Machine.execDunpack64 nb s
  | .packints32 => Sys2Proof.Machine.execPackInts32 s
  | .packints64 => Sys2Proof.Machine.execPackInts64 s
  | .dpackints32 => Sys2Proof.Machine.execDpackInts32 s
  | .dpackints64 => Sys2Proof.Machine.execDpackInts64 s
  | .unpackints32 => Sys2Proof.Machine.execUnpackInts32 s
  | .unpackints64 => Sys2Proof.Machine.execUnpackInts64 s
  | .serialize => Sys2Proof.Machine.execSerialize s
  | .deserialize => Sys2Proof.Machine.execDeserialize s

end Sys2Proof.Machine
end

