-- ==== Sys2Proof/Machine/HostPort.lean ====
section
/-! DEFINITION. What the outside world does to the block: host register accesses (spec/10_state.md R35 to R37,
spec/20_memory.md R81), host accesses to the data memory (R60, R76), and reset (spec/70_reset_and_hazards.md R290 to R292). -/

namespace Sys2Proof.Machine

/-- The index of the register that a host access of `size` bytes at `addr` names: it must be an aligned 64-bit access inside
the 256 bytes from REG_BASE (R22, R35, R81). -/
def regIndex (p : Platform) (addr size : Nat) : Option Nat :=
  if size = 8 ∧ p.regBase ≤ addr ∧ addr < p.regBase + 256 ∧ (addr - p.regBase) % 8 = 0 then
    some ((addr - p.regBase) / 8)
  else none

/-- A host register read: all 64 bits, no side effect but that the host has seen the value (R27, R36). -/
def hostRegRead (addr size : Nat) (s : State) : Host.Outcome State Fault Refusal :=
  match regIndex s.platform addr size with
  | none => .refused (.badRegisterAccess addr size)
  | some i => .next { s with observed := .reg addr (readReg s i) :: s.observed }

/-- A host register write: all 64 bits (R36). -/
def hostRegWrite (addr size : Nat) (v : Word) (s : State) : Host.Outcome State Fault Refusal :=
  match regIndex s.platform addr size with
  | none => .refused (.badRegisterAccess addr size)
  | some i => .next (writeReg i v s)

/-- What the host sees of one byte of memory: any value in the destination window of a command in flight (R76, I13). -/
def hostByte (s : State) (a : Nat) : Byte :=
  if s.status.busy = true ∧ inDestination s a then Config.freeByte s.draws a else s.mem.read a

/-- A host read of `len` bytes of the data memory. -/
def hostMemRead (addr len : Nat) (s : State) : Host.Outcome State Fault Refusal :=
  if addr + len > s.platform.memSize then .fault (.noSuchAddress addr len)
  else .next { s with
    observed := .mem addr ((List.range len).map fun k => hostByte s (addr + k)) :: s.observed
    draws := s.draws + 1 }

/-- A host write of `n` bytes at `addr` hits a window of the command in flight (R76). -/
abbrev hitsWindows (s : State) (addr n : Nat) : Prop :=
  s.status.busy = true ∧ ∃ k ∈ List.range n, inSource s (addr + k) ∨ inDestination s (addr + k)

/-- A host write to the data memory. One that hits a window of the command in flight records HostHazard, and the bytes
that this command reads and writes are then unconstrained (R76, I14). -/
def hostMemWrite (addr : Nat) (bs : List Byte) (s : State) : Host.Outcome State Fault Refusal :=
  if addr + bs.length > s.platform.memSize then .fault (.noSuchAddress addr bs.length)
  else .next { s with
    mem := s.mem.write addr bs
    hostHazard := s.hostHazard || decide (hitsWindows s addr bs.length)
    raced := s.raced || decide (hitsWindows s addr bs.length) }

/-- The memory after a reset: kept (R292), but that the destination window of an abandoned command holds any values (R291,
I15). The part of the window that lies past MEM_SIZE does not exist. -/
def memoryAfterReset (s : State) : Memory :=
  if s.status.busy then
    s.mem.write (dstBase s) ((List.range (min (dstBase s + dstSize s) s.platform.memSize - dstBase s)).map fun k =>
      Config.freeByte s.draws (dstBase s + k))
  else s.mem

/-- The reset event (R290): every register takes its reset value and the latch is discarded, in one step. HostHazard stays
recorded (R76: never cleared). -/
def resetBlock (s : State) : State :=
  { s with
    cmd := 0, status := Status.reset, srcAddr := 0, srcLen := 0, dstAddr := 0, dstLen := 0, resLen := 0
    seedLo := 0, seedHi := 0, latch := Latch.empty
    mem := memoryAfterReset s
    raced := false
    draws := s.draws + 1 }

end Sys2Proof.Machine
end

