-- ==== Sys2Proof/Machine/Completion.lean ====
section
/-! DEFINITION. The core's turn (spec/20_memory.md R73), and what one event does. -/

namespace Sys2Proof.Machine

/-- The completion step: check 1 of R261 (the latched word matches no row: IllegalCommand), then the command. -/
def completion (s : State) : Host.Outcome State Fault Refusal :=
  match decode s.latch.cmd with
  | .ok i => exec i s
  | .error _ => .next (raiseError .illegalCommand s)

/-- The core's turn: its one enabled step while BUSY = 1 (R73); while BUSY = 0 it "is idle and does nothing" (R276). -/
def coreTurn (s : State) : Host.Outcome State Fault Refusal :=
  if s.status.busy then completion s else .next s

/-- What one event does to the machine (R269). -/
def handle (e : Event) (s : State) : Host.Outcome State Fault Refusal :=
  match e with
  | .regRead addr size => hostRegRead addr size s
  | .regWrite addr size v => hostRegWrite addr size v s
  | .memRead addr len => hostMemRead addr len s
  | .memWrite addr bs => hostMemWrite addr bs s
  | .reset => .next (resetBlock s)
  | .coreTurn => coreTurn s

/-- The next event is due: it is taken from the list and happens. With no event left, the core takes its turn: a command in
flight is completed after a finite delay (R303). -/
def nextEvent (s : State) : Host.Outcome State Fault Refusal :=
  match s.inputs with
  | [] => coreTurn s
  | e :: rest => handle e { s with inputs := rest }

/-- The machine with the command word `c` issued (R24) and the core's turn due next, whatever events come after. -/
def issuedNow (c : Word) (s : State) : State :=
  { issue c s with inputs := .coreTurn :: s.inputs }

end Sys2Proof.Machine
end

