-- ==== Sys2Proof/Machine/Step.lean ====
section
/-! DEFINITION. One step of the machine: one event of spec/60_exceptions.md R269. The core fetches no instructions
(spec/10_state.md R21): a command word comes to run when it is issued by a write to CMD (R24). -/

namespace Sys2Proof.Machine

/-- One step: the next event, or the core's turn when no event is left. -/
def step (s : State) : Host.Outcome State Fault Refusal := nextEvent s

/-- `s` with the command word of a table row issued and the core's turn next, so that the next step runs it. -/
def State.withFetchWord (s : State) (nbits w : Nat) : State := issuedNow (tableWord nbits w) s

end Sys2Proof.Machine
end

