-- ==== Sys2Proof/Safety.lean ====
section
/-! DEFINITION. What a safe run is, and the terms in which the statements speak of the machine: the invariant, the command
of a kind and word size, elements and stream bits in memory, and the checks of spec/60_exceptions.md R261 as one list. -/

namespace Sys2Proof.Machine

/-! ### Safe states -/

/-- The legal values of STATUS (spec/10_state.md R25, R26, R28 to R30): BUSY and DONE are never both 1, ERR is 1 exactly when
CODE is not NONE, neither ERR nor CODE is set unless a command has completed, and WIGN only after an issue. -/
abbrev Status.legal (st : Status) : Prop :=
  ¬(st.busy = true ∧ st.done = true) ∧ (st.err = true ↔ st.code ≠ .none) ∧ (st.err = true → st.done = true) ∧
    (st.wign = true → st.busy = true ∨ st.done = true)

/-- The latch holds the visible registers (R38). -/
abbrev latchAgrees (s : State) : Prop :=
  s.latch = { cmd := s.cmd, srcAddr := s.srcAddr, srcLen := s.srcLen, dstAddr := s.dstAddr, dstLen := s.dstLen }

/-- The invariant of the machine: the memory is in canonical form on its platform, STATUS is legal, the latch holds the
visible registers while BUSY = 1 (R38), RES_LEN is 0 while a command is in flight and after an error (R24, R263), and only a
command in flight can be hazarded, with HostHazard recorded (R76). -/
def State.Inv (s : State) : Prop :=
  s.platform.wf ∧ Memory.wf s.platform.memSize s.mem ∧ s.status.legal ∧ (s.status.busy = true → latchAgrees s) ∧
    (s.status.busy = true ∨ s.status.err = true → s.resLen = 0) ∧
    (s.raced = true → s.status.busy = true ∧ s.hostHazard = true)

/-- A safe state: the invariant holds and no HostHazard is recorded ("every claim assumes no HostHazard is recorded",
spec/20_memory.md R76). -/
def State.Safe (s : State) : Prop := s.Inv ∧ s.hostHazard = false

/-! ### Commands by kind and word size -/

/-- PACK32 or PACK64. -/
def packInstr : WordSize → Nat → Instr
  | .w32 => .pack32
  | .w64 => .pack64

/-- UNPACK32 or UNPACK64. -/
def unpackInstr : WordSize → Nat → Instr
  | .w32 => .unpack32
  | .w64 => .unpack64

/-- DPACK32 or DPACK64. -/
def dpackInstr : WordSize → Nat → Instr
  | .w32 => .dpack32
  | .w64 => .dpack64

/-- DUNPACK32 or DUNPACK64. -/
def dunpackInstr : WordSize → Nat → Instr
  | .w32 => .dunpack32
  | .w64 => .dunpack64

/-- PACKINTS (`delta` false) or DPACKINTS (`delta` true), 32 or 64. -/
def packIntsInstr : WordSize → Bool → Instr
  | .w32, false => .packints32
  | .w64, false => .packints64
  | .w32, true => .dpackints32
  | .w64, true => .dpackints64

/-- UNPACKINTS32 or UNPACKINTS64. -/
def unpackIntsInstr : WordSize → Instr
  | .w32 => .unpackints32
  | .w64 => .unpackints64

/-- The four delta-kernel commands, the only ones that use the SEED register (spec/10_state.md R34). -/
def usesSeed : Instr → Bool
  | .dpack32 _ => true
  | .dpack64 _ => true
  | .dunpack32 _ => true
  | .dunpack64 _ => true
  | .pack32 _ => false
  | .pack64 _ => false
  | .unpack32 _ => false
  | .unpack64 _ => false
  | .packints32 => false
  | .packints64 => false
  | .dpackints32 => false
  | .dpackints64 => false
  | .unpackints32 => false
  | .unpackints64 => false
  | .serialize => false
  | .deserialize => false

/-! ### What stands in memory -/

/-- Element i of an element array at `base` (spec/30_encoding.md R98). -/
def elemAt (w : WordSize) (m : Memory) (base i : Nat) : Nat := fromLE (m.readBytes (base + i * bytesOf w) (bytesOf w))

/-- Stream bit k of a packed block at `base`: bit k mod 8 of byte k div 8 (R102). -/
def streamBit (m : Memory) (base k : Nat) : Bool := (m.read (base + k / 8)).getLsbD (k % 8)

/-- Element i of a packed block of width `nb` at `base`, by the closed form of R103. -/
def packedElem (m : Memory) (base nb i : Nat) : Nat := fromLE (m.readBytes base (16 * nb)) / 2 ^ (i * nb) % 2 ^ nb

/-- The seed last element, in register terms (R101): SEED_HI[63:32] for w = 32, SEED_HI for w = 64. -/
def lastOf (w : WordSize) (s : State) : Nat :=
  match w with
  | .w32 => (s.seedHi.extractLsb' 32 32).toNat
  | .w64 => s.seedHi.toNat

/-- The value before element i: the seed last element for i = 0 (spec/40_kernels.md R145). -/
def previous (last : Nat) (K : Nat → Nat) (i : Nat) : Nat := if i = 0 then last else K (i - 1)

/-- Delta i of the values K from `last`: K[i] minus the value before it, mod 2^w (R145). -/
def deltaAt (w : WordSize) (last : Nat) (K : Nat → Nat) (i : Nat) : Nat :=
  (((K i : Int) - previous last K i) % (2 ^ bitsOf w : Nat)).toNat

/-- SEED_LO after a delta kernel on the raw values K (R152, R153). -/
def newSeedLo (w : WordSize) (K : Nat → Nat) : Word :=
  match w with
  | .w32 => BitVec.ofNat 64 (K 124 + 2 ^ 32 * K 125)
  | .w64 => BitVec.ofNat 64 (K 126)

/-- SEED_HI after a delta kernel on the raw values K (R152, R153). -/
def newSeedHi (w : WordSize) (K : Nat → Nat) : Word :=
  match w with
  | .w32 => BitVec.ofNat 64 (K 126 + 2 ^ 32 * K 127)
  | .w64 => BitVec.ofNat 64 (K 127)

/-- The u32 at offset `p` of a byte list is `v`, least significant byte first (spec/20_memory.md R61). -/
abbrev u32At (L : List Byte) (p v : Nat) : Prop := ∀ k, k < 4 → (L.getD (p + k) 0).toNat = v / 256 ^ k % 256

/-- Where the bytes of block b stand in an image: `off_b = P0 + 16·Σ_{j<b} nb_j` (spec/30_encoding.md R112, R113), from
the number of blocks and the widths. -/
def imageBlockOffset (count : Nat) (widths : List Nat) (b : Nat) : Nat :=
  16 + 16 * ((count + 15) / 16) + 16 * (widths.take b).sum

/-- Where the record of block b stands in the wire bytes: the first at 10, each 5 + 16·nb bytes long (R120). -/
def wireRecordOffset (widths : List Nat) (b : Nat) : Nat := 10 + ((widths.take b).map fun nb => 5 + 16 * nb).sum

/-- Every byte outside [base, base + n) reads as before. -/
abbrev unchangedOutside (m m' : Memory) (base n : Nat) : Prop := ∀ a, a < base ∨ base + n ≤ a → m'.read a = m.read a

/-- Checks 3 to 5 of R261 pass: both bases are multiples of 16, both windows lie inside memory, and they share no address
unless one is empty. -/
abbrev windowsOk (s : State) : Prop :=
  (srcBase s % 16 = 0 ∧ dstBase s % 16 = 0) ∧
    (srcBase s + srcSize s ≤ s.platform.memSize ∧ dstBase s + dstSize s ≤ s.platform.memSize) ∧
    (srcSize s = 0 ∨ dstSize s = 0 ∨ srcBase s + srcSize s ≤ dstBase s ∨ dstBase s + dstSize s ≤ srcBase s)

/-- STATUS of a command that completed with the code `c` (R73, R263, R264): BUSY = 0, DONE = 1, WIGN as it was. -/
def completedStatus (s : State) (c : ErrorCode) : Status :=
  { busy := false, done := true, err := decide (c ≠ .none), wign := s.status.wign, code := c }

/-- The command, with no hazard in flight, completes from `s` in `t` with no error. -/
abbrev succeeds (i : Instr) (s t : State) : Prop := s.raced = false ∧ exec i s = .next t ∧ t.status.err = false

/-- The source window of `u` holds exactly the output of the command that took `s` to `t`. -/
abbrev readsOutputOf (u s t : State) : Prop :=
  srcSize u = t.resLen.toNat ∧ u.mem.readBytes (srcBase u) (srcSize u) = t.mem.readBytes (dstBase s) t.resLen.toNat

/-- An element array read at `base` (R98): its first `n` elements. -/
def arrayAt (w : WordSize) (m : Memory) (base n : Nat) : List Nat := (List.range n).map (elemAt w m base)

/-- The state that a run has reached, for a run that neither faults nor is refused. -/
abbrev reaches (s : State) (k : Nat) (t : State) : Prop := Host.Core.run core k s = .next t

/-! ### The checks of R261 as a list -/

/-- The code of the first failing check, NONE if none fails (R262). -/
def firstFailing : List (Bool × ErrorCode) → ErrorCode
  | [] => .none
  | (fails, c) :: rest => if fails then c else firstFailing rest

/-- Checks 3 to 5 (R261). -/
def windowChecks (s : State) : List (Bool × ErrorCode) :=
  [ (decide (srcBase s % 16 ≠ 0 ∨ dstBase s % 16 ≠ 0), .misalignedBuffer),
    (decide (srcBase s + srcSize s > s.platform.memSize ∨ dstBase s + dstSize s > s.platform.memSize), .addressRange),
    (decide (srcSize s ≠ 0 ∧ dstSize s ≠ 0 ∧ srcBase s < dstBase s + dstSize s ∧ dstBase s < srcBase s + srcSize s),
      .bufferOverlap) ]

/-- The checks of a kernel command (R261): InvalidWidth, the windows, the source length, the result length. -/
def kernelCheckList (w : WordSize) (nb srcNeed dstNeed : Nat) (s : State) : List (Bool × ErrorCode) :=
  (decide (nb > bitsOf w), .invalidWidth) :: windowChecks s ++
    [(decide (srcSize s < srcNeed), .bufferTooSmall), (decide (dstSize s < dstNeed), .bufferTooSmall)]

/-- The bytes of the whole source window, as the command reads them. -/
def windowBytes (s : State) : List Byte := coreRead s (srcSize s)

/-- The elements that PACKINTS and DPACKINTS read (spec/41_block_encoder.md R185). -/
def windowElements (w : WordSize) (s : State) : List Nat := elements (bytesOf w) (srcSize s / bytesOf w) (windowBytes s)

/-- The checks of PACKINTS and DPACKINTS (R261). -/
def packIntsCheckList (w : WordSize) (delta : Bool) (s : State) : List (Bool × ErrorCode) :=
  windowChecks s ++
    [(decide (srcSize s % bytesOf w ≠ 0 ∨ srcSize s / bytesOf w > 2 ^ 32 - 1), .invalidInput),
      (decide (dstSize s < imageSize (encodeFn w (windowElements w s) delta)), .bufferTooSmall)]

/-- The container in the source window fails its checks, or its result length is over the destination (R261, checks 6a
and 7), with the check 6b between them where there is one. -/
def containerCheckList (decoded : Except ErrorCode Container) (malformed : ErrorCode)
    (wrongWord : Container → Bool) (resultLen : Container → Nat) (s : State) : List (Bool × ErrorCode) :=
  match decoded with
  | .error _ => windowChecks s ++ [(true, malformed)]
  | .ok C => windowChecks s ++ [(wrongWord C, .wordSizeMismatch), (decide (dstSize s < resultLen C), .bufferTooSmall)]

/-- Checks 2 to 7 of a command, in the order of R261, with the result lengths R that R261 lists. -/
def checkList (i : Instr) (s : State) : List (Bool × ErrorCode) :=
  match i with
  | .pack32 nb => kernelCheckList .w32 nb 512 (16 * nb) s
  | .pack64 nb => kernelCheckList .w64 nb 1024 (16 * nb) s
  | .unpack32 nb => kernelCheckList .w32 nb (16 * nb) 512 s
  | .unpack64 nb => kernelCheckList .w64 nb (16 * nb) 1024 s
  | .dpack32 nb => kernelCheckList .w32 nb 512 (16 * nb) s
  | .dpack64 nb => kernelCheckList .w64 nb 1024 (16 * nb) s
  | .dunpack32 nb => kernelCheckList .w32 nb (16 * nb) 512 s
  | .dunpack64 nb => kernelCheckList .w64 nb (16 * nb) 1024 s
  | .packints32 => packIntsCheckList .w32 false s
  | .packints64 => packIntsCheckList .w64 false s
  | .dpackints32 => packIntsCheckList .w32 true s
  | .dpackints64 => packIntsCheckList .w64 true s
  | .unpackints32 =>
    containerCheckList (imageDecode (windowBytes s)) .malformedContainer (fun C => decide (C.word ≠ .w32)) (fun C => 4 * C.count) s
  | .unpackints64 =>
    containerCheckList (imageDecode (windowBytes s)) .malformedContainer (fun C => decide (C.word ≠ .w64)) (fun C => 8 * C.count) s
  | .serialize => containerCheckList (imageDecode (windowBytes s)) .malformedContainer (fun _ => false) wireSize s
  | .deserialize => containerCheckList (wireDecode (windowBytes s)) .corruptData (fun _ => false) imageSize s

/-- All the checks of the command in flight: check 1, then those of the command that its word decodes to (R261). -/
def allChecks (s : State) : List (Bool × ErrorCode) :=
  match decode s.latch.cmd with
  | .error _ => [(true, .illegalCommand)]
  | .ok i => (false, .illegalCommand) :: checkList i s

end Sys2Proof.Machine
end

