-- ==== Sys2Proof/Certificates/Slice0/Obligations.lean ====
section
/-! DEFINITION. The statements about the BP128 core, each with the rule of spec/ that it formalises. -/

open Sys2Proof Sys2Proof.Machine

/-! ### Command words -/

/-- Decode and encode agree: every command that can be written is read back, whatever its bit width (R91 to R93, R96). -/
def Obligations.DecodeOfEncode : Prop := ∀ i : Instr, i.WellFormed → decode (encode i) = .ok i

/-- Each command word stands for one command: what decodes is the encoding of what it decodes to (R93, R95). -/
def Obligations.EncodeOfDecode : Prop := ∀ (c : Word) (i : Instr), decode c = .ok i → i.WellFormed ∧ encode i = c

/-- R94: a word matches no row exactly when one of the listed conditions holds, and it then ends with IllegalCommand. -/
def Obligations.UnmatchedWordsRaiseIllegalCommand : Prop :=
  (∀ c : Word, (∃ e, decode c = .error e) ↔
    (c.extractLsb' 32 32 ≠ 0 ∨
      (c.extractLsb' 0 8).toNat ∉ [0x01, 0x02, 0x03, 0x04, 0x10, 0x11, 0x12, 0x20, 0x21] ∨
      (c.extractLsb' 9 7 ≠ 0 ∨ c.extractLsb' 23 9 ≠ 0) ∨
      (c.extractLsb' 16 7 ≠ 0 ∧ (c.extractLsb' 0 8).toNat ∉ [0x01, 0x02, 0x03, 0x04]) ∨
      (c.getLsbD 8 = true ∧ (c.extractLsb' 0 8).toNat ∈ [0x20, 0x21]))) ∧
  (∃ e, decode 0 = .error e) ∧
  ∀ s : State, (∃ e, decode s.latch.cmd = .error e) →
    ∃ t, completion s = .next t ∧ t.status = completedStatus s .illegalCommand ∧ t.resLen = 0 ∧ t.mem = s.mem

/-- Words written out from the fields of R91 and the rows of R93 (sanity). -/
def Obligations.SampleWordsDecode : Prop :=
  decode 0x0000000000040001 = .ok (.pack32 4) ∧ decode 0x0000000000210101 = .ok (.pack64 33) ∧
    decode 0x0000000000010002 = .ok (.unpack32 1) ∧ decode 0x0000000000400104 = .ok (.dunpack64 64) ∧
    decode 0x0000000000010003 = .ok (.dpack32 1) ∧ decode 0x0000000000000111 = .ok .dpackints64 ∧
    decode 0x0000000000000012 = .ok .unpackints32 ∧ decode 0x0000000000000020 = .ok .serialize ∧
    decode 0x0000000000000021 = .ok .deserialize ∧ decode 0x0000000000000000 = .error .unknownOpcode

/-! ### Steps -/

/-- R73: while BUSY = 1 the core's step performs the latched command. When that is (at the core's turn, or when no
event is left) is the model's choice (log entry 3). -/
def Obligations.StepRunsLatchedCommand : Prop :=
  ∀ (s : State) (i : Instr), s.status.busy = true → decode s.latch.cmd = .ok i →
    (s.inputs = [] → step s = exec i s) ∧
      ∀ rest, s.inputs = .coreTurn :: rest → step s = exec i { s with inputs := rest }

/-- A command word issued by the machine's own issue (R24) is the command that the very next step runs; that the core's
turn comes next is the model's choice (log entry 3). -/
def Obligations.IssuedWordRunsNext : Prop :=
  ∀ (i : Instr) (s : State), i.WellFormed → step (s.withFetchWord 64 (encode i).toNat) = exec i (issue (encode i) s)

/-- R276: a core with nothing in flight "is idle and does nothing until the next issue"; a step with no event left
is the core's turn (log entry 3). -/
def Obligations.IdleCoreDoesNothing : Prop :=
  ∀ s : State, s.status.busy = false → coreTurn s = .next s ∧ (s.inputs = [] → step s = .next s)

/-- Every command, from every state, ends its completion step with BUSY = 0 and DONE = 1: nothing stops the core (R73,
R263, R264). -/
def Obligations.EveryCommandCompletes : Prop :=
  ∀ (i : Instr) (s : State), ∃ t, exec i s = .next t ∧ t.status.busy = false ∧ t.status.done = true ∧
    t.status.wign = s.status.wign

/-- R303: a command in flight is completed after finitely many events, unless a host access that does not exist stops the
run. That the core takes its turn when no event is left is the model's form of weak fairness (log entry 3). -/
def Obligations.CommandInFlightEnds : Prop :=
  ∀ s : State, s.status.busy = true → ∃ k ≤ s.inputs.length + 1,
    (∃ t, reaches s k t ∧ t.status.busy = false) ∨
      (∃ f, Host.Core.run core k s = .fault f) ∨ (∃ r, Host.Core.run core k s = .refused r)

/-- Program P5 and R37: a write to SRC_LEN that races with the completion has both outcomes. Before the completion it is
ignored and sets WIGN, after it the write takes effect; the command runs on the window latched at issue either way. The order of the
events is a list in the state (log entry 3). -/
def Obligations.RacingWriteHasBothOutcomes : Prop :=
  ∀ (s : State) (c v : Word), s.status.busy = false →
    (∃ t, reaches { s with inputs := [.regWrite (s.platform.regBase + 8) 8 c, .regWrite (s.platform.regBase + 32) 8 v, .coreTurn] } 3 t ∧
      t.srcLen = s.srcLen ∧ t.status.wign = true ∧ t.status.done = true) ∧
    (∃ t, reaches { s with inputs := [.regWrite (s.platform.regBase + 8) 8 c, .coreTurn, .regWrite (s.platform.regBase + 32) 8 v] } 3 t ∧
      t.srcLen = v ∧ t.status.wign = false ∧ t.status.done = true)

/-- R74, R75: the command sees the host's writes before the CMD write, and once the host has read BUSY = 0 and DONE = 1, a
later host read sees the command's writes. The five events happen one at a time (R269), in the order of the model's list
(log entry 3); what the host reads is in `observed` (log entry 4), and each access to memory is one event, whatever its
length (log entry 13). -/
def Obligations.HostAndCoreAreOrdered : Prop :=
  ∀ (s : State) (c : Word) (a b n : Nat) (bs : List Byte), s.status.busy = false → a + bs.length ≤ s.platform.memSize →
    b + n ≤ s.platform.memSize →
    ∃ t u, completion { issue c { s with mem := s.mem.write a bs } with
        inputs := [.regRead (s.platform.regBase + 16) 8, .memRead b n] } = .next t ∧
      t.status.busy = false ∧ t.status.done = true ∧
      reaches { s with inputs := [.memWrite a bs, .regWrite (s.platform.regBase + 8) 8 c, .coreTurn,
        .regRead (s.platform.regBase + 16) 8, .memRead b n] } 5 u ∧
      u.observed = .mem b (t.mem.readBytes b n) :: .reg (s.platform.regBase + 16) t.status.toWord :: s.observed ∧
      u.mem = t.mem

/-! ### The register block -/

/-- R23: ID holds its constant at all times, and host writes to it are ignored. -/
def Obligations.IdIsConstant : Prop :=
  ∀ s : State, (readReg s 0 = 0x0000000132315042#64 ∧ (readReg s 0).extractLsb' 0 32 = 0x32315042#32 ∧
    (readReg s 0).extractLsb' 32 8 = 0x01#8 ∧ (readReg s 0).extractLsb' 40 24 = 0#24) ∧ ∀ v, writeReg 0 v s = s

/-- R25: the fields of the STATUS value that the host reads, and its reserved bits; R260: the number of every error code. -/
def Obligations.StatusFieldsLayout : Prop :=
  ∀ s : State, (readReg s 2).getLsbD 0 = s.status.busy ∧ (readReg s 2).getLsbD 1 = s.status.done ∧
    (readReg s 2).getLsbD 2 = s.status.err ∧ (readReg s 2).getLsbD 3 = s.status.wign ∧
    (readReg s 2).extractLsb' 4 4 = 0 ∧ (readReg s 2).extractLsb' 8 8 =
      (match s.status.code with
      | .none => 0#8
      | .invalidWidth => 1#8
      | .bufferTooSmall => 2#8
      | .corruptData => 3#8
      | .wordSizeMismatch => 4#8
      | .invalidInput => 5#8
      | .illegalCommand => 6#8
      | .misalignedBuffer => 7#8
      | .malformedContainer => 8#8
      | .bufferOverlap => 9#8
      | .addressRange => 10#8) ∧
    (readReg s 2).extractLsb' 16 48 = 0

/-- R24: what a host write to CMD does, for every value, idle and busy, and what a read of CMD returns. That the new command
carries no hazard mark (`raced`) is the model's (log entry 6). -/
def Obligations.CmdWriteIssues : Prop :=
  (∀ (s : State) (c : Word), s.status.busy = false →
    ∃ t, writeReg 1 c s = t ∧ t = { s with
      cmd := c
      status := { busy := true, done := false, err := false, wign := false, code := .none }
      resLen := 0
      latch := { cmd := c, srcAddr := s.srcAddr, srcLen := s.srcLen, dstAddr := s.dstAddr, dstLen := s.dstLen }
      raced := false } ∧ readReg t 1 = c) ∧
  (∀ (s : State) (c : Word), s.status.busy = true → writeReg 1 c s = { s with status := { s.status with wign := true } }) ∧
  readReg State.reset 1 = 0

/-- R37: a host write to CMD, SRC_ADDR, SRC_LEN, DST_ADDR, DST_LEN, SEED_LO or SEED_HI while BUSY = 1 is ignored and sets
WIGN, and nothing else; a read returns the register's current value. -/
def Obligations.BusyWritesAreIgnored : Prop :=
  ∀ (s : State) (i : Nat) (v : Word), s.status.busy = true → i ∈ [1, 3, 4, 5, 6, 8, 9] →
    writeReg i v s = { s with status := { s.status with wign := true } } ∧
      ∀ j, j ≠ 2 → readReg (writeReg i v s) j = readReg s j

/-- R36, R35: writes to ID, STATUS, RES_LEN and the reserved registers change nothing, in every state. -/
def Obligations.ReadOnlyWritesChangeNothing : Prop :=
  ∀ (s : State) (i : Nat) (v : Word), (i ∈ [0, 2, 7] ∨ 10 ≤ i) → writeReg i v s = s ∧ (10 ≤ i → readReg s i = 0)

/-- R31, R32, R34: an idle write to an argument or seed register is read back, and no other register changes. -/
def Obligations.ArgumentRegistersHoldLastWrite : Prop :=
  ∀ (s : State) (i : Nat) (v : Word), s.status.busy = false → i ∈ [3, 4, 5, 6, 8, 9] →
    readReg (writeReg i v s) i = v ∧ (∀ j, j ≠ i → readReg (writeReg i v s) j = readReg s j) ∧
      (writeReg i v s).mem = s.mem ∧ (writeReg i v s).latch = s.latch ∧ (writeReg i v s).status = s.status

/-- R81, R35, I17: an access that is not an aligned 64-bit access inside the block is refused; one that is, is answered, a
read with the register's value and no other effect (R27). -/
def Obligations.RegisterAccessRules : Prop :=
  ∀ (s : State) (addr size : Nat) (v : Word),
    (¬(size = 8 ∧ s.platform.regBase ≤ addr ∧ addr < s.platform.regBase + 256 ∧ (addr - s.platform.regBase) % 8 = 0) →
      handle (.regRead addr size) s = .refused (.badRegisterAccess addr size) ∧
        handle (.regWrite addr size v) s = .refused (.badRegisterAccess addr size)) ∧
    (∀ i, i < 32 → handle (.regRead (s.platform.regBase + 8 * i) 8) s =
        .next { s with observed := .reg (s.platform.regBase + 8 * i) (readReg s i) :: s.observed } ∧
      handle (.regWrite (s.platform.regBase + 8 * i) 8 v) s = .next (writeReg i v s))

/-- R26, R37, R38: while a command is in flight, nothing that the host does changes CMD, the argument registers, the seed,
RES_LEN or the latch, and STATUS but for WIGN. -/
def Obligations.InFlightOperandsAreFrozen : Prop :=
  ∀ (e : Event) (s t : State), s.status.busy = true → e ≠ .coreTurn → e ≠ .reset → handle e s = .next t →
    t = { s with
      status := { s.status with wign := t.status.wign }
      mem := t.mem
      hostHazard := t.hostHazard
      raced := t.raced
      observed := t.observed
      draws := t.draws } ∧
    (s.status.wign = true → t.status.wign = true)

/-! ### Reset -/

/-- R290, R292: what the reset event leaves, from every state: the registers' reset values, no command in flight (the latch
is discarded: the core's turn does nothing), and every byte of memory outside an abandoned command's destination window. That
the platform, the event list, the record of reads and HostHazard stay is the model's (log entries 1, 3, 4 and 6). -/
def Obligations.ResetEventEffects : Prop :=
  ∀ s : State, ∃ t, handle .reset s = .next t ∧
    (readReg t 0 = 0x0000000132315042#64 ∧ ∀ i, i ≠ 0 → readReg t i = 0) ∧
    t.status = { busy := false, done := false, err := false, wign := false, code := .none } ∧
    (∀ w j, j < lanesOf w → seedLane w t j = 0) ∧
    coreTurn t = .next t ∧
    (s.status.busy = false → t.mem = s.mem) ∧
    (∀ a, ¬(s.status.busy = true ∧ inDestination s a) → t.mem.read a = s.mem.read a) ∧
    t.platform = s.platform ∧ t.inputs = s.inputs ∧ t.observed = s.observed ∧ t.hostHazard = s.hostHazard

/-- R291: a reset in flight abandons the command; its destination window then holds any value, and every byte outside it
keeps its value. The free value of each byte, and that only the bytes below MEM_SIZE take one, are the model's (log entries
2 and 11). -/
def Obligations.ResetInFlightAbandonsCommand : Prop :=
  ∀ s t : State, s.status.busy = true → handle .reset s = .next t →
    coreTurn t = .next t ∧
    (∀ a, inDestination s a → a < s.platform.memSize → t.mem.read a = Config.freeByte s.draws a) ∧
    (∀ a, ¬inDestination s a → t.mem.read a = s.mem.read a)

/-- The state after reset (R22, R293): every register reads its reset value. -/
def Obligations.ResetStateValues : Prop :=
  readReg State.reset 0 = 0x0000000132315042#64 ∧ ∀ i, i ≠ 0 → readReg State.reset i = 0

/-! ### The kernel commands -/

/-- PACK32 and PACK64 (R148, R149, R102, R103, R142): on operands that pass the checks, bit j of element i of the source
becomes stream bit i·nb + j at the destination, 16·nb bytes are written and no other, and no other state changes but STATUS and
RES_LEN. Bits from nb up are dropped. -/
def Obligations.PackResult : Prop :=
  ∀ (w : WordSize) (nb : Nat) (s : State), s.raced = false → nb ≤ bitsOf w → windowsOk s →
    blockBytes w ≤ srcSize s → 16 * nb ≤ dstSize s →
    ∃ m, exec (packInstr w nb) s =
        .next { s with mem := m, status := completedStatus s .none, resLen := BitVec.ofNat 64 (16 * nb) } ∧
      (∀ i j, i < 128 → j < nb →
        streamBit m (dstBase s) (i * nb + j) = (elemAt w s.mem (srcBase s) i).testBit j) ∧
      unchangedOutside s.mem m (dstBase s) (16 * nb)

/-- UNPACK32 and UNPACK64 (R150, R151, R143): element i of the destination is below 2^nb and has the stream bits i·nb to
i·nb + nb − 1 of the source; 128 elements are written and no other byte. -/
def Obligations.UnpackResult : Prop :=
  ∀ (w : WordSize) (nb : Nat) (s : State), s.raced = false → nb ≤ bitsOf w → windowsOk s →
    16 * nb ≤ srcSize s → blockBytes w ≤ dstSize s →
    ∃ m, exec (unpackInstr w nb) s =
        .next { s with mem := m, status := completedStatus s .none, resLen := BitVec.ofNat 64 (blockBytes w) } ∧
      (∀ i, i < 128 → elemAt w m (dstBase s) i < 2 ^ nb ∧ ∀ j, j < nb →
        (elemAt w m (dstBase s) i).testBit j = streamBit s.mem (srcBase s) (i * nb + j)) ∧
      unchangedOutside s.mem m (dstBase s) (blockBytes w)

/-- DPACK32 and DPACK64 (R152, R153, R145, R147): the deltas from the seed last element are packed, low nb bits of each, and
the seed becomes the last raw values, in every lane. -/
def Obligations.DpackResult : Prop :=
  ∀ (w : WordSize) (nb : Nat) (s : State), s.raced = false → nb ≤ bitsOf w → windowsOk s →
    blockBytes w ≤ srcSize s → 16 * nb ≤ dstSize s →
    ∃ m, exec (dpackInstr w nb) s =
        .next { s with
          mem := m
          seedLo := newSeedLo w (elemAt w s.mem (srcBase s))
          seedHi := newSeedHi w (elemAt w s.mem (srcBase s))
          status := completedStatus s .none
          resLen := BitVec.ofNat 64 (16 * nb) } ∧
      (∀ i j, i < 128 → j < nb → streamBit m (dstBase s) (i * nb + j) =
        (deltaAt w (lastOf w s) (elemAt w s.mem (srcBase s)) i).testBit j) ∧
      unchangedOutside s.mem m (dstBase s) (16 * nb)

/-- DUNPACK32 and DUNPACK64 (R154, R155, R146, R147): element i of the destination is the one before it plus the packed
delta i, mod 2^w, the first from the seed last element, and the seed becomes the last raw values. -/
def Obligations.DunpackResult : Prop :=
  ∀ (w : WordSize) (nb : Nat) (s : State), s.raced = false → nb ≤ bitsOf w → windowsOk s →
    16 * nb ≤ srcSize s → blockBytes w ≤ dstSize s →
    ∃ m, exec (dunpackInstr w nb) s =
        .next { s with
          mem := m
          seedLo := newSeedLo w (elemAt w m (dstBase s))
          seedHi := newSeedHi w (elemAt w m (dstBase s))
          status := completedStatus s .none
          resLen := BitVec.ofNat 64 (blockBytes w) } ∧
      (∀ i, i < 128 → elemAt w m (dstBase s) i =
        (previous (lastOf w s) (elemAt w m (dstBase s)) i + packedElem s.mem (srcBase s) nb i) % 2 ^ bitsOf w) ∧
      unchangedOutside s.mem m (dstBase s) (blockBytes w)

/-- R157: at nb = w a packed block is the element array itself, so PACK and UNPACK copy their block unchanged. -/
def Obligations.FullWidthIsCopy : Prop :=
  (∀ (w : WordSize) (V : List Nat), V.length = 128 → (∀ v ∈ V, v < 2 ^ bitsOf w) →
    packBits (bitsOf w) V = elementBytes (bytesOf w) V ∧ unpackBits (bitsOf w) (elementBytes (bytesOf w) V) = V) ∧
  ∀ (w : WordSize) (i : Instr) (s t : State), i = packInstr w (bitsOf w) ∨ i = unpackInstr w (bitsOf w) → succeeds i s t →
    t.resLen = BitVec.ofNat 64 (blockBytes w) ∧
      t.mem.readBytes (dstBase s) (blockBytes w) = s.mem.readBytes (srcBase s) (blockBytes w)

/-- R156: at nb = 0, PACK and DPACK write no byte, UNPACK writes 128 zeros, and DUNPACK writes 128 copies of the seed last
element and sets every seed lane to it; the deltas of a block are all 0 exactly when every value equals the seed last
element. -/
def Obligations.ZeroWidthConvention : Prop :=
  ∀ (w : WordSize) (s t : State),
    (succeeds (packInstr w 0) s t → t.resLen = 0 ∧ ∀ a, t.mem.read a = s.mem.read a) ∧
    (succeeds (dpackInstr w 0) s t → t.resLen = 0 ∧ ∀ a, t.mem.read a = s.mem.read a) ∧
    (succeeds (unpackInstr w 0) s t → ∀ i, i < 128 → elemAt w t.mem (dstBase s) i = 0) ∧
    (succeeds (dunpackInstr w 0) s t → (∀ i, i < 128 → elemAt w t.mem (dstBase s) i = lastOf w s) ∧
      ∀ j, j < lanesOf w → seedLane w t j = lastOf w s) ∧
    (∀ K : Nat → Nat, (∀ i, i < 128 → K i < 2 ^ bitsOf w) →
      ((∀ i, i < 128 → deltaAt w (lastOf w s) K i = 0) ↔ ∀ i, i < 128 → K i = lastOf w s))

/-- R144: packing and unpacking a block returns each value mod 2^nb, and the block itself where its values fit. -/
def Obligations.PackUnpackRoundTrip : Prop :=
  ∀ (w : WordSize) (nb : Nat) (V : List Nat), nb ≤ bitsOf w → V.length = 128 → (∀ v ∈ V, v < 2 ^ bitsOf w) →
    ((∀ v ∈ V, v < 2 ^ nb) → unpackBits nb (packBits nb V) = V) ∧
      ∀ i, i < 128 → (unpackBits nb (packBits nb V)).getD i 0 = V.getD i 0 % 2 ^ nb

/-- R159: DUNPACK of what DPACK wrote, from the seed last element that DPACK started from, writes the raw values back and
leaves the seed that DPACK left, where nb covers every delta. -/
def Obligations.DpackDunpackStayInStep : Prop :=
  ∀ (w : WordSize) (nb : Nat) (s t u v : State), succeeds (dpackInstr w nb) s t →
    (∀ i, i < 128 → deltaAt w (lastOf w s) (elemAt w s.mem (srcBase s)) i < 2 ^ nb) →
    lastOf w u = lastOf w s →
    u.mem.readBytes (srcBase u) (16 * nb) = t.mem.readBytes (dstBase s) (16 * nb) →
    succeeds (dunpackInstr w nb) u v →
    (∀ i, i < 128 → elemAt w v.mem (dstBase u) i = elemAt w s.mem (srcBase s) i) ∧
      v.seedLo = t.seedLo ∧ v.seedHi = t.seedHi

/-- R158: two blocks, each packed at a width that covers its deltas, the second from the seed that the first left: the
second's bytes are those of DPACK from seedOf of the first block (whatever else a state `x` holds), and DUNPACK of both, in
order, from the first seed, writes both blocks back. -/
def Obligations.SeedContinuation : Prop :=
  ∀ (w : WordSize) (n₁ n₂ : Nat) (s₁ t₁ s₂ t₂ : State),
    succeeds (dpackInstr w n₁) s₁ t₁ → succeeds (dpackInstr w n₂) s₂ t₂ →
    s₂.seedLo = t₁.seedLo → s₂.seedHi = t₁.seedHi →
    (∀ x y : State, succeeds (dpackInstr w n₂) x y →
      x.seedLo = newSeedLo w (elemAt w s₁.mem (srcBase s₁)) → x.seedHi = newSeedHi w (elemAt w s₁.mem (srcBase s₁)) →
      (∀ i, i < 128 → elemAt w x.mem (srcBase x) i = elemAt w s₂.mem (srcBase s₂) i) →
      y.mem.readBytes (dstBase x) (16 * n₂) = t₂.mem.readBytes (dstBase s₂) (16 * n₂)) ∧
    ((∀ i, i < 128 → deltaAt w (lastOf w s₁) (elemAt w s₁.mem (srcBase s₁)) i < 2 ^ n₁) →
      (∀ i, i < 128 → deltaAt w (lastOf w s₂) (elemAt w s₂.mem (srcBase s₂)) i < 2 ^ n₂) →
      ∀ u₁ v₁ u₂ v₂ : State, succeeds (dunpackInstr w n₁) u₁ v₁ → succeeds (dunpackInstr w n₂) u₂ v₂ →
        lastOf w u₁ = lastOf w s₁ → u₂.seedLo = v₁.seedLo → u₂.seedHi = v₁.seedHi →
        u₁.mem.readBytes (srcBase u₁) (16 * n₁) = t₁.mem.readBytes (dstBase s₁) (16 * n₁) →
        u₂.mem.readBytes (srcBase u₂) (16 * n₂) = t₂.mem.readBytes (dstBase s₂) (16 * n₂) →
        ∀ i, i < 128 → elemAt w v₁.mem (dstBase u₁) i = elemAt w s₁.mem (srcBase s₁) i ∧
          elemAt w v₂.mem (dstBase u₂) i = elemAt w s₂.mem (srcBase s₂) i)

/-- R101: of the old seed only the seed last element has an effect on a delta kernel (with no hazard in flight: two runs of
a hazarded command need not agree, log entries 2 and 6). -/
def Obligations.OtherSeedLanesHaveNoEffect : Prop :=
  ∀ (w : WordSize) (nb : Nat) (i : Instr) (s t : State) (lo hi : Word), s.raced = false →
    i = dpackInstr w nb ∨ i = dunpackInstr w nb →
    lastOf w { s with seedLo := lo, seedHi := hi } = lastOf w s → exec i s = .next t → t.status.err = false →
    exec i { s with seedLo := lo, seedHi := hi } = .next t

/-! ### The block encoder and decoder -/

/-- PACKINTS32/64 and DPACKINTS32/64 (R190 to R193): on operands that pass the checks, the container image of the source
elements is written, S(C) bytes and no other. -/
def Obligations.PackIntsResult : Prop :=
  ∀ (w : WordSize) (delta : Bool) (s : State) (n : Nat) (C : Container), s.raced = false → windowsOk s →
    srcSize s = n * bytesOf w → n ≤ 2 ^ 32 - 1 →
    C = encodeFn w (arrayAt w s.mem (srcBase s) n) delta → imageSize C ≤ dstSize s →
    ∃ m, exec (packIntsInstr w delta) s =
        .next { s with mem := m, status := completedStatus s .none, resLen := BitVec.ofNat 64 (imageSize C) } ∧
      m.readBytes (dstBase s) (imageSize C) = imageEncode C ∧
      unchangedOutside s.mem m (dstBase s) (imageSize C)

/-- UNPACKINTS32 and UNPACKINTS64 (R194, R195): on an image of the command's word size, the container's elements are
written, count of them and no other byte. Whatever encoder the container came from (R224), element i is element i mod 128
of packed block i div 128 (R143) in plain mode, and in delta mode that packed delta plus the element before it mod 2^w: the
last raw value of the block before at the head of a block, 0 before the first (R146, R187). -/
def Obligations.UnpackIntsResult : Prop :=
  ∀ (w : WordSize) (s : State) (C : Container), s.raced = false → windowsOk s →
    imageDecode (s.mem.readBytes (srcBase s) (srcSize s)) = .ok C → C.word = w → bytesOf w * C.count ≤ dstSize s →
    ∃ m, exec (unpackIntsInstr w) s =
        .next { s with mem := m, status := completedStatus s .none, resLen := BitVec.ofNat 64 (bytesOf w * C.count) } ∧
      arrayAt w m (dstBase s) C.count = decodeFn C ∧
      (∀ i, i < C.count → ∃ nb P, C.blocks[i / 128]? = some (nb, P) ∧
        elemAt w m (dstBase s) i =
          if C.delta then
            (previous 0 (elemAt w m (dstBase s)) i + fromLE P / 2 ^ (i % 128 * nb) % 2 ^ nb) % 2 ^ bitsOf w
          else fromLE P / 2 ^ (i % 128 * nb) % 2 ^ nb) ∧
      unchangedOutside s.mem m (dstBase s) (bytesOf w * C.count)

/-- R182 to R188: block b of an encoded sequence holds, in plain mode, the elements of group b and zeros after them; in
delta mode the deltas of group b, its last element repeated, from the element before the group (0 before the first); its
width is the least that holds them all (R180, R181). -/
def Obligations.EncodedBlocksHoldTheirGroups : Prop :=
  ∀ (w : WordSize) (X : List Nat) (delta : Bool) (b : Nat), X.length ≤ 2 ^ 32 - 1 → (∀ x ∈ X, x < 2 ^ bitsOf w) →
    b < blockCount X.length →
    ∃ nb P, (encodeFn w X delta).blocks[b]? = some (nb, P) ∧
      (∀ i, i < 128 → (unpackBits nb P).getD i 0 =
        if delta then
          deltaAt w (if b = 0 then 0 else X.getD (128 * b - 1) 0) (fun k => X.getD (min (128 * b + k) (X.length - 1)) 0) i
        else X.getD (128 * b + i) 0) ∧
      ∀ nb', (∀ i, i < 128 → (unpackBits nb P).getD i 0 < 2 ^ nb') → nb ≤ nb'

/-- R186: the result of encodeFn is a valid container with the sequence's count, word size and mode. -/
def Obligations.EncodedContainerIsValid : Prop :=
  ∀ (w : WordSize) (X : List Nat) (delta : Bool), X.length ≤ 2 ^ 32 - 1 → (∀ x ∈ X, x < 2 ^ bitsOf w) →
    (encodeFn w X delta).valid ∧ (encodeFn w X delta).count = X.length ∧ (encodeFn w X delta).word = w ∧
      (encodeFn w X delta).delta = delta

/-- R196: decoding an encoded sequence gives it back, for both word sizes and both modes, monotonic or not; and as
commands, PACKINTS or DPACKINTS, then UNPACKINTS of the same word size on its output, writes the source bytes back. -/
def Obligations.EncodedSequenceDecodesBack : Prop :=
  (∀ (w : WordSize) (X : List Nat) (delta : Bool), X.length ≤ 2 ^ 32 - 1 → (∀ x ∈ X, x < 2 ^ bitsOf w) →
    decodeFn (encodeFn w X delta) = X) ∧
  ∀ (w : WordSize) (delta : Bool) (s t u v : State), succeeds (packIntsInstr w delta) s t → readsOutputOf u s t →
    succeeds (unpackIntsInstr w) u v →
    v.resLen = s.latch.srcLen ∧ v.mem.readBytes (dstBase u) (srcSize s) = s.mem.readBytes (srcBase s) (srcSize s)

/-- R197: among all valid containers of the mode that decode to X, the encoder's has the least payload. -/
def Obligations.EncodedPayloadIsLeast : Prop :=
  ∀ (w : WordSize) (X : List Nat) (delta : Bool) (C : Container), C.valid → C.word = w → C.delta = delta →
    C.count = X.length → decodeFn C = X → widthSum (encodeFn w X delta) ≤ widthSum C

/-- R198: the container of an empty sequence has no block, its image is 16 bytes, 10 of them zero after count, tag and
flag, and it decodes to nothing; PACKINTS and DPACKINTS of an empty window write that image. -/
def Obligations.EmptySequenceImage : Prop :=
  ∀ (w : WordSize) (delta : Bool),
    (encodeFn w [] delta = { count := 0, word := w, delta := delta, blocks := [] } ∧
      imageEncode (encodeFn w [] delta) = [0, 0, 0, 0, tagByte w, flagByte delta] ++ List.replicate 10 0 ∧
      decodeFn (encodeFn w [] delta) = []) ∧
    ∀ s : State, s.raced = false → windowsOk s → srcSize s = 0 → 16 ≤ dstSize s →
      ∃ t, exec (packIntsInstr w delta) s = .next t ∧ t.status = completedStatus s .none ∧ t.resLen = 16 ∧
        t.mem.readBytes (dstBase s) 16 = [0, 0, 0, 0, tagByte w, flagByte delta] ++ List.replicate 10 0

/-! ### The container formats -/

/-- R222: a valid container is read back from its wire bytes and from its image, whatever follows the image (R115), and
the lengths are S(C) and WS(C) (R114, R122). As commands, DESERIALIZE of SERIALIZE's output writes the image of the
container that the source image held: the same bytes, where that image was one that the core wrote. -/
def Obligations.ContainerFormatsRoundTrip : Prop :=
  (∀ (C : Container) (more : List Byte), C.valid →
    imageDecode (imageEncode C ++ more) = .ok C ∧ wireDecode (wireEncode C) = .ok C ∧
      (imageEncode C).length = imageSize C ∧ (wireEncode C).length = wireSize C) ∧
  ∀ (s t u v : State), succeeds .serialize s t → readsOutputOf u s t → succeeds .deserialize u v →
    imageDecode (v.mem.readBytes (dstBase u) v.resLen.toNat) = imageDecode (s.mem.readBytes (srcBase s) (srcSize s)) ∧
    ∀ C : Container, C.valid → s.mem.readBytes (srcBase s) (srcSize s) = imageEncode C →
      v.mem.readBytes (dstBase u) v.resLen.toNat = imageEncode C

/-- Where every field of a valid container stands. In its image (R110 to R113): count at 0, tag at 4, flag at 5, block_count
at 8, zeros at 6, 7 and 12 to 15, nb_b at 16 + b, zeros up to P0, block b at off_b; S(C) bytes (R114). In its wire bytes
(R120, R121): count at 0, tag at 4, flag at 5, block_count at 6, then the records, each nb_b, its length 16·nb_b, and the
block; WS(C) bytes (R122). -/
def Obligations.ContainerLayout : Prop :=
  ∀ C : Container, C.valid →
    ((imageEncode C).length = imageBlockOffset C.blocks.length (C.blocks.map (·.1)) C.blocks.length ∧
      u32At (imageEncode C) 0 C.count ∧
      ((imageEncode C).getD 4 0 = match C.word with | .w32 => 32#8 | .w64 => 64#8) ∧
      ((imageEncode C).getD 5 0 = match C.delta with | false => 0#8 | true => 1#8) ∧
      (∀ k, k ∈ [6, 7, 12, 13, 14, 15] → (imageEncode C).getD k 0 = 0) ∧
      u32At (imageEncode C) 8 C.blocks.length ∧
      (∀ k, 16 + C.blocks.length ≤ k → k < 16 + 16 * ((C.blocks.length + 15) / 16) → (imageEncode C).getD k 0 = 0) ∧
      ∀ b nb P, C.blocks[b]? = some (nb, P) → ((imageEncode C).getD (16 + b) 0).toNat = nb ∧
        slice (imageEncode C) (imageBlockOffset C.blocks.length (C.blocks.map (·.1)) b)
          (imageBlockOffset C.blocks.length (C.blocks.map (·.1)) b + 16 * nb) = P) ∧
    ((wireEncode C).length = wireRecordOffset (C.blocks.map (·.1)) C.blocks.length ∧
      u32At (wireEncode C) 0 C.count ∧
      ((wireEncode C).getD 4 0 = match C.word with | .w32 => 32#8 | .w64 => 64#8) ∧
      ((wireEncode C).getD 5 0 = match C.delta with | false => 0#8 | true => 1#8) ∧
      u32At (wireEncode C) 6 C.blocks.length ∧
      ∀ b nb P, C.blocks[b]? = some (nb, P) →
        ((wireEncode C).getD (wireRecordOffset (C.blocks.map (·.1)) b) 0).toNat = nb ∧
        u32At (wireEncode C) (wireRecordOffset (C.blocks.map (·.1)) b + 1) (16 * nb) ∧
        slice (wireEncode C) (wireRecordOffset (C.blocks.map (·.1)) b + 5)
          (wireRecordOffset (C.blocks.map (·.1)) b + 5 + 16 * nb) = P)

/-- R223: every stream that wireDecode accepts is the serialization of the container it gives, and of no other. -/
def Obligations.DeserializeIsExact : Prop :=
  ∀ (L : List Byte) (C : Container), wireDecode L = .ok C →
    wireEncode C = L ∧ C.valid ∧ ∀ C' : Container, C'.valid → wireEncode C' = L → C' = C

/-- R225: every proper prefix of a serialization fails with CorruptData. -/
def Obligations.TruncationIsDetected : Prop :=
  ∀ (C : Container) (L : List Byte), C.valid → L <+: wireEncode C → L ≠ wireEncode C → wireDecode L = .error .corruptData

/-- R115: imageDecode fails exactly when one of the checks M1 to M8 does, and always with MalformedContainer; where it
succeeds, count, w, delta and every block are read from their places, whatever the table padding and the bytes from S on. -/
def Obligations.ImageChecksAreM1ToM8 : Prop :=
  ∀ L : List Byte,
    ((∃ c, imageDecode L = .error c) ↔
      (L.length < 16 ∨
        ¬(L.getD 4 0 = 32 ∨ L.getD 4 0 = 64) ∨
        ¬(L.getD 5 0 = 0 ∨ L.getD 5 0 = 1) ∨
        (∃ k, k ∈ [6, 7, 12, 13, 14, 15] ∧ L.getD k 0 ≠ 0) ∨
        fromLE (slice L 8 12) ≠ (fromLE (slice L 0 4) + 127) / 128 ∨
        L.length < 16 + pad16 (fromLE (slice L 8 12)) ∨
        (∃ b, b < fromLE (slice L 8 12) ∧ (L.getD (16 + b) 0).toNat > (L.getD 4 0).toNat) ∨
        L.length < 16 + pad16 (fromLE (slice L 8 12)) +
          16 * ((List.range (fromLE (slice L 8 12))).map fun b => (L.getD (16 + b) 0).toNat).sum)) ∧
    (∀ c, imageDecode L = .error c → c = .malformedContainer) ∧
    ∀ C : Container, imageDecode L = .ok C →
      C.count = fromLE (slice L 0 4) ∧ bitsOf C.word = (L.getD 4 0).toNat ∧ (C.delta = true ↔ L.getD 5 0 = 1) ∧
        C.blocks.length = fromLE (slice L 8 12) ∧
        ∀ b nb P, C.blocks[b]? = some (nb, P) → nb = (L.getD (16 + b) 0).toNat ∧
          P = slice L (imageBlockOffset C.blocks.length (C.blocks.map (·.1)) b)
            (imageBlockOffset C.blocks.length (C.blocks.map (·.1)) b + 16 * nb)

/-- SERIALIZE (R220): on an image that passes its checks, the wire bytes of its container are written, WS(C) of them and no
other byte. -/
def Obligations.SerializeResult : Prop :=
  ∀ (s : State) (C : Container), s.raced = false → windowsOk s →
    imageDecode (s.mem.readBytes (srcBase s) (srcSize s)) = .ok C → wireSize C ≤ dstSize s →
    ∃ m, exec .serialize s =
        .next { s with mem := m, status := completedStatus s .none, resLen := BitVec.ofNat 64 (wireSize C) } ∧
      m.readBytes (dstBase s) (wireSize C) = wireEncode C ∧ unchangedOutside s.mem m (dstBase s) (wireSize C)

/-- DESERIALIZE (R221): on a stream that passes its checks, the image of its container is written, S(C) bytes and no
other. -/
def Obligations.DeserializeResult : Prop :=
  ∀ (s : State) (C : Container), s.raced = false → windowsOk s →
    wireDecode (s.mem.readBytes (srcBase s) (srcSize s)) = .ok C → imageSize C ≤ dstSize s →
    ∃ m, exec .deserialize s =
        .next { s with mem := m, status := completedStatus s .none, resLen := BitVec.ofNat 64 (imageSize C) } ∧
      m.readBytes (dstBase s) (imageSize C) = imageEncode C ∧ unchangedOutside s.mem m (dstBase s) (imageSize C)

/-- R226: PACKINTS or DPACKINTS, SERIALIZE, DESERIALIZE and UNPACKINTS of the same word size, each on the output of the one
before it with no error, write the source bytes back. -/
def Obligations.FullPipelineRestoresSource : Prop :=
  ∀ (w : WordSize) (delta : Bool) (s₁ t₁ s₂ t₂ s₃ t₃ s₄ t₄ : State),
    succeeds (packIntsInstr w delta) s₁ t₁ → readsOutputOf s₂ s₁ t₁ →
    succeeds .serialize s₂ t₂ → readsOutputOf s₃ s₂ t₂ →
    succeeds .deserialize s₃ t₃ → readsOutputOf s₄ s₃ t₃ →
    succeeds (unpackIntsInstr w) s₄ t₄ →
    t₄.resLen = s₁.latch.srcLen ∧
      t₄.mem.readBytes (dstBase s₄) (srcSize s₁) = s₁.mem.readBytes (srcBase s₁) (srcSize s₁)

/-! ### Errors and frames -/

/-- R261, R262: the code that a completion reports is that of the first failing check, in the order of R261, for every
command and every command word. -/
def Obligations.FirstFailingCheckIsReported : Prop :=
  ∀ s t : State, completion s = .next t → t.status = completedStatus s (firstFailing (allChecks s))

/-- R263: a command that ends with an error changes STATUS and RES_LEN and nothing else. That the hazard mark is cleared, and
that a hazarded command uses up draws, is the model's (log entries 2 and 6). -/
def Obligations.ErrorsArePrecise : Prop :=
  ∀ s t : State, completion s = .next t → t.status.err = true →
    t = { s with status := completedStatus s t.status.code, resLen := 0, raced := false, draws := t.draws } ∧
      t.status.code ≠ .none ∧ (s.raced = false → t.draws = s.draws)

/-- R264, R68: a command that succeeds writes exactly [DST_ADDR, DST_ADDR + RES_LEN), inside its destination window, and
changes no register but STATUS, RES_LEN and, for the delta kernels, the seed (R34). -/
def Obligations.SuccessWritesResultOnly : Prop :=
  ∀ (i : Instr) (s t : State), exec i s = .next t → t.status.err = false →
    t.resLen.toNat ≤ dstSize s ∧ unchangedOutside s.mem t.mem (dstBase s) t.resLen.toNat ∧
    t = { s with
      mem := t.mem
      seedLo := t.seedLo
      seedHi := t.seedHi
      resLen := t.resLen
      status := completedStatus s .none
      raced := false
      draws := t.draws } ∧
    (usesSeed i = false → t.seedLo = s.seedLo ∧ t.seedHi = s.seedHi) ∧ (s.raced = false → t.draws = s.draws)

/-- R199, R34: a command other than DPACK and DUNPACK does not write the seed, and does not read it: with no hazard in
flight (log entries 2 and 6) another seed changes nothing of the outcome but itself. -/
def Obligations.OtherCommandsIgnoreSeed : Prop :=
  ∀ (i : Instr) (s t : State) (lo hi : Word), usesSeed i = false → exec i s = .next t →
    t.seedLo = s.seedLo ∧ t.seedHi = s.seedHi ∧
      (s.raced = false → exec i { s with seedLo := lo, seedHi := hi } = .next { t with seedLo := lo, seedHi := hi })

/-- R67: a command's outcome depends on no byte of memory outside its source window (with no hazard in flight, log entries
2 and 6). -/
def Obligations.OnlySourceWindowMatters : Prop :=
  ∀ (i : Instr) (s t : State) (m : Memory), s.raced = false → (∀ a, inSource s a → m.read a = s.mem.read a) → exec i s = .next t →
    ∃ t', exec i { s with mem := m } = .next t' ∧ t'.status = t.status ∧ t'.resLen = t.resLen ∧
      t'.seedLo = t.seedLo ∧ t'.seedHi = t.seedHi ∧
      (t.status.err = false → ∀ a, dstBase s ≤ a → a < dstBase s + t.resLen.toNat → t'.mem.read a = t.mem.read a)

/-- R66: check 5 fails exactly when both windows share an address of memory. -/
def Obligations.OverlapMeansSharedAddress : Prop :=
  ∀ s : State, windowsOverlap s ↔ ∃ a, inSource s a ∧ inDestination s a

/-- R265: a command issued again after it failed, with nothing changed in between, is accepted and reports the same code. -/
def Obligations.RetryReportsSameCode : Prop :=
  ∀ s t u : State, s.status.busy = true → latchAgrees s → s.raced = false → completion s = .next t → t.status.err = true →
    completion (writeReg 1 t.cmd t) = .next u → (writeReg 1 t.cmd t).status.busy = true ∧ u.status.code = t.status.code

/-! ### Hazards -/

/-- R76, I13: a host read of memory returns, for each byte in the destination window of a command in flight, any value, and
otherwise the byte. It changes nothing else but the model's record of what was read (log entry 4) and its count of draws
(log entry 2). A read that reaches an address that does not exist faults (R60; the fault is the model's, log entry 8). -/
def Obligations.HostReadInFlight : Prop :=
  ∀ (addr len : Nat) (s : State),
    (addr + len > s.platform.memSize → handle (.memRead addr len) s = .fault (.noSuchAddress addr len)) ∧
    (addr + len ≤ s.platform.memSize → ∃ bytes,
      handle (.memRead addr len) s = .next { s with observed := .mem addr bytes :: s.observed, draws := s.draws + 1 } ∧
        bytes.length = len ∧
        ∀ k, k < len → bytes.getD k 0 =
          if s.status.busy = true ∧ inDestination s (addr + k) then Config.freeByte s.draws (addr + k)
          else s.mem.read (addr + k))

/-- R76, I14: a host write to memory stores its bytes and no other; it records HostHazard, and hazards the command in
flight, exactly when a byte lies in one of its windows; it changes nothing else. An address that does not exist faults
(R60; the fault is the model's, log entry 8). -/
def Obligations.HostWriteRecordsHazard : Prop :=
  ∀ (addr : Nat) (bs : List Byte) (s : State),
    (addr + bs.length > s.platform.memSize → handle (.memWrite addr bs) s = .fault (.noSuchAddress addr bs.length)) ∧
    (addr + bs.length ≤ s.platform.memSize → ∃ t, handle (.memWrite addr bs) s = .next t ∧
      t = { s with mem := t.mem, hostHazard := t.hostHazard, raced := t.raced } ∧
      t.mem.readBytes addr bs.length = bs ∧ unchangedOutside s.mem t.mem addr bs.length ∧
      ((s.status.busy = true ∧ ∃ a, addr ≤ a ∧ a < addr + bs.length ∧ (inSource s a ∨ inDestination s a)) →
        t.hostHazard = true ∧ t.raced = true) ∧
      (¬(s.status.busy = true ∧ ∃ a, addr ≤ a ∧ a < addr + bs.length ∧ (inSource s a ∨ inDestination s a)) →
        t.hostHazard = s.hostHazard ∧ t.raced = s.raced))

/-- R76, I14: every byte that a hazarded command writes is any value: a free value, which nothing constrains (log entries 2
and 6). -/
def Obligations.HazardedCommandWritesAnyBytes : Prop :=
  ∀ (i : Instr) (s t : State), s.raced = true → exec i s = .next t → t.status.err = false →
    ∀ k, k < t.resLen.toNat → t.mem.read (dstBase s + k) = Config.freeByte (s.draws + 1) (dstBase s + k)

/-- R76: HostHazard is never cleared; and no step changes MEM_SIZE or REG_BASE (R11, held in the state by log
entry 1). -/
def Obligations.HazardAndPlatformPersist : Prop :=
  ∀ s t : State, step s = .next t → t.platform = s.platform ∧ (s.hostHazard = true → t.hostHazard = true)

/-! ### The invariant -/

/-- The invariant holds in `State.reset` (its MEM_SIZE, REG_BASE and empty memory are the model's choice, log entries 1
and 5), and at power-on on every platform and memory. -/
def Obligations.InvariantAtReset : Prop :=
  State.reset.Inv ∧ ∀ (p : Platform) (m : Memory), p.wf → Memory.wf p.memSize m → (State.powerOn p m).Inv

/-- Every step keeps the invariant: the memory's canonical form inside MEM_SIZE, a legal STATUS (R25), the latch equal to
the registers in flight (R38), RES_LEN 0 in flight and after an error (R24, R263). -/
def Obligations.StepKeepsInvariant : Prop := ∀ s t : State, s.Inv → step s = .next t → t.Inv
end

