-- ==== Sys2Proof/Laws/Bytes.lean ====
section
/-! SUPPORT. The byte-order functions and element arrays: lengths, bounds, round trips and bits. -/

namespace Sys2Proof.Machine

@[simp] theorem toLE_length (n v : Nat) : (toLE n v).length = n := by
  induction n generalizing v with
  | zero => rfl
  | succ n ih => simp [toLE, ih]

theorem fromLE_lt (bs : List Byte) : fromLE bs < 256 ^ bs.length := by
  induction bs with
  | nil => simp [fromLE]
  | cons b bs ih =>
    have := b.isLt
    simp only [fromLE, List.length_cons, pow_succ]
    omega

@[simp] theorem fromLE_toLE (n v : Nat) : fromLE (toLE n v) = v % 256 ^ n := by
  induction n generalizing v with
  | zero => simp [toLE, fromLE, Nat.mod_one]
  | succ n ih =>
    simp only [toLE, fromLE, ih, BitVec.toNat_ofNat]
    rw [pow_succ 256 n, Nat.mul_comm (256 ^ n) 256, Nat.mod_mul]

theorem fromLE_toLE_of_lt {n v : Nat} (h : v < 256 ^ n) : fromLE (toLE n v) = v := by
  rw [fromLE_toLE, Nat.mod_eq_of_lt h]

@[simp] theorem toLE_fromLE (bs : List Byte) : toLE bs.length (fromLE bs) = bs := by
  induction bs with
  | nil => rfl
  | cons b bs ih =>
    have hb := b.isLt
    have h : (b.toNat + 256 * fromLE bs) / 256 = fromLE bs := by omega
    simp only [List.length_cons, toLE, fromLE, h, ih]
    congr 1
    apply BitVec.eq_of_toNat_eq
    simp only [BitVec.toNat_ofNat]
    omega

theorem toLE_fromLE_of_length {bs : List Byte} {n : Nat} (h : bs.length = n) : toLE n (fromLE bs) = bs := by
  subst h; simp

theorem toLE_mod (n v : Nat) : toLE n (v % 256 ^ n) = toLE n v := by
  have h := toLE_fromLE (toLE n v)
  rwa [toLE_length, fromLE_toLE] at h

theorem toLE_add (m n v : Nat) : toLE (m + n) v = toLE m v ++ toLE n (v / 256 ^ m) := by
  induction m generalizing v with
  | zero => simp [toLE]
  | succ m ih =>
    rw [show m + 1 + n = m + n + 1 by omega]
    simp only [toLE, ih, List.cons_append, Nat.div_div_eq_div_mul, pow_succ, Nat.mul_comm 256]

theorem fromLE_append (xs ys : List Byte) :
    fromLE (xs ++ ys) = fromLE xs + 256 ^ xs.length * fromLE ys := by
  induction xs with
  | nil => simp [fromLE]
  | cons x xs ih => simp only [List.cons_append, fromLE, ih, List.length_cons, pow_succ]; ring

/-- Bit k of the number that a byte list stands for is bit k mod 8 of byte k div 8 (R102). -/
theorem fromLE_testBit (bs : List Byte) (k : Nat) :
    (fromLE bs).testBit k = (bs.getD (k / 8) 0).getLsbD (k % 8) := by
  induction bs generalizing k with
  | nil => simp [fromLE]
  | cons b bs ih =>
    have hb := b.isLt
    rw [fromLE, Nat.add_comm, show (256 : Nat) = 2 ^ 8 by rfl, Nat.testBit_two_pow_mul_add _ (by simpa using hb)]
    by_cases hk : k < 8
    · rw [if_pos hk, Nat.div_eq_of_lt hk, Nat.mod_eq_of_lt hk]
      simp [BitVec.testBit_toNat]
    · rw [if_neg hk, ih]
      have h1 : k / 8 = (k - 8) / 8 + 1 := by omega
      have h2 : k % 8 = (k - 8) % 8 := by omega
      simp [h1, h2]

@[simp] theorem elements_length (k n : Nat) (bs : List Byte) : (elements k n bs).length = n := by
  induction n generalizing bs with
  | zero => rfl
  | succ n ih => simp [elements, ih]

theorem elements_getD (k n : Nat) (bs : List Byte) {i : Nat} (h : i < n) (d : Nat) :
    (elements k n bs).getD i d = fromLE ((bs.drop (i * k)).take k) := by
  induction n generalizing bs i with
  | zero => omega
  | succ n ih =>
    cases i with
    | zero => simp [elements]
    | succ i =>
      have := ih (bs.drop k) (i := i) (by omega)
      simp only [elements, List.getD_cons_succ, this, List.drop_drop]
      congr 3
      ring

theorem elements_lt (k n : Nat) (bs : List Byte) : ∀ v ∈ elements k n bs, v < 256 ^ k := by
  induction n generalizing bs with
  | zero => simp [elements]
  | succ n ih =>
    intro v hv
    rcases List.mem_cons.mp hv with rfl | hv
    · exact lt_of_lt_of_le (fromLE_lt _) (Nat.pow_le_pow_right (by omega) (List.length_take_le _ _))
    · exact ih _ v hv

@[simp] theorem elementBytes_length (k : Nat) (vs : List Nat) : (elementBytes k vs).length = k * vs.length := by
  induction vs with
  | nil => simp [elementBytes]
  | cons v vs ih =>
    simp only [elementBytes, List.flatMap_cons, List.length_append, toLE_length, List.length_cons] at ih ⊢
    rw [ih]; ring

theorem elementBytes_cons (k v : Nat) (vs : List Nat) : elementBytes k (v :: vs) = toLE k v ++ elementBytes k vs := rfl

/-- Reading an element array back from its bytes (R98). -/
theorem elements_elementBytes (k : Nat) (vs : List Nat) (rest : List Byte) (h : ∀ v ∈ vs, v < 256 ^ k) :
    elements k vs.length (elementBytes k vs ++ rest) = vs := by
  induction vs with
  | nil => rfl
  | cons v vs ih =>
    have hv := h v (by simp)
    have hvs := ih fun x hx => h x (by simp [hx])
    simp only [elementBytes_cons, List.append_assoc, List.length_cons, elements, List.cons.injEq]
    constructor
    · rw [List.take_left' (toLE_length k v), fromLE_toLE_of_lt hv]
    · rw [List.drop_left' (toLE_length k v), hvs]

/-- The bytes of an element array are the array's own bytes (R98). -/
theorem elementBytes_elements (k n : Nat) (bs : List Byte) (h : bs.length = n * k) :
    elementBytes k (elements k n bs) = bs := by
  induction n generalizing bs with
  | zero => simp_all [elements, elementBytes]
  | succ n ih =>
    have hk : k ≤ bs.length := by rw [h]; nlinarith
    have hl : (bs.drop k).length = n * k := by rw [List.length_drop, h]; rw [Nat.add_mul]; omega
    have ht : (bs.take k).length = k := by simp [hk]
    simp only [elements, elementBytes_cons, ih _ hl]
    rw [toLE_fromLE_of_length ht, List.take_append_drop]

theorem pow256_bytesOf (w : WordSize) : 256 ^ bytesOf w = 2 ^ bitsOf w := by cases w <;> norm_num [bytesOf, bitsOf]

theorem bitsOf_eq (w : WordSize) : bitsOf w = 8 * bytesOf w := by cases w <;> rfl

theorem pad16_ge (n : Nat) : n ≤ pad16 n := by unfold pad16 ceilDiv; omega

theorem pad16_mod (n : Nat) : pad16 n % 16 = 0 := by unfold pad16; omega

theorem bitlength_le_iff (v nb : Nat) : bitlength v ≤ nb ↔ v < 2 ^ nb := by
  unfold bitlength
  split
  · next h => subst h; simp
  · next h => rw [← Nat.log2_lt h]; omega

theorem lt_two_pow_bitlength (v : Nat) : v < 2 ^ bitlength v := (bitlength_le_iff v _).mp le_rfl

theorem addW_lt (w : WordSize) (a b : Nat) : addW w a b < 2 ^ bitsOf w := Nat.mod_lt _ (by positivity)

theorem subW_lt (w : WordSize) (a b : Nat) : subW w a b < 2 ^ bitsOf w := Nat.mod_lt _ (by positivity)

/-- `−w` is subtraction mod 2^w (R15). -/
theorem subW_eq_emod (w : WordSize) (a b : Nat) :
    ((subW w a b : Nat) : Int) = ((a : Int) - b) % (2 ^ bitsOf w : Nat) := by
  unfold subW
  have hb : b % 2 ^ bitsOf w ≤ 2 ^ bitsOf w := le_of_lt (Nat.mod_lt _ (by positivity))
  push_cast [Nat.cast_sub hb]
  rw [show (a : Int) + (2 ^ bitsOf w - (b : Int) % 2 ^ bitsOf w) = (a - (b : Int) % 2 ^ bitsOf w) + 2 ^ bitsOf w by ring,
    Int.add_emod_right, Int.sub_emod, Int.emod_emod_of_dvd _ (dvd_refl _), ← Int.sub_emod]

/-- `+w` undoes `−w` (R146). -/
theorem addW_subW (w : WordSize) (k last : Nat) (h : k < 2 ^ bitsOf w) : addW w last (subW w k last) = k := by
  have hi : ((addW w last (subW w k last) : Nat) : Int) = k := by
    unfold addW
    push_cast
    rw [subW_eq_emod]
    push_cast
    rw [Int.add_emod, Int.emod_emod_of_dvd _ (dvd_refl _), ← Int.add_emod, show (last : Int) + (k - last) = k by ring]
    exact Int.emod_eq_of_lt (by positivity) (by exact_mod_cast h)
  exact_mod_cast hi

/-- `−w` undoes `+w` (R146). -/
theorem subW_addW (w : WordSize) (d last : Nat) (h : d < 2 ^ bitsOf w) : subW w (addW w last d) last = d := by
  have hi : ((subW w (addW w last d) last : Nat) : Int) = d := by
    rw [subW_eq_emod]
    unfold addW
    push_cast
    rw [Int.sub_emod, Int.emod_emod_of_dvd _ (dvd_refl _), ← Int.sub_emod, show (last : Int) + d - last = d by ring]
    exact Int.emod_eq_of_lt (by positivity) (by exact_mod_cast h)
  exact_mod_cast hi

/-- A value minus itself is 0 mod 2^w, so repeated elements give deltas of 0 (R184). -/
theorem subW_self (w : WordSize) (k : Nat) : subW w k k = 0 := by
  have hi : ((subW w k k : Nat) : Int) = 0 := by rw [subW_eq_emod]; simp
  exact_mod_cast hi

end Sys2Proof.Machine
end

