-- ==== Sys2Proof/Laws/Codec.lean ====
section
/-! SUPPORT. The packed bit stream, the delta functions and the bit-width selector. -/

namespace Sys2Proof.Machine

theorem streamOf_lt (nb : Nat) (V : List Nat) : streamOf nb V < 2 ^ (nb * V.length) := by
  induction V with
  | nil => simp [streamOf]
  | cons v vs ih =>
    have hv : v % 2 ^ nb < 2 ^ nb := Nat.mod_lt _ (by positivity)
    have h1 : streamOf nb vs + 1 ≤ 2 ^ (nb * vs.length) := ih
    have h2 := Nat.mul_le_mul_left (2 ^ nb) h1
    rw [← pow_add] at h2
    simp only [streamOf, List.length_cons]
    rw [show nb * (vs.length + 1) = nb + nb * vs.length by ring]
    rw [Nat.mul_add] at h2
    omega

/-- Stream bit i·nb + j is bit j of element i (R103). -/
theorem streamOf_testBit (nb : Nat) (V : List Nat) (i j : Nat) (hj : j < nb) :
    (streamOf nb V).testBit (i * nb + j) = (V.getD i 0).testBit j := by
  induction V generalizing i with
  | nil => simp [streamOf]
  | cons v vs ih =>
    have hv : v % 2 ^ nb < 2 ^ nb := Nat.mod_lt _ (by positivity)
    rw [streamOf, Nat.add_comm, Nat.testBit_two_pow_mul_add _ hv]
    cases i with
    | zero => simp [hj, Nat.testBit_mod_two_pow]
    | succ i =>
      rw [if_neg (by rw [Nat.add_mul]; omega), show (i + 1) * nb + j - nb = i * nb + j by rw [Nat.add_mul]; omega, ih]
      simp

@[simp] theorem packBits_length (nb : Nat) (V : List Nat) : (packBits nb V).length = 16 * nb := by simp [packBits]

@[simp] theorem fieldsOf_length (nb k n : Nat) : (fieldsOf nb k n).length = k := by
  induction k generalizing n with
  | zero => rfl
  | succ k ih => simp [fieldsOf, ih]

/-- The closed form of R103 and R143. -/
theorem fieldsOf_getD (nb k n i : Nat) (h : i < k) : (fieldsOf nb k n).getD i 0 = n / 2 ^ (i * nb) % 2 ^ nb := by
  induction k generalizing n i with
  | zero => omega
  | succ k ih =>
    cases i with
    | zero => simp [fieldsOf]
    | succ i =>
      simp only [fieldsOf, List.getD_cons_succ]
      rw [ih _ _ (by omega), Nat.div_div_eq_div_mul, ← pow_add]
      congr 3
      ring

@[simp] theorem unpackBits_length (nb : Nat) (P : List Byte) : (unpackBits nb P).length = 128 := by simp [unpackBits]

theorem unpackBits_getD (nb : Nat) (P : List Byte) (i : Nat) (h : i < 128) :
    (unpackBits nb P).getD i 0 = fromLE P / 2 ^ (i * nb) % 2 ^ nb := fieldsOf_getD nb 128 _ i h

/-- Every unpacked element is below 2^nb (R143). -/
theorem unpackBits_lt (nb : Nat) (P : List Byte) : ∀ v ∈ unpackBits nb P, v < 2 ^ nb := by
  intro v hv
  obtain ⟨i, hi, rfl⟩ := List.getElem_of_mem hv
  rw [← List.getD_eq_getElem _ 0 hi, unpackBits_getD nb P i (by simpa using hi)]
  exact Nat.mod_lt _ (by positivity)

theorem fieldsOf_streamOf (nb : Nat) (V : List Nat) : fieldsOf nb V.length (streamOf nb V) = V.map (· % 2 ^ nb) := by
  induction V with
  | nil => rfl
  | cons v vs ih =>
    have hv : v % 2 ^ nb < 2 ^ nb := Nat.mod_lt _ (by positivity)
    simp only [List.length_cons, fieldsOf, streamOf, List.map_cons, List.cons.injEq]
    constructor
    · rw [Nat.add_mul_mod_self_left, Nat.mod_mod]
    · rw [Nat.add_mul_div_left _ _ (by positivity), Nat.div_eq_of_lt hv, Nat.zero_add, ih]

theorem fromLE_packBits (nb : Nat) (V : List Nat) (h : V.length = 128) : fromLE (packBits nb V) = streamOf nb V := by
  apply fromLE_toLE_of_lt
  have := streamOf_lt nb V
  rwa [h, show nb * 128 = 8 * (16 * nb) by ring, pow_mul] at this

/-- Unpacking a packed block keeps the low nb bits of each element (R144). -/
theorem unpackBits_packBits (nb : Nat) (V : List Nat) (h : V.length = 128) :
    unpackBits nb (packBits nb V) = V.map (· % 2 ^ nb) := by
  rw [unpackBits, fromLE_packBits nb V h, ← h, fieldsOf_streamOf]

theorem map_mod_of_lt (nb : Nat) (V : List Nat) (h : ∀ v ∈ V, v < 2 ^ nb) : V.map (· % 2 ^ nb) = V := by
  conv_rhs => rw [← List.map_id V]
  exact List.map_congr_left fun v hv => Nat.mod_eq_of_lt (h v hv)

theorem unpackBits_packBits_of_lt (nb : Nat) (V : List Nat) (h : V.length = 128) (hv : ∀ v ∈ V, v < 2 ^ nb) :
    unpackBits nb (packBits nb V) = V := by rw [unpackBits_packBits nb V h, map_mod_of_lt nb V hv]

@[simp] theorem deltaEnc_length (w : WordSize) (last : Nat) (K : List Nat) : (deltaEnc w last K).length = K.length := by
  induction K generalizing last with
  | nil => rfl
  | cons k ks ih => simp [deltaEnc, ih]

@[simp] theorem deltaDec_length (w : WordSize) (last : Nat) (D : List Nat) : (deltaDec w last D).length = D.length := by
  induction D generalizing last with
  | nil => rfl
  | cons d ds ih => simp [deltaDec, ih]

/-- Delta i is element i minus the one before it (R145). -/
theorem deltaEnc_getD (w : WordSize) (last : Nat) (K : List Nat) (i : Nat) (h : i < K.length) :
    (deltaEnc w last K).getD i 0 = subW w (K.getD i 0) (if i = 0 then last else K.getD (i - 1) 0) := by
  induction K generalizing last i with
  | nil => simp at h
  | cons k ks ih =>
    cases i with
    | zero => simp [deltaEnc]
    | succ i =>
      have := ih k i (by simpa using h)
      simp only [deltaEnc, List.getD_cons_succ, this]
      cases i <;> simp

/-- Element i of a prefix sum is the one before it plus delta i (R146). -/
theorem deltaDec_getD (w : WordSize) (last : Nat) (D : List Nat) (i : Nat) (h : i < D.length) :
    (deltaDec w last D).getD i 0 = addW w (if i = 0 then last else (deltaDec w last D).getD (i - 1) 0) (D.getD i 0) := by
  induction D generalizing last i with
  | nil => simp at h
  | cons d ds ih =>
    cases i with
    | zero => simp [deltaDec]
    | succ i =>
      have := ih (addW w last d) i (by simpa using h)
      simp only [deltaDec, List.getD_cons_succ]
      rw [this]
      cases i <;> simp

theorem deltaEnc_lt (w : WordSize) (last : Nat) (K : List Nat) : ∀ v ∈ deltaEnc w last K, v < 2 ^ bitsOf w := by
  induction K generalizing last with
  | nil => simp [deltaEnc]
  | cons k ks ih =>
    intro v hv
    rcases List.mem_cons.mp hv with rfl | hv
    · exact subW_lt _ _ _
    · exact ih _ v hv

theorem deltaDec_lt (w : WordSize) (last : Nat) (D : List Nat) : ∀ v ∈ deltaDec w last D, v < 2 ^ bitsOf w := by
  induction D generalizing last with
  | nil => simp [deltaDec]
  | cons d ds ih =>
    intro v hv
    rcases List.mem_cons.mp hv with rfl | hv
    · exact addW_lt _ _ _
    · exact ih _ v hv

/-- The prefix sum undoes the deltas (R146). -/
theorem deltaDec_deltaEnc (w : WordSize) (last : Nat) (K : List Nat) (h : ∀ k ∈ K, k < 2 ^ bitsOf w) :
    deltaDec w last (deltaEnc w last K) = K := by
  induction K generalizing last with
  | nil => rfl
  | cons k ks ih =>
    have hk := h k (by simp)
    simp only [deltaEnc, deltaDec, addW_subW w k last hk, ih k fun x hx => h x (by simp [hx])]

/-- The deltas undo the prefix sum. -/
theorem deltaEnc_deltaDec (w : WordSize) (last : Nat) (D : List Nat) (h : ∀ d ∈ D, d < 2 ^ bitsOf w) :
    deltaEnc w last (deltaDec w last D) = D := by
  induction D generalizing last with
  | nil => rfl
  | cons d ds ih =>
    have hd := h d (by simp)
    simp only [deltaDec, deltaEnc, subW_addW w d last hd, ih _ fun x hx => h x (by simp [hx])]

theorem foldl_max_lt_iff (V : List Nat) (a b : Nat) : V.foldl max a < b ↔ a < b ∧ ∀ v ∈ V, v < b := by
  induction V generalizing a with
  | nil => simp
  | cons v vs ih => simp only [List.foldl_cons, ih, List.forall_mem_cons, max_lt_iff, and_assoc]

/-- selectWidth is at most nb exactly when every value fits nb bits (R180, R181). -/
theorem selectWidth_le_iff (V : List Nat) (nb : Nat) : selectWidth V ≤ nb ↔ ∀ v ∈ V, v < 2 ^ nb := by
  rw [selectWidth, bitlength_le_iff, foldl_max_lt_iff]
  exact and_iff_right (by positivity)

theorem lt_two_pow_selectWidth (V : List Nat) : ∀ v ∈ V, v < 2 ^ selectWidth V := (selectWidth_le_iff V _).mp le_rfl

end Sys2Proof.Machine
end

