-- ==== Sys2Proof/Laws/Memory.lean ====
section
/-! SUPPORT. The data memory: what a write changes and what it leaves alone, and that it keeps the canonical form. -/

namespace Sys2Proof.Machine

@[simp] theorem read_nil (a : Nat) : Memory.read [] a = 0 := rfl

theorem read_append (m n : Memory) (a : Nat) (h : ∀ c ∈ m, c.1 ≠ a) : Memory.read (m ++ n) a = Memory.read n a := by
  induction m with
  | nil => rfl
  | cons c m ih =>
    have hc := h c (by simp)
    simp only [List.cons_append, Memory.read, if_neg hc]
    exact ih fun x hx => h x (by simp [hx])

theorem read_append_left (m n : Memory) (a : Nat) (h : ∀ c ∈ n, c.1 ≠ a) : Memory.read (m ++ n) a = Memory.read m a := by
  induction m with
  | nil =>
    have : Memory.read (n ++ []) a = 0 := read_append n [] a h
    simpa using this
  | cons c m ih => simp only [List.cons_append, Memory.read, ih]

theorem read_filter (m : Memory) (p : Nat → Bool) (a : Nat) (h : p a = true) :
    Memory.read (m.filter fun c => p c.1) a = Memory.read m a := by
  induction m with
  | nil => rfl
  | cons c m ih =>
    by_cases hc : c.1 = a
    · simp [Memory.read, hc, h]
    · by_cases hp : p c.1 = true
      · simp [Memory.read, hc, hp, ih]
      · simp [Memory.read, hc, hp, ih]

theorem cellsOf_bounds (a : Nat) (bs : List Byte) : ∀ c ∈ cellsOf a bs, a ≤ c.1 ∧ c.1 < a + bs.length ∧ c.2 ≠ 0 := by
  induction bs generalizing a with
  | nil => simp [cellsOf]
  | cons b bs ih =>
    intro c hc
    simp only [cellsOf] at hc
    split at hc
    · have := ih (a + 1) c hc
      simp only [List.length_cons]
      exact ⟨by omega, by omega, this.2.2⟩
    · rcases List.mem_cons.mp hc with rfl | hc
      · simp_all
      · have := ih (a + 1) c hc
        simp only [List.length_cons]
        exact ⟨by omega, by omega, this.2.2⟩

theorem cellsOf_sorted (a : Nat) (bs : List Byte) : (cellsOf a bs).Pairwise fun x y => x.1 < y.1 := by
  induction bs generalizing a with
  | nil => simp [cellsOf]
  | cons b bs ih =>
    simp only [cellsOf]
    split
    · exact ih _
    · refine List.pairwise_cons.mpr ⟨fun c hc => ?_, ih _⟩
      have := cellsOf_bounds (a + 1) bs c hc
      simp only; omega

theorem read_cellsOf (a : Nat) (bs : List Byte) (k : Nat) (h : k < bs.length) :
    Memory.read (cellsOf a bs) (a + k) = bs.getD k 0 := by
  induction bs generalizing a k with
  | nil => simp at h
  | cons b bs ih =>
    cases k with
    | zero =>
      simp only [cellsOf]
      split
      · next hb =>
        have : Memory.read (cellsOf (a + 1) bs ++ []) (a + 0) = 0 :=
          read_append _ [] _ fun c hc => by have := cellsOf_bounds _ _ c hc; omega
        simp_all
      · simp [Memory.read]
    | succ k =>
      have hk : k < bs.length := by simpa using h
      have := ih (a + 1) k hk
      rw [show a + (k + 1) = a + 1 + k by omega]
      simp only [cellsOf]
      split
      · simpa using this
      · simp only [Memory.read, List.getD_cons_succ, this]
        rw [if_neg (by omega)]

/-- A write changes the bytes it stores and no other (R68). -/
theorem read_write (m : Memory) (a : Nat) (bs : List Byte) (x : Nat) :
    (m.write a bs).read x = if a ≤ x ∧ x < a + bs.length then bs.getD (x - a) 0 else m.read x := by
  unfold Memory.write
  by_cases h1 : x < a
  · rw [if_neg (by omega), read_append_left, read_filter m (fun y => decide (y < a)) x (by simpa using h1)]
    intro c hc
    rcases List.mem_append.mp hc with hc | hc
    · have := cellsOf_bounds _ _ c hc; omega
    · have := (List.mem_filter.mp hc).2; simp at this; omega
  · rw [read_append _ _ _ (fun c hc => by have := (List.mem_filter.mp hc).2; simp at this; omega)]
    by_cases h2 : x < a + bs.length
    · rw [if_pos ⟨by omega, h2⟩, read_append_left]
      · have := read_cellsOf a bs (x - a) (by omega)
        rwa [show a + (x - a) = x by omega] at this
      · intro c hc; have := (List.mem_filter.mp hc).2; simp at this; omega
    · rw [if_neg (by omega), read_append _ _ _ (fun c hc => by have := cellsOf_bounds _ _ c hc; omega)]
      exact read_filter m (fun y => decide (a + bs.length ≤ y)) x (by simpa using (by omega))

theorem read_write_outside (m : Memory) (a : Nat) (bs : List Byte) (x : Nat) (h : x < a ∨ a + bs.length ≤ x) :
    (m.write a bs).read x = m.read x := by rw [read_write, if_neg (by omega)]

@[simp] theorem readBytes_length (m : Memory) (a n : Nat) : (m.readBytes a n).length = n := by simp [Memory.readBytes]

theorem readBytes_getD (m : Memory) (a n k : Nat) (h : k < n) (d : Byte) : (m.readBytes a n).getD k d = m.read (a + k) := by
  simp [Memory.readBytes, List.getD_eq_getElem?_getD, h]

/-- Bytes read back from where they were written (R17). -/
theorem readBytes_write (m : Memory) (a : Nat) (bs : List Byte) : (m.write a bs).readBytes a bs.length = bs := by
  apply List.ext_getElem (by simp)
  intro k h1 h2
  have hk : k < bs.length := by simpa using h1
  have h := readBytes_getD (m.write a bs) a bs.length k hk 0
  rw [List.getD_eq_getElem _ _ h1] at h
  rw [h, read_write, if_pos (by omega), show a + k - a = k by omega, List.getD_eq_getElem _ _ hk]

theorem readBytes_write_of_length (m : Memory) (a n : Nat) (bs : List Byte) (h : bs.length = n) :
    (m.write a bs).readBytes a n = bs := by subst h; exact readBytes_write m a bs

/-- A part of a range of bytes (R98). -/
theorem readBytes_slice (m : Memory) (a n i k : Nat) (h : i + k ≤ n) :
    ((m.readBytes a n).drop i).take k = m.readBytes (a + i) k := by
  apply List.ext_getElem
  · simp; omega
  · intro j h1 h2
    have hj : j < k := by simpa using h2
    simp [Memory.readBytes, Nat.add_assoc]

/-- Memories in canonical form are kept in it by a write inside the memory (assumption 5). -/
theorem write_wf (size : Nat) (m : Memory) (a : Nat) (bs : List Byte) (h : Memory.wf size m) (hb : bs ≠ [] → a + bs.length ≤ size) :
    Memory.wf size (m.write a bs) := by
  obtain ⟨hs, hc⟩ := h
  unfold Memory.write
  refine ⟨?_, ?_⟩
  · rw [List.pairwise_append]
    refine ⟨hs.filter _, ?_, ?_⟩
    · rw [List.pairwise_append]
      refine ⟨cellsOf_sorted a bs, hs.filter _, ?_⟩
      intro x hx y hy
      have h1 := cellsOf_bounds a bs x hx
      have h2 := (List.mem_filter.mp hy).2
      simp at h2; omega
    · intro x hx y hy
      have h1 := (List.mem_filter.mp hx).2
      simp only [decide_eq_true_eq] at h1
      rcases List.mem_append.mp hy with hy | hy
      · have h2 := cellsOf_bounds a bs y hy; omega
      · have h2 := (List.mem_filter.mp hy).2
        simp only [decide_eq_true_eq] at h2; omega
  · intro c hcm
    rcases List.mem_append.mp hcm with hcm | hcm
    · exact hc c (List.mem_filter.mp hcm).1
    · rcases List.mem_append.mp hcm with hcm | hcm
      · have h1 := cellsOf_bounds a bs c hcm
        have hne : bs ≠ [] := by rintro rfl; simp at h1; omega
        have := hb hne
        exact ⟨h1.2.2, by omega⟩
      · exact hc c (List.mem_filter.mp hcm).1

theorem read_eq_zero_of_lt (m : Memory) (a : Nat) (h : ∀ c ∈ m, a < c.1) : Memory.read m a = 0 := by
  have := read_append m [] a fun c hc => by have := h c hc; omega
  simpa using this

/-- Canonical memories that read the same everywhere are the same data. -/
theorem wf_ext (size : Nat) (m n : Memory) (hm : Memory.wf size m) (hn : Memory.wf size n)
    (h : ∀ a, m.read a = n.read a) : m = n := by
  induction m generalizing n with
  | nil =>
    cases n with
    | nil => rfl
    | cons c n =>
      have h0 := h c.1
      simp [Memory.read] at h0
      exact absurd h0.symm (hn.2 c (by simp)).1
  | cons x m ih =>
    cases n with
    | nil =>
      have h0 := h x.1
      simp [Memory.read] at h0
      exact absurd h0 (hm.2 x (by simp)).1
    | cons y n =>
      have hms := List.pairwise_cons.mp hm.1
      have hns := List.pairwise_cons.mp hn.1
      have hxy : x.1 = y.1 := by
        rcases Nat.lt_trichotomy x.1 y.1 with hlt | heq | hgt
        · have h0 := h x.1
          rw [read_eq_zero_of_lt (y :: n) x.1] at h0
          · simp [Memory.read] at h0
            exact absurd h0 (hm.2 x (by simp)).1
          · intro c hc
            rcases List.mem_cons.mp hc with rfl | hc
            · exact hlt
            · have := hns.1 c hc; omega
        · exact heq
        · have h0 := h y.1
          rw [read_eq_zero_of_lt (x :: m) y.1] at h0
          · simp [Memory.read] at h0
            exact absurd h0.symm (hn.2 y (by simp)).1
          · intro c hc
            rcases List.mem_cons.mp hc with rfl | hc
            · exact hgt
            · have := hms.1 c hc; omega
      have hx2 : x.2 = y.2 := by
        have h0 := h x.1
        simpa [Memory.read, hxy] using h0
      have hx : x = y := Prod.ext hxy hx2
      subst hx
      congr 1
      refine ih n ⟨hms.2, fun c hc => hm.2 c (by simp [hc])⟩ ⟨hns.2, fun c hc => hn.2 c (by simp [hc])⟩ ?_
      intro a
      by_cases ha : x.1 = a
      · rw [read_eq_zero_of_lt m a (fun c hc => by have := hms.1 c hc; omega),
          read_eq_zero_of_lt n a (fun c hc => by have := hns.1 c hc; omega)]
      · have h0 := h a
        simpa [Memory.read, ha] using h0

/-- The empty memory is in canonical form. -/
theorem nil_wf (size : Nat) : Memory.wf size [] := ⟨List.Pairwise.nil, by simp⟩

end Sys2Proof.Machine
end

