-- ==== Sys2Proof/Laws/Ops.lean ====
section
/-! SUPPORT. The shared operations: checks and their order, what a plan that succeeds has passed, and that a command's
completion always answers a next state. -/

namespace Sys2Proof.Machine

/-! ### Checks -/

theorem check_ok {p : Prop} [Decidable p] {c : ErrorCode} {u : Unit} : check p c = .ok u ↔ ¬p := by
  unfold check; split <;> simp_all

theorem check_of_not {p : Prop} [Decidable p] (c : ErrorCode) (h : ¬p) : check p c = .ok () := if_neg h

theorem check_of {p : Prop} [Decidable p] (c : ErrorCode) (h : p) : check p c = .error c := if_pos h

@[simp] theorem ok_bind {ε α β : Type} (a : α) (f : α → Except ε β) : (Except.ok a >>= f) = f a := rfl

@[simp] theorem error_bind {ε α β : Type} (e : ε) (f : α → Except ε β) : (Except.error e >>= f) = .error e := rfl

@[simp] theorem pure_ok {ε α : Type} (a : α) : (pure a : Except ε α) = .ok a := rfl

/-- A bind succeeds exactly when both parts do. -/
theorem bind_ok {ε α β : Type} {x : Except ε α} {f : α → Except ε β} {b : β} :
    (x >>= f) = .ok b ↔ ∃ a, x = .ok a ∧ f a = .ok b := by cases x <;> simp

/-- A bind fails exactly when its first part does, or the first succeeds and the second fails. -/
theorem bind_error {ε α β : Type} {x : Except ε α} {f : α → Except ε β} {e : ε} :
    (x >>= f) = .error e ↔ x = .error e ∨ ∃ a, x = .ok a ∧ f a = .error e := by cases x <;> simp

theorem check_bind {α : Type} (p : Prop) [Decidable p] (c : ErrorCode) (f : Unit → Except ErrorCode α) :
    (check p c >>= f) = if p then .error c else f () := by unfold check; split <;> rfl

theorem checkWindows_ok_iff {s : State} {u : Unit} : checkWindows s = .ok u ↔ windowsOk s := by
  unfold checkWindows
  simp only [bind_ok, check_ok]
  unfold windowsMisaligned windowsOutOfRange windowsOverlap windowsOk
  constructor
  · rintro ⟨_, h1, _, h2, h3⟩
    refine ⟨by omega, by omega, by omega⟩
  · rintro ⟨h1, h2, h3⟩
    exact ⟨(), by omega, (), by omega, by omega⟩

theorem checkWindows_of_ok {s : State} (h : windowsOk s) : checkWindows s = .ok () := checkWindows_ok_iff.mpr h

theorem kernelChecks_ok_iff {w : WordSize} {nb a b : Nat} {s : State} {u : Unit} :
    kernelChecks w nb a b s = .ok u ↔ nb ≤ bitsOf w ∧ windowsOk s ∧ a ≤ srcSize s ∧ b ≤ dstSize s := by
  unfold kernelChecks
  simp only [bind_ok, check_ok, checkWindows_ok_iff]
  constructor
  · rintro ⟨_, h1, _, h2, _, h3, h4⟩
    exact ⟨by omega, h2, by omega, by omega⟩
  · rintro ⟨h1, h2, h3, h4⟩
    exact ⟨(), by omega, (), h2, (), by omega, by omega⟩

/-! ### A command's plan -/

/-- What a command decides before it ends: the first failing check's code, or its effects. -/
def planOf (i : Instr) (s : State) : Except ErrorCode Result :=
  match i with
  | .pack32 nb => packPlan .w32 nb s
  | .pack64 nb => packPlan .w64 nb s
  | .unpack32 nb => unpackPlan .w32 nb s
  | .unpack64 nb => unpackPlan .w64 nb s
  | .dpack32 nb => dpackPlan .w32 nb s
  | .dpack64 nb => dpackPlan .w64 nb s
  | .dunpack32 nb => dunpackPlan .w32 nb s
  | .dunpack64 nb => dunpackPlan .w64 nb s
  | .packints32 => packIntsPlan .w32 false s
  | .packints64 => packIntsPlan .w64 false s
  | .dpackints32 => packIntsPlan .w32 true s
  | .dpackints64 => packIntsPlan .w64 true s
  | .unpackints32 => unpackIntsPlan .w32 s
  | .unpackints64 => unpackIntsPlan .w64 s
  | .serialize => serializePlan s
  | .deserialize => deserializePlan s

/-- Every command's completion is its plan, finished by the shared operation (R73). -/
theorem exec_eq_finish (i : Instr) (s : State) : exec i s = finish (planOf i s) s := by cases i <;> rfl

/-- The state that an outcome goes on with. -/
def nextOr (d : State) : Host.Outcome State Fault Refusal → State
  | .next t => t
  | .fault _ => d
  | .refused _ => d

theorem exec_next (i : Instr) (s : State) : exec i s = .next (nextOr s (exec i s)) := by
  rw [exec_eq_finish]; cases planOf i s <;> rfl

/-- What a completion can be: the plan's error raised, or its result performed. -/
theorem exec_cases {i : Instr} {s t : State} (h : exec i s = .next t) :
    (∃ c, planOf i s = .error c ∧ t = raiseError c s) ∨ (∃ r, planOf i s = .ok r ∧ t = succeed r s) := by
  rw [exec_eq_finish] at h
  cases hp : planOf i s with
  | error c => rw [hp] at h; exact .inl ⟨c, rfl, (Host.Outcome.next.inj h).symm⟩
  | ok r => rw [hp] at h; exact .inr ⟨r, rfl, (Host.Outcome.next.inj h).symm⟩

theorem exec_of_plan_ok {i : Instr} {s : State} {r : Result} (h : planOf i s = .ok r) : exec i s = .next (succeed r s) := by
  rw [exec_eq_finish, h]; rfl

theorem exec_of_plan_error {i : Instr} {s : State} {c : ErrorCode} (h : planOf i s = .error c) :
    exec i s = .next (raiseError c s) := by rw [exec_eq_finish, h]; rfl

theorem plan_pack (w : WordSize) (nb : Nat) (s : State) : planOf (packInstr w nb) s = packPlan w nb s := by cases w <;> rfl
theorem plan_unpack (w : WordSize) (nb : Nat) (s : State) : planOf (unpackInstr w nb) s = unpackPlan w nb s := by cases w <;> rfl
theorem plan_dpack (w : WordSize) (nb : Nat) (s : State) : planOf (dpackInstr w nb) s = dpackPlan w nb s := by cases w <;> rfl
theorem plan_dunpack (w : WordSize) (nb : Nat) (s : State) : planOf (dunpackInstr w nb) s = dunpackPlan w nb s := by
  cases w <;> rfl
theorem plan_packInts (w : WordSize) (d : Bool) (s : State) : planOf (packIntsInstr w d) s = packIntsPlan w d s := by
  cases w <;> cases d <;> rfl
theorem plan_unpackInts (w : WordSize) (s : State) : planOf (unpackIntsInstr w) s = unpackIntsPlan w s := by cases w <;> rfl

/-! ### What the core reads and writes -/

@[simp] theorem coreRead_length (s : State) (n : Nat) : (coreRead s n).length = n := by unfold coreRead; split <;> simp

@[simp] theorem coreBytes_length (s : State) (bs : List Byte) : (coreBytes s bs).length = bs.length := by
  unfold coreBytes; split <;> simp

theorem coreRead_of_not_raced {s : State} (h : s.raced = false) (n : Nat) : coreRead s n = s.mem.readBytes (srcBase s) n := by
  simp [coreRead, h]

theorem coreBytes_of_not_raced {s : State} (h : s.raced = false) (bs : List Byte) : coreBytes s bs = bs := by
  simp [coreBytes, h]

theorem drawsAfter_of_not_raced {s : State} (h : s.raced = false) : drawsAfter s = s.draws := by simp [drawsAfter, h]

/-- A command that succeeds without a hazard, in full. -/
theorem succeed_of_not_raced {s : State} (h : s.raced = false) (r : Result) :
    succeed r s = { s with
      mem := s.mem.write (dstBase s) r.bytes
      seedLo := seedLoAfter s r.seed
      seedHi := seedHiAfter s r.seed
      resLen := BitVec.ofNat 64 r.len
      status := s.status.completed .none } := by
  simp [succeed, coreBytes_of_not_raced h, drawsAfter_of_not_raced h, h]

/-- A command that fails without a hazard, in full (R263). -/
theorem raiseError_of_not_raced {s : State} (h : s.raced = false) (c : ErrorCode) :
    raiseError c s = { s with status := s.status.completed c, resLen := 0 } := by
  simp [raiseError, drawsAfter_of_not_raced h, h]

/-! ### What a plan that succeeds says -/

theorem packPlan_ok_iff {w : WordSize} {nb : Nat} {s : State} {r : Result} :
    packPlan w nb s = .ok r ↔ (nb ≤ bitsOf w ∧ windowsOk s ∧ blockBytes w ≤ srcSize s ∧ 16 * nb ≤ dstSize s) ∧
      r = { len := 16 * nb, bytes := packBits nb (sourceBlock w s), seed := none } := by
  unfold packPlan
  simp only [bind_ok, kernelChecks_ok_iff, pure_ok, Except.ok.injEq, exists_const, eq_comm (b := r)]

theorem unpackPlan_ok_iff {w : WordSize} {nb : Nat} {s : State} {r : Result} :
    unpackPlan w nb s = .ok r ↔ (nb ≤ bitsOf w ∧ windowsOk s ∧ 16 * nb ≤ srcSize s ∧ blockBytes w ≤ dstSize s) ∧
      r = { len := blockBytes w, bytes := elementBytes (bytesOf w) (unpackBits nb (coreRead s (16 * nb))), seed := none } := by
  unfold unpackPlan
  simp only [bind_ok, kernelChecks_ok_iff, pure_ok, Except.ok.injEq, exists_const, eq_comm (b := r)]

theorem dpackPlan_ok_iff {w : WordSize} {nb : Nat} {s : State} {r : Result} :
    dpackPlan w nb s = .ok r ↔ (nb ≤ bitsOf w ∧ windowsOk s ∧ blockBytes w ≤ srcSize s ∧ 16 * nb ≤ dstSize s) ∧
      r = { len := 16 * nb, bytes := packBits nb (deltaEnc w (seedLast w s) (sourceBlock w s)),
            seed := some (seedOf w (sourceBlock w s)) } := by
  unfold dpackPlan
  simp only [bind_ok, kernelChecks_ok_iff, pure_ok, Except.ok.injEq, exists_const, eq_comm (b := r)]

theorem dunpackPlan_ok_iff {w : WordSize} {nb : Nat} {s : State} {r : Result} :
    dunpackPlan w nb s = .ok r ↔ (nb ≤ bitsOf w ∧ windowsOk s ∧ 16 * nb ≤ srcSize s ∧ blockBytes w ≤ dstSize s) ∧
      r = { len := blockBytes w,
            bytes := elementBytes (bytesOf w) (deltaDec w (seedLast w s) (unpackBits nb (coreRead s (16 * nb)))),
            seed := some (seedOf w (deltaDec w (seedLast w s) (unpackBits nb (coreRead s (16 * nb))))) } := by
  unfold dunpackPlan
  simp only [bind_ok, kernelChecks_ok_iff, pure_ok, Except.ok.injEq, exists_const, eq_comm (b := r)]

theorem packIntsPlan_ok_iff {w : WordSize} {d : Bool} {s : State} {r : Result} :
    packIntsPlan w d s = .ok r ↔
      (windowsOk s ∧ srcSize s % bytesOf w = 0 ∧ srcSize s / bytesOf w ≤ 2 ^ 32 - 1 ∧
        imageSize (encodeFn w (windowElements w s) d) ≤ dstSize s) ∧
      r = { len := imageSize (encodeFn w (windowElements w s) d), bytes := imageEncode (encodeFn w (windowElements w s) d),
            seed := none } := by
  unfold packIntsPlan windowElements windowBytes
  simp only [bind_ok, check_ok, checkWindows_ok_iff, pure_ok, Except.ok.injEq, exists_const, eq_comm (b := r), not_or,
    not_not, not_lt, gt_iff_lt, and_assoc, ne_eq]

theorem unpackIntsPlan_ok_iff {w : WordSize} {s : State} {r : Result} :
    unpackIntsPlan w s = .ok r ↔ windowsOk s ∧ ∃ C, imageDecode (windowBytes s) = .ok C ∧ C.word = w ∧
      bytesOf w * C.count ≤ dstSize s ∧
      r = { len := bytesOf w * C.count, bytes := elementBytes (bytesOf w) (decodeFn C), seed := none } := by
  unfold unpackIntsPlan windowBytes
  simp only [bind_ok, check_ok, checkWindows_ok_iff, pure_ok, Except.ok.injEq, exists_const, eq_comm (b := r),
    not_not, not_lt, ne_eq]

theorem serializePlan_ok_iff {s : State} {r : Result} :
    serializePlan s = .ok r ↔ windowsOk s ∧ ∃ C, imageDecode (windowBytes s) = .ok C ∧ wireSize C ≤ dstSize s ∧
      r = { len := wireSize C, bytes := wireEncode C, seed := none } := by
  unfold serializePlan windowBytes
  simp only [bind_ok, check_ok, checkWindows_ok_iff, pure_ok, Except.ok.injEq, exists_const, eq_comm (b := r),
    not_lt]

theorem deserializePlan_ok_iff {s : State} {r : Result} :
    deserializePlan s = .ok r ↔ windowsOk s ∧ ∃ C, wireDecode (windowBytes s) = .ok C ∧ imageSize C ≤ dstSize s ∧
      r = { len := imageSize C, bytes := imageEncode C, seed := none } := by
  unfold deserializePlan windowBytes
  simp only [bind_ok, check_ok, checkWindows_ok_iff, pure_ok, Except.ok.injEq, exists_const, eq_comm (b := r),
    not_lt]

end Sys2Proof.Machine
end

