-- ==== Sys2Proof/Laws/Formats.lean ====
section
/-! SUPPORT. Containers, images and wire bytes: lengths, and what the decoders' success says. -/

namespace Sys2Proof.Machine

/-- Every block has the bytes its width asks for (R106, condition 3). -/
abbrev sized (bs : List (Nat × List Byte)) : Prop := ∀ b ∈ bs, b.2.length = 16 * b.1

theorem flatMap_length_of_sized (bs : List (Nat × List Byte)) (h : sized bs) :
    (bs.flatMap (·.2)).length = 16 * (bs.map (·.1)).sum := by
  induction bs with
  | nil => rfl
  | cons b bs ih =>
    have hb := h b (by simp)
    have := ih fun x hx => h x (by simp [hx])
    simp only [List.flatMap_cons, List.length_append, List.map_cons, List.sum_cons, hb, this]
    ring

@[simp] theorem imageHeader_length (C : Container) : (imageHeader C).length = 16 := by simp [imageHeader]

theorem imageTable_length (C : Container) : (imageTable C).length = pad16 C.blocks.length := by
  have := pad16_ge C.blocks.length
  simp [imageTable]; omega

/-- An image has S(C) bytes (R114). -/
theorem imageEncode_length (C : Container) (h : sized C.blocks) : (imageEncode C).length = imageSize C := by
  simp only [imageEncode, List.length_append, imageHeader_length, imageTable_length, flatMap_length_of_sized _ h, imageSize,
    widthSum]

/-- The wire bytes are WS(C) (R122). -/
theorem wireEncode_length (C : Container) (h : sized C.blocks) : (wireEncode C).length = wireSize C := by
  have hr : ∀ bs : List (Nat × List Byte), sized bs → (bs.flatMap wireRecord).length = (bs.map fun b => 5 + 16 * b.1).sum := by
    intro bs hbs
    induction bs with
    | nil => rfl
    | cons b bs ih =>
      have hb := hbs b (by simp)
      have := ih fun x hx => hbs x (by simp [hx])
      simp only [List.flatMap_cons, List.length_append, List.map_cons, List.sum_cons, this, wireRecord, List.length_cons,
        toLE_length, hb]
      ring
  simp only [wireEncode, List.length_append, toLE_length, List.length_cons, List.length_nil, hr _ h, wireSize]

/-! ### Reading blocks -/

@[simp] theorem splitBlocks_length (ws : List Nat) (L : List Byte) : (splitBlocks ws L).length = ws.length := by
  induction ws generalizing L with
  | nil => rfl
  | cons w ws ih => simp [splitBlocks, ih]

theorem splitBlocks_widths (ws : List Nat) (L : List Byte) : (splitBlocks ws L).map (·.1) = ws := by
  induction ws generalizing L with
  | nil => rfl
  | cons w ws ih => simp [splitBlocks, ih]

theorem splitBlocks_sized (ws : List Nat) (L : List Byte) (h : 16 * ws.sum ≤ L.length) : sized (splitBlocks ws L) := by
  induction ws generalizing L with
  | nil => simp [splitBlocks]
  | cons w ws ih =>
    simp only [List.sum_cons] at h
    intro b hb
    rcases List.mem_cons.mp hb with rfl | hb
    · simp; omega
    · exact ih (L.drop (16 * w)) (by simp; omega) b hb

/-- Blocks that stand one after another are read back (R113). -/
theorem splitBlocks_flatMap (bs : List (Nat × List Byte)) (more : List Byte) (h : sized bs) :
    splitBlocks (bs.map (·.1)) (bs.flatMap (·.2) ++ more) = bs := by
  induction bs with
  | nil => rfl
  | cons b bs ih =>
    have hb := h b (by simp)
    simp only [List.map_cons, List.flatMap_cons, List.append_assoc, splitBlocks]
    rw [List.take_left' hb, List.drop_left' hb, ih fun x hx => h x (by simp [hx])]

theorem wordOfTag_ok {b : Byte} {c : ErrorCode} {w : WordSize} : wordOfTag b c = .ok w ↔ b = tagByte w := by
  unfold wordOfTag tagByte
  cases w <;> by_cases h1 : b = 32 <;> by_cases h2 : b = 64 <;> simp_all [bitsOf]

theorem deltaOfFlag_ok {b : Byte} {c : ErrorCode} {d : Bool} : deltaOfFlag b c = .ok d ↔ b = flagByte d := by
  unfold deltaOfFlag flagByte
  cases d <;> by_cases h1 : b = 0 <;> by_cases h2 : b = 1 <;> simp_all

@[simp] theorem slice_length (L : List Byte) (i j : Nat) : (slice L i j).length = min (j - i) (L.length - i) := by simp [slice]

theorem mem_le_of_widths {ws : List Nat} {n : Nat} (h : ¬∃ nb ∈ ws, nb > n) : ∀ nb ∈ ws, nb ≤ n := by
  intro nb hnb; by_contra hc; exact h ⟨nb, hnb, by omega⟩

/-- An image that is read is of a valid container (R115). -/
theorem imageDecode_valid {L : List Byte} {C : Container} (h : imageDecode L = .ok C) : C.valid := by
  unfold imageDecode at h
  simp only [bind_ok, check_ok, pure_ok, Except.ok.injEq] at h
  obtain ⟨_, h1, w, _, d, _, _, _, _, h5, _, h6, _, h7, _, h8, rfl⟩ := h
  have hB := mem_le_of_widths h7
  have hc := fromLE_lt (slice L 0 4)
  have hlen : (slice L 0 4).length = 4 := by simp; omega
  rw [hlen] at hc
  have hs : sized (splitBlocks ((slice L 16 (16 + fromLE (slice L 8 12))).map (·.toNat))
      (L.drop (16 + pad16 (fromLE (slice L 8 12))))) := splitBlocks_sized _ _ (by rw [List.length_drop]; omega)
  have hpad := pad16_ge (fromLE (slice L 8 12))
  refine ⟨by simpa using hc, ?_, fun b hb => ⟨?_, hs b hb⟩⟩
  · simp only [splitBlocks_length, List.length_map, slice_length]
    rw [← not_not.mp h5]; omega
  · apply hB
    have := List.mem_map_of_mem (f := (·.1)) hb
    rwa [splitBlocks_widths] at this

/-- The records that are read are sized, of widths at most the tag, as many as asked for, and re-encode to what was read. -/
theorem wireRecords_ok {tag B : Nat} {L : List Byte} {bs : List (Nat × List Byte)} {left : List Byte}
    (h : wireRecords tag B L = .ok (bs, left)) :
    bs.length = B ∧ (∀ b ∈ bs, b.1 ≤ tag ∧ b.2.length = 16 * b.1) ∧ L = bs.flatMap wireRecord ++ left := by
  induction B generalizing L bs left with
  | zero =>
    simp only [wireRecords, Except.ok.injEq, Prod.mk.injEq] at h
    obtain ⟨rfl, rfl⟩ := h
    simp
  | succ B ih =>
    simp only [wireRecords, bind_ok, check_ok, pure_ok, Except.ok.injEq] at h
    obtain ⟨_, h5, _, h6, _, h7, _, h8, ⟨bs', left'⟩, hr, h9⟩ := h
    simp only [Prod.mk.injEq] at h9
    obtain ⟨rfl, rfl⟩ := h9
    obtain ⟨i1, i2, i3⟩ := ih hr
    have h7' := not_not.mp h7
    refine ⟨by simp [i1], ?_, ?_⟩
    · intro b hb
      rcases List.mem_cons.mp hb with rfl | hb
      · refine ⟨by simp only; omega, ?_⟩
        simp only [slice_length]; omega
      · exact i2 b hb
    · obtain ⟨x, rest, rfl⟩ : ∃ x rest, L = x :: rest := by
        cases L with
        | nil => simp at h5
        | cons x rest => exact ⟨x, rest, rfl⟩
      simp only [List.length_cons] at h5 h8
      have e1 : slice (x :: rest) 1 5 = rest.take 4 := by simp [slice]
      have e2 : (rest.take 4).length = 4 := by simp; omega
      rw [e1] at h7' h8 i3
      have e3 : toLE 4 (16 * ((x :: rest).getD 0 0).toNat) = rest.take 4 := by
        rw [← h7']; exact toLE_fromLE_of_length e2
      simp only [List.flatMap_cons, wireRecord, List.append_assoc, List.cons_append]
      rw [e3, ← i3, e1]
      have e4 : (BitVec.ofNat 8 ((x :: rest).getD 0 0).toNat : Byte) = x := by simp
      rw [e4]
      congr 1
      rw [show slice (x :: rest) 5 (5 + fromLE (rest.take 4)) = (rest.drop 4).take (fromLE (rest.take 4)) by simp [slice],
        show (x :: rest).drop (5 + fromLE (rest.take 4)) = (rest.drop 4).drop (fromLE (rest.take 4)) by
          rw [List.drop_drop, show 5 + fromLE (rest.take 4) = (4 + fromLE (rest.take 4)) + 1 by ring, List.drop_succ_cons],
        List.take_append_drop, List.take_append_drop]

/-- A stream that is read is of a valid container (R124). -/
theorem wireDecode_valid {L : List Byte} {C : Container} (h : wireDecode L = .ok C) : C.valid := by
  unfold wireDecode at h
  simp only [bind_ok, check_ok, pure_ok, Except.ok.injEq] at h
  obtain ⟨_, h1, w, _, d, _, _, h4, ⟨bs, left⟩, h5, _, _, rfl⟩ := h
  obtain ⟨i1, i2, _⟩ := wireRecords_ok h5
  have hc := fromLE_lt (slice L 0 4)
  have hlen : (slice L 0 4).length = 4 := by simp; omega
  rw [hlen] at hc
  refine ⟨by simpa using hc, by rw [i1]; exact not_not.mp h4, i2⟩

/-! ### The encoder's blocks and the decoder's elements -/

theorem encodeBlocks_sized (w : WordSize) (d : Bool) (last : Nat) (Gs : List (List Nat)) : sized (encodeBlocks w d last Gs) := by
  induction Gs generalizing last with
  | nil => simp [encodeBlocks]
  | cons G Gs ih =>
    intro b hb
    rcases List.mem_cons.mp hb with rfl | hb
    · simp [encodeBlock]
    · exact ih _ b hb

theorem encodeFn_sized (w : WordSize) (X : List Nat) (d : Bool) : sized (encodeFn w X d).blocks := encodeBlocks_sized _ _ _ _

@[simp] theorem decodeBlock_length (w : WordSize) (d : Bool) (last : Nat) (b : Nat × List Byte) :
    (decodeBlock w d last b).length = 128 := by unfold decodeBlock; split <;> simp

theorem decodeBlocks_length (w : WordSize) (d : Bool) (n last : Nat) (bs : List (Nat × List Byte)) (h : n ≤ 128 * bs.length) :
    (decodeBlocks w d n last bs).length = n := by
  induction bs generalizing n last with
  | nil => simp at h; simp [decodeBlocks, h]
  | cons b bs ih =>
    simp only [List.length_cons] at h
    simp only [decodeBlocks, List.length_append, List.length_take, decodeBlock_length]
    rw [ih (n - 128) _ (by omega)]
    omega

/-- decodeFn gives count elements (R189). -/
theorem decodeFn_length {C : Container} (h : C.valid) : (decodeFn C).length = C.count := by
  apply decodeBlocks_length
  rw [h.2.1, blockCount, ceilDiv]
  omega

/-- Every result has as many bytes as its length R says, and R is at most DST_LEN (R68, R261 check 7). -/
theorem planOf_ok {i : Instr} {s : State} {r : Result} (h : planOf i s = .ok r) :
    windowsOk s ∧ r.bytes.length = r.len ∧ r.len ≤ dstSize s ∧ (usesSeed i = false → r.seed = none) := by
  have hk : ∀ w nb, packPlan w nb s = .ok r → windowsOk s ∧ r.bytes.length = r.len ∧ r.len ≤ dstSize s ∧ r.seed = none := by
    intro w nb h
    obtain ⟨⟨_, h2, _, h4⟩, rfl⟩ := packPlan_ok_iff.mp h
    exact ⟨h2, by simp, h4, rfl⟩
  have hu : ∀ w nb, unpackPlan w nb s = .ok r → windowsOk s ∧ r.bytes.length = r.len ∧ r.len ≤ dstSize s ∧ r.seed = none := by
    intro w nb h
    obtain ⟨⟨_, h2, _, h4⟩, rfl⟩ := unpackPlan_ok_iff.mp h
    exact ⟨h2, by simp [blockBytes, Nat.mul_comm], h4, rfl⟩
  have hdk : ∀ w nb, dpackPlan w nb s = .ok r → windowsOk s ∧ r.bytes.length = r.len ∧ r.len ≤ dstSize s := by
    intro w nb h
    obtain ⟨⟨_, h2, _, h4⟩, rfl⟩ := dpackPlan_ok_iff.mp h
    exact ⟨h2, by simp, h4⟩
  have hdu : ∀ w nb, dunpackPlan w nb s = .ok r → windowsOk s ∧ r.bytes.length = r.len ∧ r.len ≤ dstSize s := by
    intro w nb h
    obtain ⟨⟨_, h2, _, h4⟩, rfl⟩ := dunpackPlan_ok_iff.mp h
    exact ⟨h2, by simp [blockBytes, Nat.mul_comm], h4⟩
  have hp : ∀ w d, packIntsPlan w d s = .ok r → windowsOk s ∧ r.bytes.length = r.len ∧ r.len ≤ dstSize s ∧ r.seed = none := by
    intro w d h
    obtain ⟨⟨h2, _, _, h4⟩, rfl⟩ := packIntsPlan_ok_iff.mp h
    exact ⟨h2, imageEncode_length _ (encodeFn_sized _ _ _), h4, rfl⟩
  have hup : ∀ w, unpackIntsPlan w s = .ok r → windowsOk s ∧ r.bytes.length = r.len ∧ r.len ≤ dstSize s ∧ r.seed = none := by
    intro w h
    obtain ⟨h2, C, hC, _, h4, rfl⟩ := unpackIntsPlan_ok_iff.mp h
    exact ⟨h2, by simp [decodeFn_length (imageDecode_valid hC)], h4, rfl⟩
  cases i with
  | pack32 nb => obtain ⟨a, b, c, d⟩ := hk _ nb h; exact ⟨a, b, c, fun _ => d⟩
  | pack64 nb => obtain ⟨a, b, c, d⟩ := hk _ nb h; exact ⟨a, b, c, fun _ => d⟩
  | unpack32 nb => obtain ⟨a, b, c, d⟩ := hu _ nb h; exact ⟨a, b, c, fun _ => d⟩
  | unpack64 nb => obtain ⟨a, b, c, d⟩ := hu _ nb h; exact ⟨a, b, c, fun _ => d⟩
  | dpack32 nb => obtain ⟨a, b, c⟩ := hdk _ nb h; exact ⟨a, b, c, fun hf => by simp [usesSeed] at hf⟩
  | dpack64 nb => obtain ⟨a, b, c⟩ := hdk _ nb h; exact ⟨a, b, c, fun hf => by simp [usesSeed] at hf⟩
  | dunpack32 nb => obtain ⟨a, b, c⟩ := hdu _ nb h; exact ⟨a, b, c, fun hf => by simp [usesSeed] at hf⟩
  | dunpack64 nb => obtain ⟨a, b, c⟩ := hdu _ nb h; exact ⟨a, b, c, fun hf => by simp [usesSeed] at hf⟩
  | packints32 => obtain ⟨a, b, c, d⟩ := hp _ _ h; exact ⟨a, b, c, fun _ => d⟩
  | packints64 => obtain ⟨a, b, c, d⟩ := hp _ _ h; exact ⟨a, b, c, fun _ => d⟩
  | dpackints32 => obtain ⟨a, b, c, d⟩ := hp _ _ h; exact ⟨a, b, c, fun _ => d⟩
  | dpackints64 => obtain ⟨a, b, c, d⟩ := hp _ _ h; exact ⟨a, b, c, fun _ => d⟩
  | unpackints32 => obtain ⟨a, b, c, d⟩ := hup _ h; exact ⟨a, b, c, fun _ => d⟩
  | unpackints64 => obtain ⟨a, b, c, d⟩ := hup _ h; exact ⟨a, b, c, fun _ => d⟩
  | serialize =>
    obtain ⟨h2, C, hC, h4, rfl⟩ := serializePlan_ok_iff.mp h
    exact ⟨h2, wireEncode_length C fun b hb => ((imageDecode_valid hC).2.2 b hb).2, h4, fun _ => rfl⟩
  | deserialize =>
    obtain ⟨h2, C, hC, h4, rfl⟩ := deserializePlan_ok_iff.mp h
    exact ⟨h2, imageEncode_length C fun b hb => ((wireDecode_valid hC).2.2 b hb).2, h4, fun _ => rfl⟩

end Sys2Proof.Machine
end

