-- ==== Sys2Proof/Laws/BlockEncoder.lean ====
section
/-! SUPPORT. Groups, padding and encoded blocks of the block encoder: lengths and elements. -/

namespace Sys2Proof.Machine

theorem blockCount_zero_iff (n : Nat) : blockCount n = 0 ↔ n = 0 := by unfold blockCount ceilDiv; omega

theorem blockCount_succ {n : Nat} (h : 0 < n) : blockCount n = blockCount (n - 128) + 1 := by
  unfold blockCount ceilDiv; omega

theorem blockCount_ge (n : Nat) : n ≤ 128 * blockCount n := by unfold blockCount ceilDiv; omega

@[simp] theorem groupsOf_length (B : Nat) (X : List Nat) : (groupsOf B X).length = B := by
  induction B generalizing X with
  | zero => rfl
  | succ B ih => simp [groupsOf, ih]

@[simp] theorem encodeBlocks_length (w : WordSize) (d : Bool) (last : Nat) (Gs : List (List Nat)) :
    (encodeBlocks w d last Gs).length = Gs.length := by
  induction Gs generalizing last with
  | nil => rfl
  | cons G Gs ih => simp [encodeBlocks, ih]

theorem padDelta_length (G : List Nat) (h : G.length ≤ 128) : (padDelta G).length = 128 := by simp [padDelta]; omega

theorem padPlain_length (G : List Nat) (h : G.length ≤ 128) : (padPlain G).length = 128 := by simp [padPlain]; omega

theorem kernelInput_length (w : WordSize) (d : Bool) (last : Nat) (G : List Nat) (h : G.length ≤ 128) :
    (kernelInput w d last G).length = 128 := by
  unfold kernelInput; split <;> simp [padDelta_length _ h, padPlain_length _ h]

theorem take_getD_of_lt (X : List Nat) (n i : Nat) (h : i < n) : (X.take n).getD i 0 = X.getD i 0 := by
  simp [List.getD_eq_getElem?_getD, h]

theorem drop_getD_add (X : List Nat) (n i : Nat) : (X.drop n).getD i 0 = X.getD (n + i) 0 := by
  simp [List.getD_eq_getElem?_getD, List.getElem?_drop]

/-- Plain padding: zeros (R183). -/
theorem padPlain_getD (G : List Nat) (i : Nat) : (padPlain G).getD i 0 = G.getD i 0 := by
  unfold padPlain
  by_cases h : i < G.length
  · simp [List.getD_eq_getElem?_getD, List.getElem?_append, h]
  · simp [List.getD_eq_getElem?_getD, List.getElem?_append, h, List.getElem?_replicate]
    split <;> rfl

/-- Delta padding: the last element, repeated (R184). -/
theorem padDelta_getD (G : List Nat) (i : Nat) (hi : i < 128) (hG : G ≠ []) :
    (padDelta G).getD i 0 = G.getD (min i (G.length - 1)) 0 := by
  have hl := List.length_pos_iff.mpr hG
  unfold padDelta
  by_cases h : i < G.length
  · rw [show min i (G.length - 1) = i by omega]
    simp [List.getD_eq_getElem?_getD, List.getElem?_append, h]
  · rw [show min i (G.length - 1) = G.length - 1 by omega]
    simp [List.getD_eq_getElem?_getD, List.getElem?_append, h, show i - G.length < 128 - G.length by omega]
    rw [List.getLast?_eq_getElem?]

/-- Block b of an encoding: its group, packed from the running seed that the group before it left (R186, R188). -/
theorem encodeBlocks_get (w : WordSize) (d : Bool) (last B : Nat) (X : List Nat) (b : Nat) (hb : b < B) :
    (encodeBlocks w d last (groupsOf B X))[b]? = some (encodeBlock (kernelInput w d
      (if b = 0 then last else (padDelta ((X.drop (128 * (b - 1))).take 128)).getD 127 0)
      ((X.drop (128 * b)).take 128))) := by
  induction B generalizing X last b with
  | zero => omega
  | succ B ih =>
    cases b with
    | zero => simp [groupsOf, encodeBlocks]
    | succ b =>
      simp only [groupsOf, encodeBlocks, List.getElem?_cons_succ]
      rw [ih _ _ b (by omega)]
      cases b with
      | zero => simp
      | succ b =>
        simp only [Nat.add_one_ne_zero, if_false, List.drop_drop]
        rw [show 128 + 128 * (b + 1 - 1) = 128 * (b + 1 + 1 - 1) by omega, show 128 + 128 * (b + 1) = 128 * (b + 1 + 1) by omega]

/-- Unpacking an encoded block gives back its kernel input: the encoder truncates nothing (R181). -/
theorem unpackBits_encodeBlock (w : WordSize) (d : Bool) (last : Nat) (G : List Nat) (h : G.length ≤ 128) :
    unpackBits (encodeBlock (kernelInput w d last G)).1 (encodeBlock (kernelInput w d last G)).2 = kernelInput w d last G :=
  unpackBits_packBits_of_lt _ _ (kernelInput_length _ _ _ _ h) (lt_two_pow_selectWidth _)

end Sys2Proof.Machine
end

