-- ==== Sys2Proof/Laws/Kernels.lean ====
section
/-! SUPPORT. Elements and packed blocks in memory, and the seed of a delta kernel. -/

namespace Sys2Proof.Machine

theorem bytesOf_pos (w : WordSize) : 0 < bytesOf w := by cases w <;> simp [bytesOf]

/-- Memories that agree on a range give the same bytes of it. -/
theorem readBytes_congr (m m' : Memory) (a n : Nat) (h : ∀ x, a ≤ x → x < a + n → m'.read x = m.read x) :
    m'.readBytes a n = m.readBytes a n := by
  unfold Memory.readBytes
  apply List.map_congr_left
  intro k hk
  simp at hk
  exact h _ (by omega) (by omega)

@[simp] theorem sourceBlock_length (w : WordSize) (s : State) : (sourceBlock w s).length = 128 := by simp [sourceBlock]

theorem sourceBlock_lt (w : WordSize) (s : State) : ∀ v ∈ sourceBlock w s, v < 2 ^ bitsOf w := by
  intro v hv; rw [← pow256_bytesOf]; exact elements_lt _ _ _ v hv

/-- Element i of the source block is element i of the array at the source base (R98). -/
theorem sourceBlock_getD (w : WordSize) (s : State) (hr : s.raced = false) (i : Nat) (hi : i < 128) :
    (sourceBlock w s).getD i 0 = elemAt w s.mem (srcBase s) i := by
  unfold sourceBlock elemAt
  rw [elements_getD _ _ _ hi, coreRead_of_not_raced hr, readBytes_slice]
  unfold blockBytes; cases w <;> simp [bytesOf] <;> omega

/-- Reading an element of an array that was written (R98). -/
theorem elemAt_write (w : WordSize) (m : Memory) (a : Nat) (V : List Nat) (i : Nat) (hi : i < V.length) :
    elemAt w (m.write a (elementBytes (bytesOf w) V)) a i = V.getD i 0 % 2 ^ bitsOf w := by
  unfold elemAt
  have hlen : (elementBytes (bytesOf w) V).length = bytesOf w * V.length := elementBytes_length _ _
  have := readBytes_slice (m.write a (elementBytes (bytesOf w) V)) a (bytesOf w * V.length) (i * bytesOf w) (bytesOf w)
    (by nlinarith)
  rw [readBytes_write_of_length _ _ _ _ hlen] at this
  rw [← this, ← elements_getD (bytesOf w) V.length _ hi 0]
  clear this hlen
  induction V generalizing i with
  | nil => simp at hi
  | cons v vs ih =>
    simp only [List.length_cons, elements, elementBytes_cons]
    cases i with
    | zero => simp [List.take_left' (toLE_length _ _), pow256_bytesOf]
    | succ i =>
      rw [List.getD_cons_succ, List.getD_cons_succ, List.drop_left' (toLE_length _ _)]
      exact ih i (by simpa using hi)

/-- Reading a stream bit of a packed block that was written (R102, R103). -/
theorem streamBit_write (m : Memory) (a nb : Nat) (V : List Nat) (h : V.length = 128) (i j : Nat) (hi : i < 128) (hj : j < nb) :
    streamBit (m.write a (packBits nb V)) a (i * nb + j) = (V.getD i 0).testBit j := by
  unfold streamBit
  have hk : i * nb + j < 128 * nb := by nlinarith
  rw [read_write, if_pos ⟨by omega, by simp; omega⟩, Nat.add_sub_cancel_left, ← fromLE_testBit, fromLE_packBits nb V h,
    streamOf_testBit nb V i j hj]

/-- The seed last element by lanes is the one in register terms (R100, R101). -/
theorem seedLast_eq_lastOf (w : WordSize) (s : State) : seedLast w s = lastOf w s := by
  unfold seedLast seedLane seedBytes lastOf
  have hlt := s.seedHi.isLt
  cases w with
  | w64 =>
    simp [lanesOf, bytesOf, List.drop_left' (toLE_length 8 _), List.take_of_length_le]; omega
  | w32 =>
    have : (lanesOf .w32 - 1) * bytesOf .w32 = 8 + 4 := rfl
    rw [this, ← List.drop_drop, List.drop_left' (toLE_length 8 _)]
    have e : toLE 8 s.seedHi.toNat = toLE 4 s.seedHi.toNat ++ toLE 4 (s.seedHi.toNat / 256^4) := toLE_add 4 4 _
    rw [e, List.drop_left' (toLE_length 4 _)]
    simp [bytesOf, List.take_of_length_le, BitVec.extractLsb'_toNat, Nat.shiftRight_eq_div_pow]

theorem lastOf_lt (w : WordSize) (s : State) : lastOf w s < 2 ^ bitsOf w := by
  cases w
  · exact (s.seedHi.extractLsb' 32 32).isLt
  · exact s.seedHi.isLt

theorem lt256_4 {x : Nat} (h : x < 2 ^ 32) : x < 256 ^ 4 := by
  have : (256 : Nat) ^ 4 = 2 ^ 32 := by norm_num
  omega

theorem lt256_8 {x : Nat} (h : x < 2 ^ 64) : x < 256 ^ 8 := by
  have : (256 : Nat) ^ 8 = 2 ^ 64 := by norm_num
  omega

/-- The seed registers after a delta kernel, in register terms (R101, R152). -/
theorem seedAfter_seedOf (w : WordSize) (s : State) (K : List Nat) (h : K.length = 128) (hK : ∀ k ∈ K, k < 2 ^ bitsOf w) :
    seedLoAfter s (some (seedOf w K)) = newSeedLo w (fun i => K.getD i 0) ∧
      seedHiAfter s (some (seedOf w K)) = newSeedHi w (fun i => K.getD i 0) := by
  have hd : ∀ n, n ≤ 128 → K.drop (128 - n) = (List.range n).map fun j => K.getD (128 - n + j) 0 := by
    intro n hn
    apply List.ext_getElem
    · simp [h]; omega
    · intro j h1 h2
      simp at h1 h2 ⊢
      rw [List.getElem?_eq_getElem (by omega)]; simp
  have hb : ∀ i, i < 128 → K.getD i 0 < 2 ^ bitsOf w := fun i hi => by rw [List.getD_eq_getElem _ _ (by omega)]; exact hK _ (List.getElem_mem _)
  unfold seedLoAfter seedHiAfter seedOf newSeedLo newSeedHi
  cases w with
  | w32 =>
    have b4 := hb 124 (by omega); have b5 := hb 125 (by omega); have b6 := hb 126 (by omega); have b7 := hb 127 (by omega)
    simp only [bitsOf] at b4 b5 b6 b7
    simp only [lanesOf]; rw [hd 4 (by omega)]
    simp only [List.range, List.range.loop, List.map, elementBytes, List.flatMap_cons, List.flatMap_nil, bytesOf, List.append_nil]
    have e1 : ∀ a b c d : List Byte, a.length = 4 → b.length = 4 → (a ++ (b ++ (c ++ d))).take 8 = a ++ b := by
      intro a b c d ha hb; rw [← List.append_assoc]; exact List.take_left' (by simp [ha, hb])
    have e2 : ∀ a b c d : List Byte, a.length = 4 → b.length = 4 → (a ++ (b ++ (c ++ d))).drop 8 = c ++ d := by
      intro a b c d ha hb; rw [← List.append_assoc]; exact List.drop_left' (by simp [ha, hb])
    rw [e1 _ _ _ _ (toLE_length _ _) (toLE_length _ _), e2 _ _ _ _ (toLE_length _ _) (toLE_length _ _), List.take_of_length_le (by simp)]
    rw [fromLE_append, fromLE_append, fromLE_toLE_of_lt (lt256_4 b4), fromLE_toLE_of_lt (lt256_4 b5), fromLE_toLE_of_lt (lt256_4 b6), fromLE_toLE_of_lt (lt256_4 b7)]
    simp
  | w64 =>
    have b6 := hb 126 (by omega); have b7 := hb 127 (by omega)
    simp only [bitsOf] at b6 b7
    simp only [lanesOf]; rw [hd 2 (by omega)]
    simp only [List.range, List.range.loop, List.map, elementBytes, List.flatMap_cons, List.flatMap_nil, bytesOf, List.append_nil]
    rw [List.take_left' (toLE_length _ _), List.drop_left' (toLE_length _ _), List.take_of_length_le (by simp), fromLE_toLE_of_lt (lt256_8 b6), fromLE_toLE_of_lt (lt256_8 b7)]
    simp

end Sys2Proof.Machine
end

