-- ==== Sys2Proof/Laws/PerInstr.lean ====
section
/-! SUPPORT. Statements about every command, one lemma for each constructor: the fixed bits of an encoded command are those
of its row of the opcode map (spec/30_encoding.md R93). -/

namespace Sys2Proof.Laws.FixedBits

/-- The mask of a row (R93): the kernel rows leave NB = bits [22:16] open. -/
def mask : Instr → Word
  | .pack32 _ => 0xFFFFFFFFFF80FFFF
  | .pack64 _ => 0xFFFFFFFFFF80FFFF
  | .unpack32 _ => 0xFFFFFFFFFF80FFFF
  | .unpack64 _ => 0xFFFFFFFFFF80FFFF
  | .dpack32 _ => 0xFFFFFFFFFF80FFFF
  | .dpack64 _ => 0xFFFFFFFFFF80FFFF
  | .dunpack32 _ => 0xFFFFFFFFFF80FFFF
  | .dunpack64 _ => 0xFFFFFFFFFF80FFFF
  | .packints32 => 0xFFFFFFFFFFFFFFFF
  | .packints64 => 0xFFFFFFFFFFFFFFFF
  | .dpackints32 => 0xFFFFFFFFFFFFFFFF
  | .dpackints64 => 0xFFFFFFFFFFFFFFFF
  | .unpackints32 => 0xFFFFFFFFFFFFFFFF
  | .unpackints64 => 0xFFFFFFFFFFFFFFFF
  | .serialize => 0xFFFFFFFFFFFFFFFF
  | .deserialize => 0xFFFFFFFFFFFFFFFF

/-- The match of a row (R93). -/
def fixed : Instr → Word
  | .pack32 _ => 0x0001
  | .pack64 _ => 0x0101
  | .unpack32 _ => 0x0002
  | .unpack64 _ => 0x0102
  | .dpack32 _ => 0x0003
  | .dpack64 _ => 0x0103
  | .dunpack32 _ => 0x0004
  | .dunpack64 _ => 0x0104
  | .packints32 => 0x0010
  | .packints64 => 0x0110
  | .dpackints32 => 0x0011
  | .dpackints64 => 0x0111
  | .unpackints32 => 0x0012
  | .unpackints64 => 0x0112
  | .serialize => 0x0020
  | .deserialize => 0x0021

/-- A command that can be written matches its row. -/
def Statement (i : Instr) : Prop := i.WellFormed → encode i &&& mask i = fixed i

theorem kernelWord_fixed (m : Word) (nb : Nat) (h : nb ≤ 127) (hm : m &&& 0xFFFFFFFFFF80FFFF = m) :
    kernelWord m nb &&& 0xFFFFFFFFFF80FFFF = m := by
  have hz : ∀ n : Fin 128, (BitVec.ofNat 64 n.val <<< 16) &&& (0xFFFFFFFFFF80FFFF : Word) = 0 := by decide
  have := hz ⟨nb, by omega⟩
  rw [kernelWord, BitVec.and_comm, BitVec.and_or_distrib_left, BitVec.and_comm, hm, BitVec.and_comm]
  simp only at this
  rw [this]
  exact BitVec.or_zero

theorem pack32 (nb : Nat) : Statement (.pack32 nb) := fun h => kernelWord_fixed _ nb h (by decide)
theorem pack64 (nb : Nat) : Statement (.pack64 nb) := fun h => kernelWord_fixed _ nb h (by decide)
theorem unpack32 (nb : Nat) : Statement (.unpack32 nb) := fun h => kernelWord_fixed _ nb h (by decide)
theorem unpack64 (nb : Nat) : Statement (.unpack64 nb) := fun h => kernelWord_fixed _ nb h (by decide)
theorem dpack32 (nb : Nat) : Statement (.dpack32 nb) := fun h => kernelWord_fixed _ nb h (by decide)
theorem dpack64 (nb : Nat) : Statement (.dpack64 nb) := fun h => kernelWord_fixed _ nb h (by decide)
theorem dunpack32 (nb : Nat) : Statement (.dunpack32 nb) := fun h => kernelWord_fixed _ nb h (by decide)
theorem dunpack64 (nb : Nat) : Statement (.dunpack64 nb) := fun h => kernelWord_fixed _ nb h (by decide)
theorem packints32 : Statement .packints32 := fun _ => by decide
theorem packints64 : Statement .packints64 := fun _ => by decide
theorem dpackints32 : Statement .dpackints32 := fun _ => by decide
theorem dpackints64 : Statement .dpackints64 := fun _ => by decide
theorem unpackints32 : Statement .unpackints32 := fun _ => by decide
theorem unpackints64 : Statement .unpackints64 := fun _ => by decide
theorem serialize : Statement .serialize := fun _ => by decide
theorem deserialize : Statement .deserialize := fun _ => by decide

end Sys2Proof.Laws.FixedBits
end

