-- ==== Sys2Proof/Laws/State.lean ====
section
/-! SUPPORT. One lemma for each field under each of the machine's updates, so that no proof unfolds a record update. -/

namespace Sys2Proof.Machine

/-! ### issue -/

@[simp] theorem issue_cmd (c : Word) (s : State) : (issue c s).cmd = c := rfl
@[simp] theorem issue_status (c : Word) (s : State) : (issue c s).status = Status.issued := rfl
@[simp] theorem issue_srcAddr (c : Word) (s : State) : (issue c s).srcAddr = s.srcAddr := rfl
@[simp] theorem issue_srcLen (c : Word) (s : State) : (issue c s).srcLen = s.srcLen := rfl
@[simp] theorem issue_dstAddr (c : Word) (s : State) : (issue c s).dstAddr = s.dstAddr := rfl
@[simp] theorem issue_dstLen (c : Word) (s : State) : (issue c s).dstLen = s.dstLen := rfl
@[simp] theorem issue_resLen (c : Word) (s : State) : (issue c s).resLen = 0 := rfl
@[simp] theorem issue_seedLo (c : Word) (s : State) : (issue c s).seedLo = s.seedLo := rfl
@[simp] theorem issue_seedHi (c : Word) (s : State) : (issue c s).seedHi = s.seedHi := rfl
@[simp] theorem issue_latch (c : Word) (s : State) : (issue c s).latch =
      { cmd := c, srcAddr := s.srcAddr, srcLen := s.srcLen, dstAddr := s.dstAddr, dstLen := s.dstLen } := rfl
@[simp] theorem issue_mem (c : Word) (s : State) : (issue c s).mem = s.mem := rfl
@[simp] theorem issue_hostHazard (c : Word) (s : State) : (issue c s).hostHazard = s.hostHazard := rfl
@[simp] theorem issue_raced (c : Word) (s : State) : (issue c s).raced = false := rfl
@[simp] theorem issue_platform (c : Word) (s : State) : (issue c s).platform = s.platform := rfl
@[simp] theorem issue_inputs (c : Word) (s : State) : (issue c s).inputs = s.inputs := rfl
@[simp] theorem issue_observed (c : Word) (s : State) : (issue c s).observed = s.observed := rfl
@[simp] theorem issue_draws (c : Word) (s : State) : (issue c s).draws = s.draws := rfl

/-! ### raiseError -/

@[simp] theorem raiseError_cmd (c : ErrorCode) (s : State) : (raiseError c s).cmd = s.cmd := rfl
@[simp] theorem raiseError_status (c : ErrorCode) (s : State) : (raiseError c s).status = s.status.completed c := rfl
@[simp] theorem raiseError_srcAddr (c : ErrorCode) (s : State) : (raiseError c s).srcAddr = s.srcAddr := rfl
@[simp] theorem raiseError_srcLen (c : ErrorCode) (s : State) : (raiseError c s).srcLen = s.srcLen := rfl
@[simp] theorem raiseError_dstAddr (c : ErrorCode) (s : State) : (raiseError c s).dstAddr = s.dstAddr := rfl
@[simp] theorem raiseError_dstLen (c : ErrorCode) (s : State) : (raiseError c s).dstLen = s.dstLen := rfl
@[simp] theorem raiseError_resLen (c : ErrorCode) (s : State) : (raiseError c s).resLen = 0 := rfl
@[simp] theorem raiseError_seedLo (c : ErrorCode) (s : State) : (raiseError c s).seedLo = s.seedLo := rfl
@[simp] theorem raiseError_seedHi (c : ErrorCode) (s : State) : (raiseError c s).seedHi = s.seedHi := rfl
@[simp] theorem raiseError_latch (c : ErrorCode) (s : State) : (raiseError c s).latch = s.latch := rfl
@[simp] theorem raiseError_mem (c : ErrorCode) (s : State) : (raiseError c s).mem = s.mem := rfl
@[simp] theorem raiseError_hostHazard (c : ErrorCode) (s : State) : (raiseError c s).hostHazard = s.hostHazard := rfl
@[simp] theorem raiseError_raced (c : ErrorCode) (s : State) : (raiseError c s).raced = false := rfl
@[simp] theorem raiseError_platform (c : ErrorCode) (s : State) : (raiseError c s).platform = s.platform := rfl
@[simp] theorem raiseError_inputs (c : ErrorCode) (s : State) : (raiseError c s).inputs = s.inputs := rfl
@[simp] theorem raiseError_observed (c : ErrorCode) (s : State) : (raiseError c s).observed = s.observed := rfl
@[simp] theorem raiseError_draws (c : ErrorCode) (s : State) : (raiseError c s).draws = drawsAfter s := rfl

/-! ### succeed -/

@[simp] theorem succeed_cmd (r : Result) (s : State) : (succeed r s).cmd = s.cmd := rfl
@[simp] theorem succeed_status (r : Result) (s : State) : (succeed r s).status = s.status.completed .none := rfl
@[simp] theorem succeed_srcAddr (r : Result) (s : State) : (succeed r s).srcAddr = s.srcAddr := rfl
@[simp] theorem succeed_srcLen (r : Result) (s : State) : (succeed r s).srcLen = s.srcLen := rfl
@[simp] theorem succeed_dstAddr (r : Result) (s : State) : (succeed r s).dstAddr = s.dstAddr := rfl
@[simp] theorem succeed_dstLen (r : Result) (s : State) : (succeed r s).dstLen = s.dstLen := rfl
@[simp] theorem succeed_resLen (r : Result) (s : State) : (succeed r s).resLen = BitVec.ofNat 64 r.len := rfl
@[simp] theorem succeed_seedLo (r : Result) (s : State) : (succeed r s).seedLo = seedLoAfter s r.seed := rfl
@[simp] theorem succeed_seedHi (r : Result) (s : State) : (succeed r s).seedHi = seedHiAfter s r.seed := rfl
@[simp] theorem succeed_latch (r : Result) (s : State) : (succeed r s).latch = s.latch := rfl
@[simp] theorem succeed_mem (r : Result) (s : State) : (succeed r s).mem =
      s.mem.write (dstBase s) (coreBytes s r.bytes) := rfl
@[simp] theorem succeed_hostHazard (r : Result) (s : State) : (succeed r s).hostHazard = s.hostHazard := rfl
@[simp] theorem succeed_raced (r : Result) (s : State) : (succeed r s).raced = false := rfl
@[simp] theorem succeed_platform (r : Result) (s : State) : (succeed r s).platform = s.platform := rfl
@[simp] theorem succeed_inputs (r : Result) (s : State) : (succeed r s).inputs = s.inputs := rfl
@[simp] theorem succeed_observed (r : Result) (s : State) : (succeed r s).observed = s.observed := rfl
@[simp] theorem succeed_draws (r : Result) (s : State) : (succeed r s).draws = drawsAfter s := rfl

/-! ### resetBlock -/

@[simp] theorem resetBlock_cmd (s : State) : (resetBlock s).cmd = 0 := rfl
@[simp] theorem resetBlock_status (s : State) : (resetBlock s).status = Status.reset := rfl
@[simp] theorem resetBlock_srcAddr (s : State) : (resetBlock s).srcAddr = 0 := rfl
@[simp] theorem resetBlock_srcLen (s : State) : (resetBlock s).srcLen = 0 := rfl
@[simp] theorem resetBlock_dstAddr (s : State) : (resetBlock s).dstAddr = 0 := rfl
@[simp] theorem resetBlock_dstLen (s : State) : (resetBlock s).dstLen = 0 := rfl
@[simp] theorem resetBlock_resLen (s : State) : (resetBlock s).resLen = 0 := rfl
@[simp] theorem resetBlock_seedLo (s : State) : (resetBlock s).seedLo = 0 := rfl
@[simp] theorem resetBlock_seedHi (s : State) : (resetBlock s).seedHi = 0 := rfl
@[simp] theorem resetBlock_latch (s : State) : (resetBlock s).latch = Latch.empty := rfl
@[simp] theorem resetBlock_mem (s : State) : (resetBlock s).mem = memoryAfterReset s := rfl
@[simp] theorem resetBlock_hostHazard (s : State) : (resetBlock s).hostHazard = s.hostHazard := rfl
@[simp] theorem resetBlock_raced (s : State) : (resetBlock s).raced = false := rfl
@[simp] theorem resetBlock_platform (s : State) : (resetBlock s).platform = s.platform := rfl
@[simp] theorem resetBlock_inputs (s : State) : (resetBlock s).inputs = s.inputs := rfl
@[simp] theorem resetBlock_observed (s : State) : (resetBlock s).observed = s.observed := rfl
@[simp] theorem resetBlock_draws (s : State) : (resetBlock s).draws = s.draws + 1 := rfl

/-! ### issuedNow -/

@[simp] theorem issuedNow_cmd (c : Word) (s : State) : (issuedNow c s).cmd = c := rfl
@[simp] theorem issuedNow_status (c : Word) (s : State) : (issuedNow c s).status = Status.issued := rfl
@[simp] theorem issuedNow_srcAddr (c : Word) (s : State) : (issuedNow c s).srcAddr = s.srcAddr := rfl
@[simp] theorem issuedNow_srcLen (c : Word) (s : State) : (issuedNow c s).srcLen = s.srcLen := rfl
@[simp] theorem issuedNow_dstAddr (c : Word) (s : State) : (issuedNow c s).dstAddr = s.dstAddr := rfl
@[simp] theorem issuedNow_dstLen (c : Word) (s : State) : (issuedNow c s).dstLen = s.dstLen := rfl
@[simp] theorem issuedNow_resLen (c : Word) (s : State) : (issuedNow c s).resLen = 0 := rfl
@[simp] theorem issuedNow_seedLo (c : Word) (s : State) : (issuedNow c s).seedLo = s.seedLo := rfl
@[simp] theorem issuedNow_seedHi (c : Word) (s : State) : (issuedNow c s).seedHi = s.seedHi := rfl
@[simp] theorem issuedNow_latch (c : Word) (s : State) : (issuedNow c s).latch =
      { cmd := c, srcAddr := s.srcAddr, srcLen := s.srcLen, dstAddr := s.dstAddr, dstLen := s.dstLen } := rfl
@[simp] theorem issuedNow_mem (c : Word) (s : State) : (issuedNow c s).mem = s.mem := rfl
@[simp] theorem issuedNow_hostHazard (c : Word) (s : State) : (issuedNow c s).hostHazard = s.hostHazard := rfl
@[simp] theorem issuedNow_raced (c : Word) (s : State) : (issuedNow c s).raced = false := rfl
@[simp] theorem issuedNow_platform (c : Word) (s : State) : (issuedNow c s).platform = s.platform := rfl
@[simp] theorem issuedNow_inputs (c : Word) (s : State) : (issuedNow c s).inputs = .coreTurn :: s.inputs := rfl
@[simp] theorem issuedNow_observed (c : Word) (s : State) : (issuedNow c s).observed = s.observed := rfl
@[simp] theorem issuedNow_draws (c : Word) (s : State) : (issuedNow c s).draws = s.draws := rfl

/-! ### STATUS -/

@[simp] theorem completed_busy (st : Status) (c : ErrorCode) : (st.completed c).busy = false := rfl
@[simp] theorem completed_done (st : Status) (c : ErrorCode) : (st.completed c).done = true := rfl
@[simp] theorem completed_err (st : Status) (c : ErrorCode) : (st.completed c).err = decide (c ≠ .none) := rfl
@[simp] theorem completed_wign (st : Status) (c : ErrorCode) : (st.completed c).wign = st.wign := rfl
@[simp] theorem completed_code (st : Status) (c : ErrorCode) : (st.completed c).code = c := rfl
@[simp] theorem writeIgnored_busy (st : Status) : st.writeIgnored.busy = st.busy := rfl
@[simp] theorem writeIgnored_done (st : Status) : st.writeIgnored.done = st.done := rfl
@[simp] theorem writeIgnored_err (st : Status) : st.writeIgnored.err = st.err := rfl
@[simp] theorem writeIgnored_wign (st : Status) : st.writeIgnored.wign = true := rfl
@[simp] theorem writeIgnored_code (st : Status) : st.writeIgnored.code = st.code := rfl

/-! ### Windows read only the latch -/

@[simp] theorem srcBase_issue (c : Word) (s : State) : srcBase (issue c s) = s.srcAddr.toNat := rfl
@[simp] theorem srcSize_issue (c : Word) (s : State) : srcSize (issue c s) = s.srcLen.toNat := rfl
@[simp] theorem dstBase_issue (c : Word) (s : State) : dstBase (issue c s) = s.dstAddr.toNat := rfl
@[simp] theorem dstSize_issue (c : Word) (s : State) : dstSize (issue c s) = s.dstLen.toNat := rfl

end Sys2Proof.Machine
end

