-- ==== Sys2Proof/Laws/Steps.lean ====
section
/-! SUPPORT. What a completion, an event and a step can do, said once. -/

namespace Sys2Proof.Machine

theorem check_error {p : Prop} [Decidable p] {c e : ErrorCode} : check p c = .error e ↔ p ∧ e = c := by
  unfold check; split <;> simp_all [eq_comm]

theorem checkWindows_error {s : State} {e : ErrorCode} (h : checkWindows s = .error e) : e ≠ .none := by
  unfold checkWindows at h
  simp only [bind_error, check_error] at h
  rcases h with ⟨_, rfl⟩ | ⟨_, _, ⟨_, rfl⟩ | ⟨_, _, _, rfl⟩⟩ <;> decide

theorem kernelChecks_error {w : WordSize} {nb a b : Nat} {s : State} {e : ErrorCode} (h : kernelChecks w nb a b s = .error e) :
    e ≠ .none := by
  unfold kernelChecks at h
  simp only [bind_error, check_error] at h
  rcases h with ⟨_, rfl⟩ | ⟨_, _, h | ⟨_, _, ⟨_, rfl⟩ | ⟨_, _, _, rfl⟩⟩⟩
  · decide
  · exact checkWindows_error h
  · decide
  · decide

theorem wordOfTag_error {b : Byte} {c e : ErrorCode} (h : wordOfTag b c = .error e) : e = c := by
  unfold wordOfTag at h; split at h <;> try split at h
  all_goals simp_all

theorem deltaOfFlag_error {b : Byte} {c e : ErrorCode} (h : deltaOfFlag b c = .error e) : e = c := by
  unfold deltaOfFlag at h; split at h <;> try split at h
  all_goals simp_all

/-- A malformed image is reported as MalformedContainer (R115). -/
theorem imageDecode_error {L : List Byte} {e : ErrorCode} (h : imageDecode L = .error e) : e = .malformedContainer := by
  unfold imageDecode at h
  simp only [bind_error, check_error, pure_ok, reduceCtorEq, and_false, exists_false, or_false] at h
  rcases h with h | ⟨_, _, h | ⟨_, _, h | ⟨_, _, h | ⟨_, _, h | ⟨_, _, h | ⟨_, _, h | ⟨_, _, h⟩⟩⟩⟩⟩⟩⟩
  · exact h.2
  · exact wordOfTag_error h
  · exact deltaOfFlag_error h
  all_goals exact h.2

theorem wireRecords_error {tag B : Nat} {L : List Byte} {e : ErrorCode} (h : wireRecords tag B L = .error e) :
    e = .corruptData := by
  induction B generalizing L with
  | zero => simp [wireRecords] at h
  | succ B ih =>
    simp only [wireRecords, bind_error, check_error, pure_ok, reduceCtorEq, and_false, exists_false, or_false] at h
    rcases h with h | ⟨_, _, h | ⟨_, _, h | ⟨_, _, h | ⟨_, _, h⟩⟩⟩⟩
    · exact h.2
    · exact h.2
    · exact h.2
    · exact h.2
    · exact ih h

/-- A stream that is not a serialization is reported as CorruptData (R124). -/
theorem wireDecode_error {L : List Byte} {e : ErrorCode} (h : wireDecode L = .error e) : e = .corruptData := by
  unfold wireDecode at h
  simp only [bind_error, check_error, pure_ok, reduceCtorEq, and_false, exists_false, or_false] at h
  rcases h with h | ⟨_, _, h | ⟨_, _, h | ⟨_, _, h | ⟨_, _, h | ⟨_, _, h⟩⟩⟩⟩⟩
  · exact h.2
  · exact wordOfTag_error h
  · exact deltaOfFlag_error h
  · exact h.2
  · exact wireRecords_error h
  · exact h.2

/-- A plan that fails has a code other than NONE. -/
theorem planOf_error {i : Instr} {s : State} {e : ErrorCode} (h : planOf i s = .error e) : e ≠ .none := by
  have hk : ∀ w nb, packPlan w nb s = .error e → e ≠ .none := by
    intro w nb h; unfold packPlan at h
    simp only [bind_error, pure_ok, reduceCtorEq, and_false, exists_false, or_false] at h
    exact kernelChecks_error h
  have hu : ∀ w nb, unpackPlan w nb s = .error e → e ≠ .none := by
    intro w nb h; unfold unpackPlan at h
    simp only [bind_error, pure_ok, reduceCtorEq, and_false, exists_false, or_false] at h
    exact kernelChecks_error h
  have hdk : ∀ w nb, dpackPlan w nb s = .error e → e ≠ .none := by
    intro w nb h; unfold dpackPlan at h
    simp only [bind_error, pure_ok, reduceCtorEq, and_false, exists_false, or_false] at h
    exact kernelChecks_error h
  have hdu : ∀ w nb, dunpackPlan w nb s = .error e → e ≠ .none := by
    intro w nb h; unfold dunpackPlan at h
    simp only [bind_error, pure_ok, reduceCtorEq, and_false, exists_false, or_false] at h
    exact kernelChecks_error h
  have hp : ∀ w d, packIntsPlan w d s = .error e → e ≠ .none := by
    intro w d h; unfold packIntsPlan at h
    simp only [bind_error, check_error, pure_ok, reduceCtorEq, and_false, exists_false, or_false] at h
    rcases h with h | ⟨_, _, h | ⟨_, _, h⟩⟩
    · exact checkWindows_error h
    · rw [h.2]; decide
    · rw [h.2]; decide
  have hup : ∀ w, unpackIntsPlan w s = .error e → e ≠ .none := by
    intro w h; unfold unpackIntsPlan at h
    simp only [bind_error, check_error, pure_ok, reduceCtorEq, and_false, exists_false, or_false] at h
    rcases h with h | ⟨_, _, h | ⟨_, _, h | ⟨_, _, h⟩⟩⟩
    · exact checkWindows_error h
    · rw [imageDecode_error h]; decide
    · rw [h.2]; decide
    · rw [h.2]; decide
  cases i with
  | pack32 nb => exact hk _ _ h
  | pack64 nb => exact hk _ _ h
  | unpack32 nb => exact hu _ _ h
  | unpack64 nb => exact hu _ _ h
  | dpack32 nb => exact hdk _ _ h
  | dpack64 nb => exact hdk _ _ h
  | dunpack32 nb => exact hdu _ _ h
  | dunpack64 nb => exact hdu _ _ h
  | packints32 => exact hp _ _ h
  | packints64 => exact hp _ _ h
  | dpackints32 => exact hp _ _ h
  | dpackints64 => exact hp _ _ h
  | unpackints32 => exact hup _ h
  | unpackints64 => exact hup _ h
  | serialize =>
    simp only [planOf, serializePlan, bind_error, check_error, pure_ok, reduceCtorEq, and_false, exists_false, or_false] at h
    rcases h with h | ⟨_, _, h | ⟨_, _, h⟩⟩
    · exact checkWindows_error h
    · rw [imageDecode_error h]; decide
    · rw [h.2]; decide
  | deserialize =>
    simp only [planOf, deserializePlan, bind_error, check_error, pure_ok, reduceCtorEq, and_false, exists_false, or_false] at h
    rcases h with h | ⟨_, _, h | ⟨_, _, h⟩⟩
    · exact checkWindows_error h
    · rw [wireDecode_error h]; decide
    · rw [h.2]; decide

/-- What a command's completion can do: raise a code other than NONE, or write a result that fits its window. -/
theorem exec_outcomes {i : Instr} {s t : State} (h : exec i s = .next t) :
    (∃ c, c ≠ .none ∧ planOf i s = .error c ∧ t = raiseError c s) ∨
      (∃ r, planOf i s = .ok r ∧ windowsOk s ∧ r.bytes.length = r.len ∧ r.len ≤ dstSize s ∧
        (usesSeed i = false → r.seed = none) ∧ t = succeed r s) := by
  rcases exec_cases h with ⟨c, hc, rfl⟩ | ⟨r, hr, rfl⟩
  · exact .inl ⟨c, planOf_error hc, hc, rfl⟩
  · obtain ⟨a, b, c, d⟩ := planOf_ok hr
    exact .inr ⟨r, hr, a, b, c, d, rfl⟩

/-- A command that ends with no error has performed its result. -/
theorem exec_succeeded {i : Instr} {s t : State} (h : exec i s = .next t) (he : t.status.err = false) :
    ∃ r, planOf i s = .ok r ∧ windowsOk s ∧ r.bytes.length = r.len ∧ r.len ≤ dstSize s ∧
      (usesSeed i = false → r.seed = none) ∧ t = succeed r s := by
  rcases exec_outcomes h with ⟨c, hc, _, rfl⟩ | h
  · simp [hc] at he
  · exact h

/-- What the completion step can do (R73): the same, whatever the command word. -/
theorem completion_outcomes {s t : State} (h : completion s = .next t) :
    (∃ c, c ≠ .none ∧ t = raiseError c s) ∨
      (∃ r, windowsOk s ∧ r.bytes.length = r.len ∧ r.len ≤ dstSize s ∧ t = succeed r s) := by
  unfold completion at h
  split at h
  · rcases exec_outcomes h with ⟨c, hc, _, rfl⟩ | ⟨r, _, a, b, c, _, rfl⟩
    · exact .inl ⟨c, hc, rfl⟩
    · exact .inr ⟨r, a, b, c, rfl⟩
  · exact .inl ⟨.illegalCommand, by decide, (Host.Outcome.next.inj h).symm⟩

/-- The completion step always answers a next state, with no command in flight. -/
theorem completion_next (s : State) : ∃ t, completion s = .next t ∧ t.status.busy = false ∧ t.status.done = true := by
  unfold completion
  split
  · next i _ =>
    refine ⟨_, exec_next i s, ?_⟩
    rcases exec_cases (exec_next i s) with ⟨c, _, h⟩ | ⟨r, _, h⟩ <;> rw [h] <;> simp
  · exact ⟨_, rfl, by simp⟩

/-- What a step can do: the core's turn when no event is left, or the next event. -/
theorem step_cases {s t : State} (h : step s = .next t) :
    (s.inputs = [] ∧ coreTurn s = .next t) ∨
      (∃ e rest, s.inputs = e :: rest ∧ handle e { s with inputs := rest } = .next t) := by
  unfold step nextEvent at h
  split at h
  · next h' => exact .inl ⟨h', h⟩
  · next e rest h' => exact .inr ⟨e, rest, h', h⟩

/-- A run goes on from the next state of its first step. -/
theorem run_next {s t : State} (h : step s = .next t) (k : Nat) : Host.Core.run core (k + 1) s = Host.Core.run core k t := by
  have h' : core.step s = .next t := h
  simp only [Host.Core.run, h']

/-- A run stops with the fault of its first step. -/
theorem run_fault {s : State} {f : Fault} (h : step s = .fault f) (k : Nat) : Host.Core.run core (k + 1) s = .fault f := by
  have h' : core.step s = .fault f := h
  simp only [Host.Core.run, h']

/-- A run stops with the refusal of its first step. -/
theorem run_refused {s : State} {f : Refusal} (h : step s = .refused f) (k : Nat) :
    Host.Core.run core (k + 1) s = .refused f := by
  have h' : core.step s = .refused f := h
  simp only [Host.Core.run, h']

/-- What the core's turn can do. -/
theorem coreTurn_cases {s t : State} (h : coreTurn s = .next t) :
    (s.status.busy = false ∧ t = s) ∨ (s.status.busy = true ∧ completion s = .next t) := by
  unfold coreTurn at h
  split at h
  · next hb => exact .inr ⟨hb, h⟩
  · next hb => exact .inl ⟨by simpa using hb, (Host.Outcome.next.inj h).symm⟩

/-- What a host register write can do: nothing, an ignored write, a new argument or seed value, or an issue. -/
theorem writeReg_cases (i : Nat) (v : Word) (s : State) :
    writeReg i v s = s ∨
    (s.status.busy = true ∧ writeReg i v s = { s with status := s.status.writeIgnored }) ∨
    (s.status.busy = false ∧ ∃ a b c d lo hi, writeReg i v s =
      { s with srcAddr := a, srcLen := b, dstAddr := c, dstLen := d, seedLo := lo, seedHi := hi }) ∨
    (s.status.busy = false ∧ writeReg i v s = issue v s) := by
  by_cases hb : s.status.busy = true
  · unfold writeReg whenIdle
    split <;> first
      | exact .inl rfl
      | exact .inr (.inl ⟨hb, if_pos hb⟩)
  · have hb' : s.status.busy = false := by simpa using hb
    unfold writeReg whenIdle
    split
    · exact .inr (.inr (.inr ⟨hb', if_neg hb⟩))
    · exact .inr (.inr (.inl ⟨hb', v, s.srcLen, s.dstAddr, s.dstLen, s.seedLo, s.seedHi, if_neg hb⟩))
    · exact .inr (.inr (.inl ⟨hb', s.srcAddr, v, s.dstAddr, s.dstLen, s.seedLo, s.seedHi, if_neg hb⟩))
    · exact .inr (.inr (.inl ⟨hb', s.srcAddr, s.srcLen, v, s.dstLen, s.seedLo, s.seedHi, if_neg hb⟩))
    · exact .inr (.inr (.inl ⟨hb', s.srcAddr, s.srcLen, s.dstAddr, v, s.seedLo, s.seedHi, if_neg hb⟩))
    · exact .inr (.inr (.inl ⟨hb', s.srcAddr, s.srcLen, s.dstAddr, s.dstLen, v, s.seedHi, if_neg hb⟩))
    · exact .inr (.inr (.inl ⟨hb', s.srcAddr, s.srcLen, s.dstAddr, s.dstLen, s.seedLo, v, if_neg hb⟩))
    · exact .inl rfl

/-- What one event can do (R269). -/
theorem handle_cases {e : Event} {s t : State} (h : handle e s = .next t) :
    (∃ addr size i, e = .regRead addr size ∧ regIndex s.platform addr size = some i ∧
      t = { s with observed := .reg addr (readReg s i) :: s.observed }) ∨
    (∃ addr size v i, e = .regWrite addr size v ∧ regIndex s.platform addr size = some i ∧ t = writeReg i v s) ∨
    (∃ addr len, e = .memRead addr len ∧ addr + len ≤ s.platform.memSize ∧
      t = { s with
        observed := .mem addr ((List.range len).map fun k => hostByte s (addr + k)) :: s.observed
        draws := s.draws + 1 }) ∨
    (∃ addr bs, e = .memWrite addr bs ∧ addr + bs.length ≤ s.platform.memSize ∧
      t = { s with
        mem := s.mem.write addr bs
        hostHazard := s.hostHazard || decide (hitsWindows s addr bs.length)
        raced := s.raced || decide (hitsWindows s addr bs.length) }) ∨
    (e = .reset ∧ t = resetBlock s) ∨ (e = .coreTurn ∧ coreTurn s = .next t) := by
  cases e with
  | regRead addr size =>
    simp only [handle, hostRegRead] at h
    split at h
    · cases h
    · next i hi => exact .inl ⟨addr, size, i, rfl, hi, (Host.Outcome.next.inj h).symm⟩
  | regWrite addr size v =>
    simp only [handle, hostRegWrite] at h
    split at h
    · cases h
    · next i hi => exact .inr (.inl ⟨addr, size, v, i, rfl, hi, (Host.Outcome.next.inj h).symm⟩)
  | memRead addr len =>
    simp only [handle, hostMemRead] at h
    split at h
    · cases h
    · exact .inr (.inr (.inl ⟨addr, len, rfl, by omega, (Host.Outcome.next.inj h).symm⟩))
  | memWrite addr bs =>
    simp only [handle, hostMemWrite] at h
    split at h
    · cases h
    · exact .inr (.inr (.inr (.inl ⟨addr, bs, rfl, by omega, (Host.Outcome.next.inj h).symm⟩)))
  | reset => exact .inr (.inr (.inr (.inr (.inl ⟨rfl, (Host.Outcome.next.inj h).symm⟩))))
  | coreTurn => exact .inr (.inr (.inr (.inr (.inr ⟨rfl, h⟩))))

end Sys2Proof.Machine
end

