-- ==== Sys2Proof/Tests/Slice0.lean ====
section
/-! SUPPORT. Tests of the model on values taken from the spec's worked vectors (spec/95_test_vectors.md, whose ids are in the
names) or worked out by hand from a rule, and for every statement with hypotheses a state that meets them. -/

namespace Sys2Proof.Tests

open Sys2Proof.Machine

set_option maxRecDepth 100000

/-! ### Well-formedness: a width that NB cannot hold is refused (R96) -/

theorem test_illformed_pack32 : Instr.wellFormed (.pack32 128) = false := by decide
theorem test_illformed_pack64 : Instr.wellFormed (.pack64 128) = false := by decide
theorem test_illformed_unpack32 : Instr.wellFormed (.unpack32 128) = false := by decide
theorem test_illformed_unpack64 : Instr.wellFormed (.unpack64 128) = false := by decide
theorem test_illformed_dpack32 : Instr.wellFormed (.dpack32 128) = false := by decide
theorem test_illformed_dpack64 : Instr.wellFormed (.dpack64 128) = false := by decide
theorem test_illformed_dunpack32 : Instr.wellFormed (.dunpack32 128) = false := by decide
theorem test_illformed_dunpack64 : Instr.wellFormed (.dunpack64 128) = false := by decide
theorem test_wellformed_127 : Instr.wellFormed (.pack32 127) = true ∧ ¬(Instr.pack32 128).WellFormed := by decide

/-! ### Decoding: words written out from the fields of R91 and the rows of R93 -/

theorem test_decode_pack32 : decode 0b000000001_0000100_0000000_0_00000001 = .error .reservedBits ∧
    decode 0b000000000_0000100_0000000_0_00000001 = .ok (.pack32 4) := by decide
theorem test_decode_pack64 : decode 0b000000000_0100001_0000000_1_00000001 = .ok (.pack64 33) := by decide
theorem test_decode_unpack32 : decode 0b000000000_0000001_0000000_0_00000010 = .ok (.unpack32 1) := by decide
theorem test_decode_unpack64 : decode 0b000000000_1000000_0000000_1_00000010 = .ok (.unpack64 64) := by decide
theorem test_decode_dpack32 : decode 0b000000000_0000001_0000000_0_00000011 = .ok (.dpack32 1) := by decide
theorem test_decode_dpack64 : decode 0b000000000_0000000_0000000_1_00000011 = .ok (.dpack64 0) := by decide
theorem test_decode_dunpack32 : decode 0b000000000_1111111_0000000_0_00000100 = .ok (.dunpack32 127) := by decide
theorem test_decode_dunpack64 : decode 0b000000000_1000000_0000000_1_00000100 = .ok (.dunpack64 64) := by decide
theorem test_decode_packints32 : decode 0b0000000_0_00010000 = .ok .packints32 := by decide
theorem test_decode_packints64 : decode 0b0000000_1_00010000 = .ok .packints64 := by decide
theorem test_decode_dpackints32 : decode 0b0000000_0_00010001 = .ok .dpackints32 := by decide
theorem test_decode_dpackints64 : decode 0b0000000_1_00010001 = .ok .dpackints64 := by decide
theorem test_decode_unpackints32 : decode 0b0000000_0_00010010 = .ok .unpackints32 := by decide
theorem test_decode_unpackints64 : decode 0b0000000_1_00010010 = .ok .unpackints64 := by decide
theorem test_decode_serialize : decode 0b0000000_0_00100000 = .ok .serialize := by decide
theorem test_decode_deserialize : decode 0b0000000_0_00100001 = .ok .deserialize := by decide

/-- Vectors X1 to X6: words that match no row, each refused by name. -/
theorem test_decode_rejects : decode 0 = .error .unknownOpcode ∧ decode 0x5 = .error .unknownOpcode ∧
    decode 0x120 = .error .wordSizeNotZero ∧ decode 0x10010 = .error .widthNotZero ∧
    decode 0x100040001 = .error .reservedHigh ∧ decode 0x201 = .error .reservedBits := by decide

theorem test_decodeTableWord : decodeTableWord 64 0x00400104 = some (.dunpack64 64) ∧ decodeTableWord 64 0 = none := by decide

/-! ### One command on a small state -/

/-- The command word `c` issued with the windows and the seed given, on the launch platform with the memory `m`. -/
def issued (c : Word) (src srcLen dst dstLen : Nat) (m : Memory) (lo hi : Word) : State :=
  issue c { State.reset with
    srcAddr := BitVec.ofNat 64 src, srcLen := BitVec.ofNat 64 srcLen
    dstAddr := BitVec.ofNat 64 dst, dstLen := BitVec.ofNat 64 dstLen
    mem := m, seedLo := lo, seedHi := hi }

/-- The state after one step. -/
def stepped (s : State) : State := nextOr s (step s)

/-- The state after the command, as `exec` gives it. -/
def done (i : Instr) (s : State) : State := nextOr s (exec i s)

/-- [3, 1, 4, 1, 5, 9, 2, 6] as 32-bit elements at 0x1000 (spec/95 section 1.1). -/
def eight : Memory :=
  [(0x1000, 3), (0x1004, 1), (0x1008, 4), (0x100C, 1), (0x1010, 5), (0x1014, 9), (0x1018, 2), (0x101C, 6)]

/-- The image of section 1.1 (vector E1) at 0x1000. -/
def imageE1 : Memory :=
  [(0x1000, 8), (0x1004, 0x20), (0x1008, 1), (0x1010, 4), (0x1020, 0x13), (0x1021, 0x14), (0x1022, 0x95), (0x1023, 0x62)]

/-- The wire bytes of the same container (vector S1) at 0x1000. -/
def wireS1 : Memory :=
  [(0x1000, 8), (0x1004, 0x20), (0x1006, 1), (0x100A, 4), (0x100B, 0x40), (0x100F, 0x13), (0x1010, 0x14), (0x1011, 0x95),
    (0x1012, 0x62)]

/-- K5. -/
theorem test_pack32_K5 : (stepped (issued 0x00040001 0x1000 512 0x8000 0x2000 eight 0 0)).mem.readBytes 0x8000 5 =
    [0x13, 0x14, 0x95, 0x62, 0] ∧ (stepped (issued 0x00040001 0x1000 512 0x8000 0x2000 eight 0 0)).resLen = 64 := by decide

/-- K15: the low 4 bits are kept. -/
theorem test_pack32_K15 : (stepped (issued 0x00040001 0x1000 512 0x8000 0x2000 [(0x1000, 0x1F)] 0 0)).mem.readBytes 0x8000 2 =
    [0x0F, 0] := by decide

/-- K12. -/
theorem test_pack64_K12 : (stepped (issued 0x00210101 0x1000 1024 0x8000 0x2000
    [(0x1000, 0xFF), (0x1001, 0xFF), (0x1002, 0xFF), (0x1003, 0xFF), (0x1004, 1), (0x1008, 1)] 0 0)).mem.readBytes 0x8000 6 =
    [0xFF, 0xFF, 0xFF, 0xFF, 3, 0] := by decide

/-- K5, unpacked. -/
theorem test_unpack32_K5 : arrayAt .w32 (stepped (issued 0x00040002 0x1000 64 0x8000 0x2000
    [(0x1000, 0x13), (0x1001, 0x14), (0x1002, 0x95), (0x1003, 0x62)] 0 0)).mem 0x8000 9 = [3, 1, 4, 1, 5, 9, 2, 6, 0] := by decide

/-- K12, unpacked. -/
theorem test_unpack64_K12 : arrayAt .w64 (stepped (issued 0x00210102 0x1000 528 0x8000 0x2000
    [(0x1000, 0xFF), (0x1001, 0xFF), (0x1002, 0xFF), (0x1003, 0xFF), (0x1004, 3)] 0 0)).mem 0x8000 3 =
    [2 ^ 33 - 1, 1, 0] := by decide

/-- By hand from R145, R103: K[126] = 7, K[127] = 9, else 0: D[126] = 7, D[127] = 2, so byte 63 is 7 + 16·2. -/
theorem test_dpack32_tail : (stepped (issued 0x00040003 0x1000 512 0x8000 0x2000 [(0x11F8, 7), (0x11FC, 9)] 0 0)).mem.read 0x803F =
    0x27 ∧ (stepped (issued 0x00040003 0x1000 512 0x8000 0x2000 [(0x11F8, 7), (0x11FC, 9)] 0 0)).seedHi =
    0x0000000900000007 := by decide

/-- DK4's first two deltas: 3 and 1 − 3 mod 2^32. -/
theorem test_dpack32_DK4 : (stepped (issued 0x00200003 0x1000 512 0x8000 0x2000 eight 0 0)).mem.readBytes 0x8000 8 =
    [3, 0, 0, 0, 0xFE, 0xFF, 0xFF, 0xFF] := by decide

/-- DK5's width on a block that ends in 5, 10: nothing is written, and the seed is updated (R147). -/
theorem test_dpack64_nb0 : (stepped (issued 0x00000103 0x1000 1024 0x8000 0 [(0x13F0, 5), (0x13F8, 10)] 0 0)).seedLo = 5 ∧
    (stepped (issued 0x00000103 0x1000 1024 0x8000 0 [(0x13F0, 5), (0x13F8, 10)] 0 0)).seedHi = 10 ∧
    (stepped (issued 0x00000103 0x1000 1024 0x8000 0 [(0x13F0, 5), (0x13F8, 10)] 0 0)).resLen = 0 := by decide

/-- DK8. -/
theorem test_dunpack32_DK8 :
    elemAt .w32 (stepped (issued 0x00000004 0x1000 0 0x8000 0x2000 [] 0x0000000900000009 0x0000123400000009)).mem 0x8000 127 =
      0x1234 ∧
    (stepped (issued 0x00000004 0x1000 0 0x8000 0x2000 [] 0x0000000900000009 0x0000123400000009)).seedLo =
      0x0000123400001234 := by decide

/-- DK10: the sum wraps. -/
theorem test_dunpack32_DK10 : elemAt .w32 (stepped (issued 0x00010004 0x1000 16 0x8000 0x2000 [(0x1000, 1)] 0
    0xFFFFFFFF00000000)).mem 0x8000 0 = 0 := by decide

/-- DK9. -/
theorem test_dunpack64_DK9 : arrayAt .w64 (stepped (issued 0x00400104 0x1000 1024 0x8000 0x2000
    [(0x1000, 10), (0x1008, 0xFB), (0x1009, 0xFF), (0x100A, 0xFF), (0x100B, 0xFF), (0x100C, 0xFF), (0x100D, 0xFF),
      (0x100E, 0xFF), (0x100F, 0xFF)] 0 0)).mem 0x8000 3 = [10, 5, 5] := by decide

/-- E1: the image of section 1.1. -/
theorem test_packints32_E1 : (stepped (issued 0x10 0x1000 32 0x8000 0x2000 eight 0 0)).mem.readBytes 0x8000 36 =
    [8, 0, 0, 0, 0x20, 0, 0, 0, 1, 0, 0, 0, 0, 0, 0, 0, 4, 0, 0, 0, 0, 0, 0, 0, 0, 0, 0, 0, 0, 0, 0, 0, 0x13, 0x14, 0x95, 0x62] ∧
    (stepped (issued 0x10 0x1000 32 0x8000 0x2000 eight 0 0)).resLen = 96 := by decide

/-- E4. -/
theorem test_packints32_E4 : (stepped (issued 0x10 0x1000 4 0x8000 0x2000 [] 0 0)).mem.readBytes 0x8000 32 =
    [1, 0, 0, 0, 0x20, 0, 0, 0, 1, 0, 0, 0] ++ List.replicate 20 0 := by decide

/-- E9's second and third elements alone, by hand: [0, 2^63] has width 64, so S = 16 + 16 + 1024. -/
theorem test_packints64 : (stepped (issued 0x110 0x1000 16 0x8000 0x2000 [(0x100F, 0x80)] 0 0)).resLen = 1056 ∧
    (stepped (issued 0x110 0x1000 16 0x8000 0x2000 [(0x100F, 0x80)] 0 0)).mem.readBytes 0x8020 16 =
      List.replicate 15 0 ++ [0x80] := by decide

/-- E11: deltas [5, 0, 0, ...], width 3. -/
theorem test_dpackints32_E11 : (stepped (issued 0x11 0x1000 12 0x8000 0x2000 [(0x1000, 5), (0x1004, 5), (0x1008, 5)] 0 0)).resLen =
    80 ∧ (stepped (issued 0x11 0x1000 12 0x8000 0x2000 [(0x1000, 5), (0x1004, 5), (0x1008, 5)] 0 0)).mem.readBytes 0x8020 2 =
    [5, 0] := by decide

/-- E10: [10, 5] has the deltas 10 and 2^64 − 5. -/
theorem test_dpackints64_E10 : (stepped (issued 0x111 0x1000 16 0x8000 0x2000 [(0x1000, 10), (0x1008, 5)] 0 0)).resLen = 1056 ∧
    (stepped (issued 0x111 0x1000 16 0x8000 0x2000 [(0x1000, 10), (0x1008, 5)] 0 0)).mem.readBytes 0x8020 16 =
      [10, 0, 0, 0, 0, 0, 0, 0, 0xFB, 0xFF, 0xFF, 0xFF, 0xFF, 0xFF, 0xFF, 0xFF] := by decide

/-- E1, decoded. -/
theorem test_unpackints32_E1 : arrayAt .w32 (stepped (issued 0x12 0x1000 96 0x8000 0x2000 imageE1 0 0)).mem 0x8000 8 =
    [3, 1, 4, 1, 5, 9, 2, 6] ∧ (stepped (issued 0x12 0x1000 96 0x8000 0x2000 imageE1 0 0)).resLen = 32 := by decide

/-- X19: the E1 image is no 64-bit container. -/
theorem test_unpackints64_X19 : (stepped (issued 0x112 0x1000 96 0x8000 0x2000 imageE1 0 0)).status.toWord = 0x0406 := by decide

/-- The image of vector E8 cut to three elements, decoded: 7, 7, 7 (R189). -/
theorem test_unpackints64_delta : arrayAt .w64 (stepped (issued 0x112 0x1000 80 0x8000 0x2000
    [(0x1000, 3), (0x1004, 0x40), (0x1005, 1), (0x1008, 1), (0x1010, 3), (0x1020, 7)] 0 0)).mem 0x8000 3 = [7, 7, 7] := by decide

/-- S1. -/
theorem test_serialize_S1 : (stepped (issued 0x20 0x1000 96 0x8000 0x2000 imageE1 0 0)).mem.readBytes 0x8000 20 =
    [8, 0, 0, 0, 0x20, 0, 1, 0, 0, 0, 4, 0x40, 0, 0, 0, 0x13, 0x14, 0x95, 0x62, 0] ∧
    (stepped (issued 0x20 0x1000 96 0x8000 0x2000 imageE1 0 0)).resLen = 79 := by decide

/-- X22: a width above the tag. -/
theorem test_serialize_X22 : (stepped (issued 0x20 0x1000 96 0x8000 0x2000
    [(0x1000, 8), (0x1004, 0x20), (0x1008, 1), (0x1010, 0x21)] 0 0)).status.toWord = 0x0806 := by decide

/-- S2. -/
theorem test_deserialize_S2 : (stepped (issued 0x21 0x1000 79 0x8000 0x2000 wireS1 0 0)).mem.readBytes 0x8000 36 =
    [8, 0, 0, 0, 0x20, 0, 0, 0, 1, 0, 0, 0, 0, 0, 0, 0, 4, 0, 0, 0, 0, 0, 0, 0, 0, 0, 0, 0, 0, 0, 0, 0, 0x13, 0x14, 0x95, 0x62] ∧
    (stepped (issued 0x21 0x1000 79 0x8000 0x2000 wireS1 0 0)).resLen = 96 := by decide

/-- X14: a truncated stream; nothing is written. -/
theorem test_deserialize_X14 : (stepped (issued 0x21 0x1000 78 0x8000 0x2000 wireS1 0 0)).status.toWord = 0x0306 ∧
    (stepped (issued 0x21 0x1000 78 0x8000 0x2000 wireS1 0 0)).mem = wireS1 := by decide

/-! ### Errors and their order -/

theorem test_error_X1 : (stepped (issued 0 0x1000 512 0x8000 0x2000 [] 0 0)).status.toWord = 0x0606 := by decide
theorem test_error_X9 : (stepped (issued 0x00210001 0x1008 512 0x8000 0x2000 [] 0 0)).status.toWord = 0x0106 := by decide
theorem test_error_X11 : (stepped (issued 0x00000001 0x1000 512 0x8004 0 [] 0 0)).status.toWord = 0x0706 := by decide
theorem test_error_X12 : (stepped (issued 0x00040001 0x1000 512 0xFFF0 0x20 [] 0 0)).status.toWord = 0x0A06 := by decide
theorem test_error_X13 : (stepped (issued 0x00040001 0x1000 512 0x11F0 0x2000 [] 0 0)).status.toWord = 0x0906 := by decide
theorem test_error_X24 : (stepped (issued 0x10 0x1000 6 0x8000 0x2000 [] 0 0)).status.toWord = 0x0506 := by decide
theorem test_error_X25 : (stepped (issued 0x00040001 0x1000 511 0x8000 0x2000 [] 0 0)).status.toWord = 0x0206 := by decide
theorem test_error_X30 : (stepped (issued 0x00010003 0x1000 512 0x8000 0 [] 0x0000000200000001 0x0000000400000003)).seedHi =
    0x0000000400000003 := by decide

/-! ### The register block -/

/-- G5. -/
theorem test_issue_G5 : readReg (writeReg 1 0x00040001 State.reset) 2 = 1 ∧ readReg (writeReg 1 0x00040001 State.reset) 1 = 0x00040001 := by
  decide

/-- G6: 0x9 while busy, 0xA after a successful completion. -/
theorem test_busy_write_G6 : readReg (writeReg 4 7 (issued 0x00040001 0x1000 512 0x8000 0x2000 [] 0 0)) 2 = 9 ∧
    readReg (stepped (writeReg 4 7 (issued 0x00040001 0x1000 512 0x8000 0x2000 [] 0 0))) 2 = 0xA := by decide

/-- G4. -/
theorem test_reserved_G4 : readReg (writeReg 10 5 State.reset) 10 = 0 := by decide

/-! ### States that meet the hypotheses of the statements -/

theorem succeeds_done (i : Instr) (s : State) (h : s.raced = false) (he : (done i s).status.err = false) : succeeds i s (done i s) :=
  ⟨h, exec_next i s, he⟩

/-- A PACK32 32 in flight on `eight`: its windows serve every kernel command of word size 32. -/
def k32 : State := issued 0x00200001 0x1000 512 0x8000 0x2000 eight 0 0

/-- A PACK64 64 in flight on `eight`: its windows serve every kernel command. -/
def k64 : State := issued 0x00400101 0x1000 1024 0x8000 0x2000 eight 0 0

/-- The container of spec/95 section 1.1. -/
def container1 : Container := encodeFn .w32 [3, 1, 4, 1, 5, 9, 2, 6] false

/-- An image in a source window. -/
def onImage (c : Word) : State := issued c 0x1000 96 0x8000 0x2000 imageE1 0 0

/-- Wire bytes in a source window. -/
def onWire : State := issued 0x21 0x1000 79 0x8000 0x2000 wireS1 0 0

/-- A command that fails: a source window one byte too short (vector X25). -/
def failing : State := issued 0x00040001 0x1000 511 0x8000 0x2000 eight 0 0

theorem witness_DecodeOfEncode : (Instr.pack64 127).WellFormed ∧ (Instr.dunpack32 0).WellFormed ∧ Instr.deserialize.WellFormed := by
  decide

theorem witness_EncodeOfDecode : decode 0x00400104 = .ok (.dunpack64 64) ∧ decode 0x007F0001 = .ok (.pack32 127) := by decide

theorem witness_UnmatchedWords : (∃ e, decode (issued 0x00000120 0x1000 96 0x8000 0x2000 [] 0 0).latch.cmd = .error e) ∧
    (0x100040001 : Word).extractLsb' 32 32 ≠ 0 ∧ ((0x5 : Word).extractLsb' 0 8).toNat ∉ [0x01, 0x02, 0x03, 0x04, 0x10, 0x11, 0x12, 0x20, 0x21] ∧
    (0x201 : Word).extractLsb' 9 7 ≠ 0 ∧ (0x10010 : Word).extractLsb' 16 7 ≠ 0 :=
  ⟨⟨.wordSizeNotZero, by decide⟩, by decide⟩

theorem witness_StepRunsLatchedCommand : k32.status.busy = true ∧ decode k32.latch.cmd = .ok (.pack32 32) ∧ k32.inputs = [] ∧
    (issuedNow 0x20 k32).status.busy = true ∧ decode (issuedNow 0x20 k32).latch.cmd = .ok .serialize ∧
    (issuedNow 0x20 k32).inputs = [.coreTurn] := by decide

theorem witness_IssuedWordRunsNext : (Instr.pack32 127).WellFormed ∧ Instr.serialize.WellFormed := by decide

theorem witness_IdleCoreDoesNothing : State.reset.status.busy = false ∧ State.reset.inputs = [] := by decide

theorem witness_CommandInFlightEnds : k32.status.busy = true := by decide

theorem witness_RacingWriteHasBothOutcomes : State.reset.status.busy = false := by decide

theorem witness_HostAndCoreAreOrdered : State.reset.status.busy = false ∧
    0xFFF8 + (List.replicate 8 (1 : Byte)).length ≤ State.reset.platform.memSize ∧ 0x8000 + 0x8000 ≤ State.reset.platform.memSize := by
  decide

theorem witness_CmdWriteIssues : State.reset.status.busy = false ∧ k32.status.busy = true := by decide

theorem witness_BusyWritesAreIgnored : k32.status.busy = true ∧ (1 ∈ [1, 3, 4, 5, 6, 8, 9]) ∧ (9 ∈ [1, 3, 4, 5, 6, 8, 9]) ∧ 7 ≠ 2 := by
  decide

theorem witness_ReadOnlyWritesChangeNothing : (0 ∈ [0, 2, 7] ∨ 10 ≤ 0) ∧ (7 ∈ [0, 2, 7] ∨ 10 ≤ 7) ∧ (10 ∈ [0, 2, 7] ∨ 10 ≤ 10) ∧
    (31 ∈ [0, 2, 7] ∨ 10 ≤ 31) := by decide

theorem witness_ArgumentRegistersHoldLastWrite : State.reset.status.busy = false ∧ (3 ∈ [3, 4, 5, 6, 8, 9]) ∧ (9 ∈ [3, 4, 5, 6, 8, 9]) := by
  decide

/-- The first and the last register are inside the block; one past the block, one byte below it, an address between two
registers and a 32-bit access are not. -/
theorem witness_RegisterAccessRules : 0 < 32 ∧ 31 < 32 ∧
    (∀ x ∈ [(0x10100, 8), (0xFFF8, 8), (0x10004, 8), (0x10000, 4)],
      ¬(x.2 = 8 ∧ State.reset.platform.regBase ≤ x.1 ∧ x.1 < State.reset.platform.regBase + 256 ∧
        (x.1 - State.reset.platform.regBase) % 8 = 0)) := by decide

theorem witness_InFlightOperandsAreFrozen : k32.status.busy = true ∧ (Event.memWrite 0x1000 [1]) ≠ .coreTurn ∧
    (Event.memWrite 0x1000 [1]) ≠ .reset ∧ handle (.memWrite 0x1000 [1]) k32 = .next (nextOr k32 (handle (.memWrite 0x1000 [1]) k32)) ∧
    handle (.regWrite 0x10008 8 5) k32 = .next (nextOr k32 (handle (.regWrite 0x10008 8 5) k32)) :=
  ⟨by decide, by decide, by decide, rfl, rfl⟩

theorem witness_ResetEventEffects : State.reset.status.busy = false ∧ ¬(k32.status.busy = true ∧ inDestination k32 0x7FFF) ∧
    3 < lanesOf .w32 ∧ 1 < lanesOf .w64 := by decide

/-- The destination window is [0x8000, 0xA000). -/
theorem witness_ResetInFlightAbandonsCommand : k32.status.busy = true ∧ handle .reset k32 = .next (resetBlock k32) ∧
    inDestination k32 0x8000 ∧ inDestination k32 0x9FFF ∧ 0x9FFF < k32.platform.memSize ∧ ¬inDestination k32 0xA000 ∧
    ¬inDestination k32 0x7FFF := ⟨by decide, rfl, by decide⟩

theorem witness_PackResult : k32.raced = false ∧ windowsOk k32 ∧ blockBytes .w32 ≤ srcSize k32 ∧ 0 ≤ bitsOf .w32 ∧
    32 ≤ bitsOf .w32 ∧ 16 * 32 ≤ dstSize k32 ∧ k64.raced = false ∧ windowsOk k64 ∧ blockBytes .w64 ≤ srcSize k64 ∧
    64 ≤ bitsOf .w64 ∧ 16 * 64 ≤ dstSize k64 := by decide

theorem witness_UnpackResult : 16 * 32 ≤ srcSize k32 ∧ blockBytes .w32 ≤ dstSize k32 ∧ 16 * 64 ≤ srcSize k64 ∧
    blockBytes .w64 ≤ dstSize k64 ∧ windowsOk k32 ∧ windowsOk k64 ∧ k32.raced = false ∧ k64.raced = false := by decide

/-- The hypotheses are those of PackResult. -/
theorem witness_DpackResult : k32.raced = false ∧ windowsOk k32 ∧ blockBytes .w32 ≤ srcSize k32 ∧ 32 ≤ bitsOf .w32 ∧
    16 * 32 ≤ dstSize k32 ∧ k64.raced = false ∧ windowsOk k64 ∧ blockBytes .w64 ≤ srcSize k64 ∧ 64 ≤ bitsOf .w64 ∧
    16 * 64 ≤ dstSize k64 := by decide

/-- The hypotheses are those of UnpackResult. -/
theorem witness_DunpackResult : k32.raced = false ∧ windowsOk k32 ∧ 16 * 32 ≤ srcSize k32 ∧ blockBytes .w32 ≤ dstSize k32 ∧
    k64.raced = false ∧ windowsOk k64 ∧ 16 * 64 ≤ srcSize k64 ∧ blockBytes .w64 ≤ dstSize k64 := by decide

theorem witness_FullWidthIsCopy : succeeds (packInstr .w32 32) k32 (done (packInstr .w32 32) k32) ∧
    succeeds (unpackInstr .w64 64) k64 (done (unpackInstr .w64 64) k64) ∧
    (List.replicate 128 (2 ^ 32 - 1)).length = 128 ∧ (∀ v ∈ List.replicate 128 (2 ^ 32 - 1), v < 2 ^ bitsOf .w32) :=
  ⟨succeeds_done _ _ (by decide) (by decide), succeeds_done _ _ (by decide) (by decide), by decide⟩

theorem witness_ZeroWidthConvention : succeeds (packInstr .w32 0) k32 (done (packInstr .w32 0) k32) ∧
    succeeds (dpackInstr .w32 0) k32 (done (dpackInstr .w32 0) k32) ∧
    succeeds (unpackInstr .w32 0) k32 (done (unpackInstr .w32 0) k32) ∧
    succeeds (dunpackInstr .w64 0) k64 (done (dunpackInstr .w64 0) k64) ∧ (∀ i, i < 128 → (fun _ => 5) i < 2 ^ bitsOf .w32) :=
  ⟨succeeds_done _ _ (by decide) (by decide), succeeds_done _ _ (by decide) (by decide), succeeds_done _ _ (by decide) (by decide),
    succeeds_done _ _ (by decide) (by decide), by decide⟩

theorem witness_PackUnpackRoundTrip : 4 ≤ bitsOf .w32 ∧ (List.replicate 128 15).length = 128 ∧
    (∀ v ∈ List.replicate 128 15, v < 2 ^ bitsOf .w32) ∧ (∀ v ∈ List.replicate 128 15, v < 2 ^ 4) := by decide

/-- K[126] = 7, K[127] = 9, else 0: every delta fits 4 bits. -/
def dp1 : State := issued 0x00040003 0x1000 512 0x8000 0x2000 [(0x11F8, 7), (0x11FC, 9)] 0 0

/-- DUNPACK32 4 of the output of `dp1`. -/
def du1 : State := issued 0x00040004 0x8000 64 0x9000 512 (done (.dpack32 4) dp1).mem 0 0

theorem witness_DpackDunpackStayInStep : succeeds (dpackInstr .w32 4) dp1 (done (.dpack32 4) dp1) ∧
    (∀ i, i < 128 → deltaAt .w32 (lastOf .w32 dp1) (elemAt .w32 dp1.mem (srcBase dp1)) i < 2 ^ 4) ∧
    lastOf .w32 du1 = lastOf .w32 dp1 ∧
    du1.mem.readBytes (srcBase du1) (16 * 4) = (done (.dpack32 4) dp1).mem.readBytes (dstBase dp1) (16 * 4) ∧
    succeeds (dunpackInstr .w32 4) du1 (done (.dunpack32 4) du1) :=
  ⟨succeeds_done _ _ (by decide) (by decide), by decide, by decide, rfl, succeeds_done _ _ (by decide) (by decide)⟩

/-- DPACK32 32 of the same block, from the seed that `dp1` left. -/
def dp2 : State := issued 0x00200003 0x1000 512 0x8000 0x2000 [(0x11F8, 7), (0x11FC, 9)] (done (.dpack32 4) dp1).seedLo
  (done (.dpack32 4) dp1).seedHi

/-- DUNPACK32 32 of the output of `dp2`, from the seed that `du1` left. -/
def du2 : State := issued 0x00200004 0x8000 512 0xA000 512 (done (.dpack32 32) dp2).mem (done (.dunpack32 4) du1).seedLo
  (done (.dunpack32 4) du1).seedHi

theorem witness_SeedContinuation : succeeds (dpackInstr .w32 4) dp1 (done (.dpack32 4) dp1) ∧
    succeeds (dpackInstr .w32 32) dp2 (done (.dpack32 32) dp2) ∧
    dp2.seedLo = (done (.dpack32 4) dp1).seedLo ∧ dp2.seedHi = (done (.dpack32 4) dp1).seedHi ∧
    dp2.seedLo = newSeedLo .w32 (elemAt .w32 dp1.mem (srcBase dp1)) ∧ dp2.seedHi = newSeedHi .w32 (elemAt .w32 dp1.mem (srcBase dp1)) ∧
    (∀ i, i < 128 → deltaAt .w32 (lastOf .w32 dp1) (elemAt .w32 dp1.mem (srcBase dp1)) i < 2 ^ 4) ∧
    (∀ i, i < 128 → deltaAt .w32 (lastOf .w32 dp2) (elemAt .w32 dp2.mem (srcBase dp2)) i < 2 ^ 32) ∧
    succeeds (dunpackInstr .w32 4) du1 (done (.dunpack32 4) du1) ∧ succeeds (dunpackInstr .w32 32) du2 (done (.dunpack32 32) du2) ∧
    lastOf .w32 du1 = lastOf .w32 dp1 ∧ du2.seedLo = (done (.dunpack32 4) du1).seedLo ∧ du2.seedHi = (done (.dunpack32 4) du1).seedHi ∧
    du1.mem.readBytes (srcBase du1) (16 * 4) = (done (.dpack32 4) dp1).mem.readBytes (dstBase dp1) (16 * 4) ∧
    du2.mem.readBytes (srcBase du2) (16 * 32) = (done (.dpack32 32) dp2).mem.readBytes (dstBase dp2) (16 * 32) :=
  ⟨succeeds_done _ _ (by decide) (by decide), succeeds_done _ _ (by decide) (by decide), rfl, rfl, by decide, by decide, by decide,
    fun _ _ => by simp only [deltaAt, bitsOf]; omega,
    succeeds_done _ _ (by decide) (by decide), succeeds_done _ _ (by decide) (by decide), by decide, rfl, rfl, rfl, rfl⟩

theorem witness_OtherSeedLanesHaveNoEffect :
    lastOf .w32 { k32 with seedLo := 5, seedHi := 0x00000000FFFFFFFF } = lastOf .w32 k32 ∧
    exec (dpackInstr .w32 4) k32 = .next (done (.dpack32 4) k32) ∧ (done (.dpack32 4) k32).status.err = false ∧
    k32.raced = false :=
  ⟨by decide, exec_next _ _, by decide, rfl⟩

/-- PACKINTS32 in flight on `eight`. -/
def pi1 : State := issued 0x10 0x1000 32 0x8000 0x2000 eight 0 0

/-- PACKINTS64 in flight on the same bytes. -/
def pi2 : State := issued 0x110 0x1000 32 0x8000 0x2000 eight 0 0

theorem witness_PackIntsResult : pi1.raced = false ∧ windowsOk pi1 ∧ srcSize pi1 = 8 * bytesOf .w32 ∧ 8 ≤ 2 ^ 32 - 1 ∧
    imageSize (encodeFn .w32 (arrayAt .w32 pi1.mem (srcBase pi1) 8) false) ≤ dstSize pi1 ∧
    imageSize (encodeFn .w32 (arrayAt .w32 pi1.mem (srcBase pi1) 8) true) ≤ dstSize pi1 ∧
    pi2.raced = false ∧ windowsOk pi2 ∧ srcSize pi2 = 4 * bytesOf .w64 ∧
    imageSize (encodeFn .w64 (arrayAt .w64 pi2.mem (srcBase pi2) 4) false) ≤ dstSize pi2 ∧
    imageSize (encodeFn .w64 (arrayAt .w64 pi2.mem (srcBase pi2) 4) true) ≤ dstSize pi2 := by decide

/-- The empty 64-bit delta container (vector E16). -/
def onEmpty64 : State := issued 0x112 0x1000 16 0x8000 0 [(0x1004, 0x40), (0x1005, 1)] 0 0

/-- A delta container of 129 elements that no encoder writes: 128 deltas 1 of width 1, then, of width 8 where 3 would do, the
delta 5 and padded deltas 0xFF that are not 0 (R224). -/
def twoBlocks : Container :=
  { count := 129, word := .w32, delta := true
    blocks := [(1, List.replicate 16 0xFF), (8, 5 :: List.replicate 127 0xFF)] }

/-- UNPACKINTS32 in flight on its image. -/
def onTwoBlocks : State :=
  issued 0x12 0x1000 176 0x8000 0x2000 (Memory.write [] 0x1000 (imageEncode twoBlocks)) 0 0

theorem witness_UnpackIntsResult : (onImage 0x12).raced = false ∧ windowsOk (onImage 0x12) ∧
    imageDecode ((onImage 0x12).mem.readBytes (srcBase (onImage 0x12)) (srcSize (onImage 0x12))) = .ok container1 ∧
    container1.word = .w32 ∧ bytesOf .w32 * container1.count ≤ dstSize (onImage 0x12) ∧
    onEmpty64.raced = false ∧ windowsOk onEmpty64 ∧
    imageDecode (onEmpty64.mem.readBytes (srcBase onEmpty64) (srcSize onEmpty64)) =
      .ok { count := 0, word := .w64, delta := true, blocks := [] } ∧ bytesOf .w64 * 0 ≤ dstSize onEmpty64 ∧
    onTwoBlocks.raced = false ∧ windowsOk onTwoBlocks ∧
    imageDecode (onTwoBlocks.mem.readBytes (srcBase onTwoBlocks) (srcSize onTwoBlocks)) = .ok twoBlocks ∧
    twoBlocks.word = .w32 ∧ bytesOf .w32 * twoBlocks.count ≤ dstSize onTwoBlocks ∧ 128 < twoBlocks.count := by decide

/-- By hand from R189, R146 and R102: the raw values of block 0 are 1, 2, ..., 128 (every delta is 1, R143), so element 127
is 128, and the first of block 1 is 128 + 5; the padded elements of block 1 play no part. -/
theorem test_unpackints32_two_blocks :
    elemAt .w32 (stepped onTwoBlocks).mem 0x8000 0 = 1 ∧ elemAt .w32 (stepped onTwoBlocks).mem 0x8000 127 = 128 ∧
    elemAt .w32 (stepped onTwoBlocks).mem 0x8000 128 = 133 ∧ (stepped onTwoBlocks).resLen = 516 := by decide

theorem witness_EncodedBlocksHoldTheirGroups : (List.replicate 129 7).length ≤ 2 ^ 32 - 1 ∧
    (∀ x ∈ List.replicate 129 7, x < 2 ^ bitsOf .w32) ∧ 0 < blockCount (List.replicate 129 7).length ∧
    1 < blockCount (List.replicate 129 7).length := by decide

theorem witness_EncodedContainerIsValid : ([2 ^ 64 - 1, 0] : List Nat).length ≤ 2 ^ 32 - 1 ∧
    (∀ x ∈ ([2 ^ 64 - 1, 0] : List Nat), x < 2 ^ bitsOf .w64) := by decide

/-- A container that is not minimal: width 8 for the value 5. -/
def wide : Container := { count := 1, word := .w32, delta := false, blocks := [(8, 5 :: List.replicate 127 0)] }

theorem witness_EncodedPayloadIsLeast : wide.valid ∧ wide.word = .w32 ∧ wide.delta = false ∧ wide.count = ([5] : List Nat).length ∧
    decodeFn wide = [5] ∧ widthSum (encodeFn .w32 [5] false) = 3 := by decide

/-- UNPACKINTS32 of the output of `pi1`. -/
def ui1 : State := issued 0x12 0x8000 96 0xB000 0x1000 (done .packints32 pi1).mem 0 0

theorem pi1_len : (done .packints32 pi1).resLen.toNat = 96 := by decide

theorem witness_EncodedSequenceDecodesBack : succeeds (packIntsInstr .w32 false) pi1 (done .packints32 pi1) ∧
    readsOutputOf ui1 pi1 (done .packints32 pi1) ∧ succeeds (unpackIntsInstr .w32) ui1 (done .unpackints32 ui1) ∧
    ([5, 3] : List Nat).length ≤ 2 ^ 32 - 1 ∧ (∀ x ∈ ([5, 3] : List Nat), x < 2 ^ bitsOf .w64) :=
  ⟨succeeds_done _ _ (by decide) (by decide), ⟨by decide, by rw [pi1_len]; rfl⟩, succeeds_done _ _ (by decide) (by decide),
    by decide, by decide⟩

theorem witness_EmptySequenceImage : (issued 0x11 0x1000 0 0x8000 16 [] 0 0).raced = false ∧
    windowsOk (issued 0x11 0x1000 0 0x8000 16 [] 0 0) ∧ srcSize (issued 0x11 0x1000 0 0x8000 16 [] 0 0) = 0 ∧
    16 ≤ dstSize (issued 0x11 0x1000 0 0x8000 16 [] 0 0) := by decide

/-- DESERIALIZE of the output of SERIALIZE on the E1 image. -/
def de1 : State := issued 0x21 0x8000 79 0x9000 0x1000 (done .serialize (onImage 0x20)).mem 0 0

theorem se1_len : (done .serialize (onImage 0x20)).resLen.toNat = 79 := by decide

theorem witness_ContainerFormatsRoundTrip : container1.valid ∧ succeeds .serialize (onImage 0x20) (done .serialize (onImage 0x20)) ∧
    readsOutputOf de1 (onImage 0x20) (done .serialize (onImage 0x20)) ∧ succeeds .deserialize de1 (done .deserialize de1) ∧
    (onImage 0x20).mem.readBytes (srcBase (onImage 0x20)) (srcSize (onImage 0x20)) = imageEncode container1 :=
  ⟨by decide, succeeds_done _ _ (by decide) (by decide), ⟨by decide, by rw [se1_len]; rfl⟩, succeeds_done _ _ (by decide) (by decide),
    by decide⟩

/-- Vectors E1 and S1 fix the bytes of `container1`; `twoBlocks` has a second block, at 16 + 16 + 16 in its image and at
10 + 5 + 16 in its wire bytes. -/
theorem witness_ContainerLayout : container1.valid ∧ container1.blocks.length = 1 ∧ twoBlocks.valid ∧
    (∃ P, twoBlocks.blocks[0]? = some (1, P)) ∧ (∃ P, twoBlocks.blocks[1]? = some (8, P)) ∧
    imageBlockOffset 2 [1, 8] 1 = 48 ∧ wireRecordOffset [1, 8] 1 = 31 ∧ 16 + 2 ≤ 18 ∧ 31 < 16 + 16 * ((2 + 15) / 16) :=
  ⟨by decide, by decide, by decide, ⟨_, rfl⟩, ⟨_, rfl⟩, by decide⟩

/-- A valid container with no block has no table padding. -/
theorem witness_ContainerLayout_empty : Container.valid { count := 0, word := .w64, delta := true, blocks := [] } := by decide

theorem witness_DeserializeIsExact : wireDecode (onWire.mem.readBytes (srcBase onWire) (srcSize onWire)) = .ok container1 ∧
    container1.valid ∧ wireEncode container1 = onWire.mem.readBytes (srcBase onWire) (srcSize onWire) := by decide

theorem witness_TruncationIsDetected : container1.valid ∧ (wireEncode container1).take 78 <+: wireEncode container1 ∧
    (wireEncode container1).take 78 ≠ wireEncode container1 ∧ ([] : List Byte) <+: wireEncode container1 ∧
    [] ≠ wireEncode container1 := ⟨by decide, List.take_prefix _ _, by decide, List.nil_prefix, by decide⟩

theorem witness_ImageChecksAreM1ToM8 : imageDecode [] = .error .malformedContainer ∧
    imageDecode (imageEncode twoBlocks) = .ok twoBlocks ∧ (∃ P, twoBlocks.blocks[1]? = some (8, P)) :=
  ⟨by decide, by decide, ⟨_, rfl⟩⟩

theorem witness_SerializeResult : (onImage 0x20).raced = false ∧ windowsOk (onImage 0x20) ∧
    imageDecode ((onImage 0x20).mem.readBytes (srcBase (onImage 0x20)) (srcSize (onImage 0x20))) = .ok container1 ∧
    wireSize container1 ≤ dstSize (onImage 0x20) := by decide

theorem witness_DeserializeResult : onWire.raced = false ∧ windowsOk onWire ∧
    wireDecode (onWire.mem.readBytes (srcBase onWire) (srcSize onWire)) = .ok container1 ∧ imageSize container1 ≤ dstSize onWire := by
  decide

/-- Program P3's four commands: PACKINTS32 is `pi1`; then SERIALIZE, DESERIALIZE and UNPACKINTS32, each on the output of
the one before it. -/
def p3s : State := issued 0x20 0x8000 96 0xB000 0x1000 (done .packints32 pi1).mem 0 0
/-- DESERIALIZE of program P3. -/
def p3d : State := issued 0x21 0xB000 79 0xC000 0x1000 (done .serialize p3s).mem 0 0
/-- UNPACKINTS32 of program P3. -/
def p3u : State := issued 0x12 0xC000 96 0xD000 0x1000 (done .deserialize p3d).mem 0 0

theorem p3s_len : (done .serialize p3s).resLen.toNat = 79 := by decide
theorem p3d_len : (done .deserialize p3d).resLen.toNat = 96 := by decide

theorem witness_FullPipelineRestoresSource : succeeds (packIntsInstr .w32 false) pi1 (done .packints32 pi1) ∧
    readsOutputOf p3s pi1 (done .packints32 pi1) ∧ succeeds .serialize p3s (done .serialize p3s) ∧
    readsOutputOf p3d p3s (done .serialize p3s) ∧ succeeds .deserialize p3d (done .deserialize p3d) ∧
    readsOutputOf p3u p3d (done .deserialize p3d) ∧ succeeds (unpackIntsInstr .w32) p3u (done .unpackints32 p3u) :=
  ⟨succeeds_done _ _ (by decide) (by decide), ⟨by decide, by rw [pi1_len]; rfl⟩, succeeds_done _ _ (by decide) (by decide),
    ⟨by decide, by rw [p3s_len]; rfl⟩, succeeds_done _ _ (by decide) (by decide), ⟨by decide, by rw [p3d_len]; rfl⟩,
    succeeds_done _ _ (by decide) (by decide)⟩

theorem witness_FirstFailingCheckIsReported : completion k32 = .next (nextOr k32 (completion k32)) ∧
    completion failing = .next (nextOr failing (completion failing)) := ⟨rfl, rfl⟩

theorem witness_ErrorsArePrecise : completion failing = .next (nextOr failing (completion failing)) ∧
    (nextOr failing (completion failing)).status.err = true ∧ failing.raced = false := ⟨rfl, by decide⟩

theorem witness_SuccessWritesResultOnly : exec (.pack32 32) k32 = .next (done (.pack32 32) k32) ∧
    (done (.pack32 32) k32).status.err = false ∧ usesSeed (.pack32 32) = false ∧ k32.raced = false :=
  ⟨exec_next _ _, by decide⟩

theorem witness_OtherCommandsIgnoreSeed : usesSeed .serialize = false ∧
    exec .serialize (onImage 0x20) = .next (done .serialize (onImage 0x20)) ∧ (onImage 0x20).raced = false :=
  ⟨by decide, exec_next _ _, rfl⟩

theorem witness_OnlySourceWindowMatters : (∀ a, inSource k32 a → Memory.read (eight ++ [(0x9000, 1)]) a = k32.mem.read a) ∧
    exec (.pack32 32) k32 = .next (done (.pack32 32) k32) ∧ (done (.pack32 32) k32).status.err = false ∧ k32.raced = false := by
  refine ⟨fun a ha => read_append_left eight _ a ?_, exec_next _ _, by decide, rfl⟩
  have h : a < 0x1200 := ha.2
  simp only [List.mem_singleton, forall_eq]
  omega

theorem witness_OverlapMeansSharedAddress : windowsOverlap (issued 0x00040001 0x1000 512 0x11F0 0x2000 [] 0 0) ∧
    ¬windowsOverlap (issued 0x00040001 0x1000 512 0x1200 0x2000 [] 0 0) := by decide

theorem witness_RetryReportsSameCode : failing.status.busy = true ∧ latchAgrees failing ∧ failing.raced = false ∧
    completion failing = .next (stepped failing) ∧ (stepped failing).status.err = true ∧
    completion (writeReg 1 (stepped failing).cmd (stepped failing)) =
      .next (nextOr failing (completion (writeReg 1 (stepped failing).cmd (stepped failing)))) :=
  ⟨by decide, rfl, by decide, rfl, by decide, rfl⟩

/-- The read up to the last byte of memory is answered, and one byte more is not. -/
theorem witness_HostReadInFlight : 0x8000 + 0x8000 ≤ k32.platform.memSize ∧ 0x8000 + 0x8001 > k32.platform.memSize ∧ k32.status.busy = true ∧ inDestination k32 (0x8000 + 0x1FFF) ∧
    ¬inDestination k32 (0x8000 + 0x2000) := by decide

/-- The last byte of memory can be written and the one after it cannot; the last byte of the source window is hit and the
one after it is not. -/
theorem witness_HostWriteRecordsHazard : 0xFFFF + ([1] : List Byte).length ≤ k32.platform.memSize ∧
    0x10000 + ([1] : List Byte).length > k32.platform.memSize ∧
    (k32.status.busy = true ∧ ∃ a, 0x11FF ≤ a ∧ a < 0x11FF + ([1] : List Byte).length ∧ (inSource k32 a ∨ inDestination k32 a)) ∧
    ¬(k32.status.busy = true ∧ ∃ a, 0x1200 ≤ a ∧ a < 0x1200 + ([1] : List Byte).length ∧ (inSource k32 a ∨ inDestination k32 a)) := by
  refine ⟨by decide, by decide, ⟨by decide, 0x11FF, by decide⟩, ?_⟩
  rintro ⟨_, a, h1, h2, h3⟩
  simp only [List.length_singleton] at h2
  obtain rfl : a = 0x1200 := by omega
  exact absurd h3 (by decide)

theorem witness_HazardedCommandWritesAnyBytes : exec (.pack32 32) { k32 with raced := true } = .next (done (.pack32 32) { k32 with raced := true }) ∧
    (done (.pack32 32) { k32 with raced := true }).status.err = false ∧
    511 < (done (.pack32 32) { k32 with raced := true }).resLen.toNat := ⟨exec_next _ _, by decide, by decide⟩

theorem witness_HazardAndPlatformPersist : step { k32 with hostHazard := true } = .next (stepped { k32 with hostHazard := true }) ∧
    ({ k32 with hostHazard := true } : State).hostHazard = true := ⟨rfl, rfl⟩

theorem witness_InvariantAtReset : Platform.launch.wf ∧ Memory.wf Platform.launch.memSize eight := by decide

theorem witness_StepKeepsInvariant : k32.Inv ∧ step k32 = .next (stepped k32) := ⟨by unfold State.Inv; decide, rfl⟩

end Sys2Proof.Tests
end

section
/-! SUPPORT. The invariant (`State.Inv`): which states have it, and that every update of the machine keeps it. -/

namespace Sys2Proof.Machine

/-! ### STATUS stays legal -/

theorem reset_legal : Status.reset.legal := by decide

theorem issued_legal : Status.issued.legal := by decide

theorem completed_legal (st : Status) (c : ErrorCode) : (st.completed c).legal := by simp [Status.legal]

/-- An ignored write happens only in flight, where WIGN may be 1 (R29, R37). -/
theorem writeIgnored_legal {st : Status} (h : st.legal) (hb : st.busy = true) : st.writeIgnored.legal := by
  obtain ⟨hbd, herr, hdone, _⟩ := h
  exact ⟨hbd, herr, hdone, fun _ => .inl hb⟩

/-! ### Writes that stay inside memory -/

/-- The write of a successful result keeps the memory canonical: the result fits a window below MEM_SIZE (R65, R68). -/
theorem succeed_mem_wf {r : Result} {s : State} (hm : Memory.wf s.platform.memSize s.mem) (hw : windowsOk s)
    (hlen : r.bytes.length = r.len) (hfit : r.len ≤ dstSize s) : Memory.wf s.platform.memSize (succeed r s).mem := by
  obtain ⟨_, ⟨_, hdst⟩, _⟩ := hw
  refine write_wf _ _ _ _ hm fun _ => ?_
  rw [coreBytes_length]
  omega

/-- A reset keeps the memory canonical: of an abandoned window only the bytes below MEM_SIZE are written (R291). -/
theorem memoryAfterReset_wf {s : State} (hm : Memory.wf s.platform.memSize s.mem) :
    Memory.wf s.platform.memSize (memoryAfterReset s) := by
  unfold memoryAfterReset
  split
  · refine write_wf _ _ _ _ hm fun hne => ?_
    have hpos := List.length_pos_iff.mpr hne
    simp only [List.length_map, List.length_range] at hpos ⊢
    omega
  · exact hm

/-! ### The invariant, update by update -/

/-- While no command is in flight the invariant asks nothing of the latch, and there must be no hazard mark. -/
theorem inv_of_idle {s : State} (hp : s.platform.wf) (hm : Memory.wf s.platform.memSize s.mem) (hl : s.status.legal)
    (hb : s.status.busy = false) (hres : s.status.err = true → s.resLen = 0) (hr : s.raced = false) : s.Inv :=
  ⟨hp, hm, hl, by simp [hb], by simpa [hb] using hres, by simp [hr]⟩

theorem powerOn_inv {p : Platform} {m : Memory} (hp : p.wf) (hm : Memory.wf p.memSize m) : (State.powerOn p m).Inv :=
  inv_of_idle hp hm reset_legal rfl (fun _ => rfl) rfl

theorem raiseError_inv {s : State} (h : s.Inv) (c : ErrorCode) : (raiseError c s).Inv := by
  obtain ⟨hp, hm, _⟩ := h
  exact inv_of_idle hp hm (completed_legal _ _) rfl (fun _ => rfl) rfl

theorem succeed_inv {r : Result} {s : State} (h : s.Inv) (hw : windowsOk s) (hlen : r.bytes.length = r.len)
    (hfit : r.len ≤ dstSize s) : (succeed r s).Inv := by
  obtain ⟨hp, hm, _⟩ := h
  exact inv_of_idle hp (succeed_mem_wf hm hw hlen hfit) (completed_legal _ _) rfl (by simp) rfl

theorem resetBlock_inv {s : State} (h : s.Inv) : (resetBlock s).Inv := by
  obtain ⟨hp, hm, _⟩ := h
  exact inv_of_idle hp (memoryAfterReset_wf (s := s) hm) reset_legal rfl (fun _ => rfl) rfl

theorem issue_inv {s : State} (h : s.Inv) (c : Word) : (issue c s).Inv := by
  obtain ⟨hp, hm, _⟩ := h
  exact ⟨hp, hm, issued_legal, fun _ => rfl, fun _ => rfl, by simp⟩

/-- A host register write keeps the invariant: the registers change only where the latch need not equal them (R38). -/
theorem writeReg_inv {s : State} (h : s.Inv) (i : Nat) (v : Word) : (writeReg i v s).Inv := by
  rcases writeReg_cases i v s with heq | ⟨hb, heq⟩ | ⟨hb, _, _, _, _, _, _, heq⟩ | ⟨_, heq⟩
  · rwa [heq]
  · obtain ⟨hp, hm, hl, hlatch, hres, hrace⟩ := h
    rw [heq]
    exact ⟨hp, hm, writeIgnored_legal hl hb, hlatch, hres, hrace⟩
  · obtain ⟨hp, hm, hl, _, hres, hrace⟩ := h
    rw [heq]
    exact ⟨hp, hm, hl, by simp [hb], hres, hrace⟩
  · rw [heq]
    exact issue_inv h v

/-- A host write to memory keeps the invariant: the hazard mark and HostHazard are set together, and only in flight (R76). -/
theorem memWrite_inv {s : State} {addr : Nat} {bs : List Byte} (h : s.Inv) (hin : addr + bs.length ≤ s.platform.memSize) :
    ({ s with
      mem := s.mem.write addr bs
      hostHazard := s.hostHazard || decide (hitsWindows s addr bs.length)
      raced := s.raced || decide (hitsWindows s addr bs.length) } : State).Inv := by
  obtain ⟨hp, hm, hl, hlatch, hres, hrace⟩ := h
  refine ⟨hp, write_wf _ _ _ _ hm fun _ => hin, hl, hlatch, hres, fun hmark => ?_⟩
  simp only [Bool.or_eq_true, decide_eq_true_eq] at hmark ⊢
  rcases hmark with hraced | hhit
  · obtain ⟨hb, hhazard⟩ := hrace hraced
    exact ⟨hb, .inl hhazard⟩
  · obtain ⟨hb, hbyte⟩ := hhit
    exact ⟨hb, .inr ⟨hb, hbyte⟩⟩

/-! ### The invariant, step by step -/

theorem completion_inv {s t : State} (h : s.Inv) (hc : completion s = .next t) : t.Inv := by
  rcases completion_outcomes hc with ⟨c, _, rfl⟩ | ⟨r, hw, hlen, hfit, rfl⟩
  · exact raiseError_inv h c
  · exact succeed_inv h hw hlen hfit

theorem coreTurn_inv {s t : State} (h : s.Inv) (hc : coreTurn s = .next t) : t.Inv := by
  rcases coreTurn_cases hc with ⟨_, rfl⟩ | ⟨_, hc⟩
  · exact h
  · exact completion_inv h hc

theorem handle_inv {e : Event} {s t : State} (h : s.Inv) (he : handle e s = .next t) : t.Inv := by
  rcases handle_cases he with ⟨_, _, _, _, _, rfl⟩ | ⟨_, _, v, i, _, _, rfl⟩ | ⟨_, _, _, _, rfl⟩ |
    ⟨_, _, _, hin, rfl⟩ | ⟨_, rfl⟩ | ⟨_, hc⟩
  · exact h
  · exact writeReg_inv h i v
  · exact h
  · exact memWrite_inv h hin
  · exact resetBlock_inv h
  · exact coreTurn_inv h hc

/-- Settles O59: the step is the core's turn or an event, and each of the machine's updates keeps the invariant. -/
theorem stepKeepsInvariant : Obligations.StepKeepsInvariant := by
  intro s t h hs
  rcases step_cases hs with ⟨_, hc⟩ | ⟨e, rest, _, he⟩
  · exact coreTurn_inv h hc
  · have hrest : ({ s with inputs := rest } : State).Inv := h
    exact handle_inv hrest he

/-- Settles O58: `State.reset` is the power-on state of the launch platform with nothing listed in memory. -/
theorem invariantAtReset : Obligations.InvariantAtReset :=
  ⟨powerOn_inv (by decide) (nil_wf _), fun _ _ hp hm => powerOn_inv hp hm⟩

end Sys2Proof.Machine
end

section
/-! SUPPORT. The register block: what a register reads, what a host write does to it, idle and busy, and which host accesses
are answered. -/

namespace Sys2Proof.Machine

/-! ### Reading a register -/

/-- The reserved registers read 0 (R35). -/
theorem readReg_reserved (s : State) {i : Nat} (h : 10 ≤ i) : readReg s i = 0 := by
  obtain ⟨k, rfl⟩ := Nat.exists_eq_add_of_le' h
  rfl

/-- States that agree on the registers below 10 but for register `i` agree on all the others: those are reserved. -/
theorem readReg_eq_of_lt {s t : State} {i : Nat} (h : ∀ j, j < 10 → j ≠ i → readReg t j = readReg s j) {j : Nat}
    (hj : j ≠ i) : readReg t j = readReg s j := by
  rcases Nat.lt_or_ge j 10 with hlt | hge
  · exact h j hlt hj
  · rw [readReg_reserved t hge, readReg_reserved s hge]

theorem statusReset_toWord : Status.reset.toWord = 0 := by decide

/-- At power-on every register but ID reads 0 (R22, R293). -/
theorem readReg_powerOn (p : Platform) (m : Memory) {i : Nat} (h : i ≠ 0) : readReg (State.powerOn p m) i = 0 := by
  unfold readReg
  split
  · exact absurd rfl h
  case h_3 => exact statusReset_toWord
  all_goals rfl

/-- Only register 2 shows STATUS. -/
theorem readReg_with_status (s : State) (st : Status) {j : Nat} (h : j ≠ 2) :
    readReg { s with status := st } j = readReg s j := by
  unfold readReg
  split
  case h_3 => exact absurd rfl h
  all_goals rfl

/-- Settles O22: `State.reset` is a power-on state. -/
theorem resetStateValues : Obligations.ResetStateValues :=
  ⟨rfl, fun _ hi => readReg_powerOn _ _ hi⟩

/-- Settles O12: neither the read nor the write of register 0 looks at the state. -/
theorem idIsConstant : Obligations.IdIsConstant := by
  intro s
  have hid : readReg s 0 = idConstant := rfl
  rw [hid]
  exact ⟨by decide, fun _ => rfl⟩

/-! ### The STATUS value -/

/-- STATUS bit by bit (R25). -/
theorem toWord_getLsbD (st : Status) (k : Nat) : st.toWord.getLsbD k =
    if k = 0 then st.busy else if k = 1 then st.done else if k = 2 then st.err else if k = 3 then st.wign
    else if k < 8 then false else st.code.toByte.getLsbD (k - 8) := by
  change (0#48 ++ st.code.toByte ++ 0#4 ++ BitVec.ofBool st.wign ++ BitVec.ofBool st.err ++ BitVec.ofBool st.done
    ++ BitVec.ofBool st.busy).getLsbD k = _
  simp only [BitVec.getLsbD_append, BitVec.getLsbD_ofBool, BitVec.getLsbD_zero]
  grind

/-- Above WIGN there is only CODE, from bit 8 on (R25, R30). -/
theorem toWord_getLsbD_of_le (st : Status) {k : Nat} (h : 4 ≤ k) :
    st.toWord.getLsbD k = (decide (8 ≤ k) && st.code.toByte.getLsbD (k - 8)) := by
  rw [toWord_getLsbD]
  grind

theorem toWord_bits_4_7 (st : Status) : st.toWord.extractLsb' 4 4 = 0 := by
  ext k hk
  have hcode : ¬8 ≤ 4 + k := by omega
  simp [toWord_getLsbD_of_le st (Nat.le_add_right 4 k), hcode]

theorem toWord_bits_8_15 (st : Status) : st.toWord.extractLsb' 8 8 = st.code.toByte := by
  ext k hk
  have h : 4 ≤ 8 + k := by omega
  simp [toWord_getLsbD_of_le st h, BitVec.getLsbD_eq_getElem hk]

theorem toWord_bits_16_63 (st : Status) : st.toWord.extractLsb' 16 48 = 0 := by
  ext k hk
  have h : 4 ≤ 16 + k := by omega
  have hcode : 8 ≤ 16 + k - 8 := by omega
  simp [toWord_getLsbD_of_le st h, BitVec.getLsbD_of_ge st.code.toByte _ hcode]

/-- Settles O13: register 2 reads `Status.toWord`, whose fields stand where R25 puts them. -/
theorem statusFieldsLayout : Obligations.StatusFieldsLayout := by
  intro s
  have hstatus : readReg s 2 = s.status.toWord := rfl
  rw [hstatus]
  refine ⟨toWord_getLsbD _ 0, toWord_getLsbD _ 1, toWord_getLsbD _ 2, toWord_getLsbD _ 3, toWord_bits_4_7 _, ?_,
    toWord_bits_16_63 _⟩
  rw [toWord_bits_8_15]
  cases s.status.code <;> rfl

/-! ### Writing a register -/

theorem whenIdle_of_idle (f : State → State) {s : State} (h : s.status.busy = false) : whenIdle f s = f s :=
  if_neg (by simp [h])

theorem whenIdle_of_busy (f : State → State) {s : State} (h : s.status.busy = true) :
    whenIdle f s = { s with status := s.status.writeIgnored } := if_pos h

/-- A write in flight to any register that the host can write only sets WIGN (R37). -/
theorem writeReg_of_busy {s : State} {i : Nat} (v : Word) (hb : s.status.busy = true) (hi : i ∈ [1, 3, 4, 5, 6, 8, 9]) :
    writeReg i v s = { s with status := s.status.writeIgnored } := by
  fin_cases hi <;> simp only [writeReg, whenIdle_of_busy _ hb]

/-- A write to ID, STATUS, RES_LEN or a reserved register is ignored (R35, R36). -/
theorem writeReg_readOnly {i : Nat} (v : Word) (s : State) (hi : i ∈ [0, 2, 7] ∨ 10 ≤ i) : writeReg i v s = s := by
  rcases hi with hi | hi
  · fin_cases hi <;> rfl
  · obtain ⟨k, rfl⟩ := Nat.exists_eq_add_of_le' hi
    rfl

/-- An idle write to CMD issues (R24). -/
theorem writeReg_cmd_of_idle (c : Word) {s : State} (hb : s.status.busy = false) : writeReg 1 c s = issue c s :=
  whenIdle_of_idle _ hb

/-- Settles O14. -/
theorem cmdWriteIssues : Obligations.CmdWriteIssues :=
  ⟨fun s c hb => ⟨issue c s, writeReg_cmd_of_idle c hb, rfl, rfl⟩, fun _ c hb => writeReg_of_busy c hb (by decide),
    readReg_powerOn _ _ (by decide)⟩

/-- Settles O15: an ignored write changes STATUS alone, and only register 2 shows STATUS. -/
theorem busyWritesAreIgnored : Obligations.BusyWritesAreIgnored := by
  intro s i v hb hi
  rw [writeReg_of_busy v hb hi]
  exact ⟨rfl, fun j hj => readReg_with_status s _ hj⟩

/-- Settles O16. -/
theorem readOnlyWritesChangeNothing : Obligations.ReadOnlyWritesChangeNothing :=
  fun s _ v hi => ⟨writeReg_readOnly v s hi, fun hge => readReg_reserved s hge⟩

/-- Settles O17: an idle write to one of these registers replaces one field, which one register shows. -/
theorem argumentRegistersHoldLastWrite : Obligations.ArgumentRegistersHoldLastWrite := by
  intro s i v hb hi
  have hidle (f : State → State) : whenIdle f s = f s := whenIdle_of_idle f hb
  fin_cases hi <;> simp only [writeReg, hidle, and_self, and_true]
  all_goals
    refine ⟨rfl, fun j hj => readReg_eq_of_lt (fun k hk hne => ?_) hj⟩
    interval_cases k <;> simp [readReg] at hne ⊢

/-! ### Register accesses -/

/-- An access to register `i` of the block names it (R22, R81). -/
theorem regIndex_register (p : Platform) {i : Nat} (h : i < 32) : regIndex p (p.regBase + 8 * i) 8 = some i := by
  unfold regIndex
  rw [if_pos (by omega), Nat.add_sub_cancel_left, Nat.mul_div_cancel_left i (by decide)]

/-- Settles O18: `regIndex` decides whether the host's access is answered, a read and a write alike. -/
theorem registerAccessRules : Obligations.RegisterAccessRules := by
  intro s addr size v
  refine ⟨fun hbad => ?_, fun i hi => ?_⟩
  · have hnone : regIndex s.platform addr size = none := if_neg hbad
    simp only [handle, hostRegRead, hostRegWrite, hnone, and_self]
  · simp only [handle, hostRegRead, hostRegWrite, regIndex_register s.platform hi, and_self]

/-! ### Events from outside in flight -/

/-- Settles O19: of the events other than the core's turn and reset, only a register write reaches the registers, and in
flight it changes at most WIGN. -/
theorem inFlightOperandsAreFrozen : Obligations.InFlightOperandsAreFrozen := by
  intro e s t hb hcore hreset he
  rcases handle_cases he with ⟨_, _, _, _, _, rfl⟩ | ⟨_, _, v, i, _, _, rfl⟩ | ⟨_, _, _, _, rfl⟩ |
    ⟨_, _, _, _, rfl⟩ | ⟨hr, _⟩ | ⟨hc, _⟩
  · exact ⟨rfl, id⟩
  · rcases writeReg_cases i v s with heq | ⟨_, heq⟩ | ⟨hidle, _⟩ | ⟨hidle, _⟩
    · rw [heq]; exact ⟨rfl, id⟩
    · rw [heq]; exact ⟨rfl, fun _ => rfl⟩
    · simp [hb] at hidle
    · simp [hb] at hidle
  · exact ⟨rfl, id⟩
  · exact ⟨rfl, id⟩
  · exact absurd hr hreset
  · exact absurd hc hcore

end Sys2Proof.Machine
end

section
/-! SUPPORT. The decoder reads back what the encoder writes, and a table word issued by `State.withFetchWord` is the command
that the next step runs. -/

namespace Sys2Proof.Machine

/-! ### Decoding an encoded command -/

/-- The match of a kernel row ends at bit 8 (R93), below NB, so the two are joined by addition. -/
theorem kernelWord_toNat {m : Word} {nb : Nat} (hm : m.toNat < 2 ^ 16) (hnb : nb ≤ 127) :
    (kernelWord m nb).toNat = nb * 2 ^ 16 + m.toNat := by
  have hshift : (BitVec.ofNat 64 nb <<< 16).toNat = nb <<< 16 := by
    simp only [BitVec.toNat_shiftLeft, BitVec.toNat_ofNat, Nat.shiftLeft_eq]
    omega
  rw [kernelWord, BitVec.toNat_or, hshift, Nat.or_comm, ← Nat.shiftLeft_add_eq_or_of_lt hm, Nat.shiftLeft_eq]

/-- A kernel word with a match of op and W only decodes by its op, its W and its bit width (R91, R93). -/
theorem decode_kernelWord {m : Word} {nb : Nat} (hm : m.toNat < 2 ^ 9) (hnb : nb ≤ 127) :
    decode (kernelWord m nb) = decodeFields (opField m) (wField m) nb := by
  have hword : (kernelWord m nb).toNat = nb * 2 ^ 16 + m.toNat := kernelWord_toNat (by omega) hnb
  have hhigh : highField (kernelWord m nb) = 0 := by
    simp only [highField, BitVec.extractLsb'_toNat, hword, Nat.shiftRight_eq_div_pow]
    omega
  have hreserved : reservedField (kernelWord m nb) = 0 := by
    simp only [reservedField, BitVec.extractLsb'_toNat, hword, Nat.shiftRight_eq_div_pow]
    omega
  have hop : opField (kernelWord m nb) = opField m := by
    simp only [opField, BitVec.extractLsb'_toNat, hword, Nat.shiftRight_eq_div_pow]
    omega
  have hw : wField (kernelWord m nb) = wField m := by
    simp only [wField, BitVec.getLsbD, hword, Nat.testBit_eq_decide_div_mod_eq]
    congr 1
    simp only [eq_iff_iff]
    omega
  have hnbField : nbField (kernelWord m nb) = nb := by
    simp only [nbField, BitVec.extractLsb'_toNat, hword, Nat.shiftRight_eq_div_pow]
    omega
  simp only [decode, hhigh, hreserved, hop, hw, hnbField, ne_eq, not_true_eq_false, if_false]

/-- Every command that can be written is read back (R93, R96). -/
theorem decode_encode {i : Instr} (h : i.WellFormed) : decode (encode i) = .ok i := by
  cases i with
  | pack32 nb => exact decode_kernelWord (by decide) h
  | pack64 nb => exact decode_kernelWord (by decide) h
  | unpack32 nb => exact decode_kernelWord (by decide) h
  | unpack64 nb => exact decode_kernelWord (by decide) h
  | dpack32 nb => exact decode_kernelWord (by decide) h
  | dpack64 nb => exact decode_kernelWord (by decide) h
  | dunpack32 nb => exact decode_kernelWord (by decide) h
  | dunpack64 nb => exact decode_kernelWord (by decide) h
  | packints32 => rfl
  | packints64 => rfl
  | dpackints32 => rfl
  | dpackints64 => rfl
  | unpackints32 => rfl
  | unpackints64 => rfl
  | serialize => rfl
  | deserialize => rfl

/-! ### Running an issued command -/

/-- A row of 64 bits is the register value itself (R90, R95). -/
theorem tableWord_toNat (c : Word) : tableWord 64 c.toNat = c := by
  rw [tableWord, Nat.mod_eq_of_lt c.isLt, BitVec.ofNat_toNat, BitVec.setWidth_eq]

/-- The completion step of a word that decodes is its command (R73). -/
theorem completion_of_decode {s : State} {i : Instr} (h : decode s.latch.cmd = .ok i) : completion s = exec i s := by
  rw [completion, h]

/-- The core's turn in flight is the completion step (R73). -/
theorem coreTurn_of_busy {s : State} (h : s.status.busy = true) : coreTurn s = completion s := if_pos h

/-- The step after `issuedNow` takes the core's turn that was put first, and so completes the issued word (R24, R73). -/
theorem step_issuedNow (c : Word) (s : State) : step (issuedNow c s) = completion (issue c s) :=
  coreTurn_of_busy (s := issue c s) rfl

/-- Settles O6. -/
theorem issuedWordRunsNext : Obligations.IssuedWordRunsNext := by
  intro i s hi
  rw [State.withFetchWord, tableWord_toNat, step_issuedNow]
  exact completion_of_decode (decode_encode hi)

end Sys2Proof.Machine
end

section
/-! SUPPORT. What a completion does to memory and to the rest of the state: how it ends, which bytes it writes and with what,
and that the bytes of its source window alone decide it. -/

namespace Sys2Proof.Machine

/-! ### How a command ends -/

/-- A command's completion leaves STATUS completed with some code (R73). -/
theorem exec_status {i : Instr} {s t : State} (h : exec i s = .next t) : ∃ c, t.status = s.status.completed c := by
  rcases exec_cases h with ⟨c, _, rfl⟩ | ⟨r, _, rfl⟩
  · exact ⟨c, rfl⟩
  · exact ⟨.none, rfl⟩

/-- Settles O8: every arm of `exec` is a plan that `finish` ends, by an error or by its effects. -/
theorem everyCommandCompletes : Obligations.EveryCommandCompletes := by
  intro i s
  obtain ⟨c, hc⟩ := exec_status (exec_next i s)
  exact ⟨_, exec_next i s, by simp [hc]⟩

/-- A step with an event left takes that event (R269). -/
theorem step_of_event {s : State} {e : Event} {rest : List Event} (h : s.inputs = e :: rest) :
    step s = handle e { s with inputs := rest } := by
  rw [step, nextEvent, h]

/-- A step with no event left is the core's turn (R303). -/
theorem step_of_no_event {s : State} (h : s.inputs = []) : step s = coreTurn s := by
  rw [step, nextEvent, h]

/-- The core's turn in flight, taken as an event, is the completion step (R73). -/
theorem handle_coreTurn_of_busy {s : State} (h : s.status.busy = true) : handle .coreTurn s = completion s :=
  coreTurn_of_busy h

/-- Settles O5: either way the step is the core's turn, and in flight that is the completion of the latched word. -/
theorem stepRunsLatchedCommand : Obligations.StepRunsLatchedCommand := by
  intro s i hb hd
  refine ⟨fun hnone => ?_, fun rest hturn => ?_⟩
  · rw [step_of_no_event hnone, coreTurn_of_busy hb, completion_of_decode hd]
  · refine (step_of_event hturn).trans ((handle_coreTurn_of_busy ?_).trans (completion_of_decode ?_))
    · exact hb
    · exact hd

/-! ### What a success writes -/

/-- A result that fits the destination window has a length that RES_LEN can hold. -/
theorem succeed_resLen_toNat {r : Result} {s : State} (hfit : r.len ≤ dstSize s) : (succeed r s).resLen.toNat = r.len := by
  have hlt : dstSize s < 2 ^ 64 := s.latch.dstLen.isLt
  rw [succeed_resLen, BitVec.toNat_ofNat, Nat.mod_eq_of_lt (by omega)]

/-- Inside its result a success has written the bytes that land for it (R68). -/
theorem succeed_read_inside (r : Result) (s : State) {k : Nat} (h : k < r.bytes.length) :
    (succeed r s).mem.read (dstBase s + k) = (coreBytes s r.bytes).getD k 0 := by
  rw [succeed_mem, read_write, coreBytes_length, if_pos (by omega), Nat.add_sub_cancel_left]

/-- Outside its result a success has written nothing (R68). -/
theorem succeed_unchangedOutside (r : Result) (s : State) :
    unchangedOutside s.mem (succeed r s).mem (dstBase s) r.bytes.length := by
  intro a ha
  rw [succeed_mem, read_write_outside _ _ _ _ (by rwa [coreBytes_length])]

/-- What lands for a hazarded command is a free byte at each address (R76, I14). -/
theorem coreBytes_getD_of_raced {s : State} (h : s.raced = true) {bs : List Byte} {k : Nat} (hk : k < bs.length) :
    (coreBytes s bs).getD k 0 = Config.freeByte (s.draws + 1) (dstBase s + k) := by
  simp [coreBytes, h, List.getD_eq_getElem?_getD, hk]

/-- Settles O49: the result fits its window, and `succeed` writes it there and touches no other field. -/
theorem successWritesResultOnly : Obligations.SuccessWritesResultOnly := by
  intro i s t hx he
  obtain ⟨r, _, _, hlen, hfit, hseed, rfl⟩ := exec_succeeded hx he
  refine ⟨?_, ?_, rfl, fun hno => ?_, drawsAfter_of_not_raced⟩
  · rwa [succeed_resLen_toNat hfit]
  · rw [succeed_resLen_toNat hfit, ← hlen]
    exact succeed_unchangedOutside r s
  · rw [succeed_seedLo, succeed_seedHi, hseed hno]
    exact ⟨rfl, rfl⟩

/-- Settles O56: the bytes of the result are those that land, and for a hazarded command each is free. -/
theorem hazardedCommandWritesAnyBytes : Obligations.HazardedCommandWritesAnyBytes := by
  intro i s t hr hx he k hk
  obtain ⟨r, _, _, hlen, hfit, _, rfl⟩ := exec_succeeded hx he
  rw [succeed_resLen_toNat hfit, ← hlen] at hk
  rw [succeed_read_inside r s hk, coreBytes_getD_of_raced hr hk]

/-! ### The source window decides -/

/-- Two binds agree when their continuations do wherever the first part succeeds. -/
theorem bind_congr_of_ok {ε α β : Type} {x : Except ε α} {f g : α → Except ε β} (h : ∀ a, x = .ok a → f a = g a) :
    (x >>= f) = (x >>= g) := by
  cases x with
  | error e => rfl
  | ok a => exact h a rfl

section
variable {s : State} {m : Memory} (hm : ∀ a, inSource s a → m.read a = s.mem.read a)
include hm

/-- The core reads the same from two memories that agree on the source window, as far as that window reaches (R67). -/
theorem coreRead_with_mem {n : Nat} (hn : n ≤ srcSize s) : coreRead { s with mem := m } n = coreRead s n := by
  unfold coreRead
  split
  · rfl
  · exact readBytes_congr s.mem m (srcBase s) n fun a hlo hhi => hm a ⟨hlo, by omega⟩

/-- The whole source window reads the same. -/
theorem coreRead_window_with_mem :
    coreRead { s with mem := m } (srcSize { s with mem := m }) = coreRead s (srcSize s) := coreRead_with_mem hm le_rfl

theorem sourceBlock_with_mem (w : WordSize) (h : blockBytes w ≤ srcSize s) :
    sourceBlock w { s with mem := m } = sourceBlock w s := by
  rw [sourceBlock, coreRead_with_mem hm h, sourceBlock]

/-! A kernel command reads only once its checks have passed, and then no more than SRC_LEN bytes. -/

theorem packPlan_with_mem (w : WordSize) (nb : Nat) : packPlan w nb { s with mem := m } = packPlan w nb s := by
  refine bind_congr_of_ok fun _ hk => ?_
  obtain ⟨_, _, hsrc, _⟩ := kernelChecks_ok_iff.mp hk
  rw [sourceBlock_with_mem hm w hsrc]

theorem unpackPlan_with_mem (w : WordSize) (nb : Nat) : unpackPlan w nb { s with mem := m } = unpackPlan w nb s := by
  refine bind_congr_of_ok fun _ hk => ?_
  obtain ⟨_, _, hsrc, _⟩ := kernelChecks_ok_iff.mp hk
  rw [coreRead_with_mem hm hsrc]

theorem dpackPlan_with_mem (w : WordSize) (nb : Nat) : dpackPlan w nb { s with mem := m } = dpackPlan w nb s := by
  refine bind_congr_of_ok fun _ hk => ?_
  obtain ⟨_, _, hsrc, _⟩ := kernelChecks_ok_iff.mp hk
  rw [sourceBlock_with_mem hm w hsrc]
  rfl

theorem dunpackPlan_with_mem (w : WordSize) (nb : Nat) : dunpackPlan w nb { s with mem := m } = dunpackPlan w nb s := by
  refine bind_congr_of_ok fun _ hk => ?_
  obtain ⟨_, _, hsrc, _⟩ := kernelChecks_ok_iff.mp hk
  rw [coreRead_with_mem hm hsrc]
  rfl

/-! The other commands read the source window whole. -/

theorem packIntsPlan_with_mem (w : WordSize) (d : Bool) : packIntsPlan w d { s with mem := m } = packIntsPlan w d s := by
  rw [packIntsPlan, coreRead_window_with_mem hm]
  rfl

theorem unpackIntsPlan_with_mem (w : WordSize) : unpackIntsPlan w { s with mem := m } = unpackIntsPlan w s := by
  rw [unpackIntsPlan, coreRead_window_with_mem hm]
  rfl

theorem serializePlan_with_mem : serializePlan { s with mem := m } = serializePlan s := by
  rw [serializePlan, coreRead_window_with_mem hm]
  rfl

theorem deserializePlan_with_mem : deserializePlan { s with mem := m } = deserializePlan s := by
  rw [deserializePlan, coreRead_window_with_mem hm]
  rfl

/-- What a command decides rests on no byte outside its source window (R67). -/
theorem planOf_with_mem (i : Instr) : planOf i { s with mem := m } = planOf i s := by
  cases i with
  | pack32 nb => exact packPlan_with_mem hm .w32 nb
  | pack64 nb => exact packPlan_with_mem hm .w64 nb
  | unpack32 nb => exact unpackPlan_with_mem hm .w32 nb
  | unpack64 nb => exact unpackPlan_with_mem hm .w64 nb
  | dpack32 nb => exact dpackPlan_with_mem hm .w32 nb
  | dpack64 nb => exact dpackPlan_with_mem hm .w64 nb
  | dunpack32 nb => exact dunpackPlan_with_mem hm .w32 nb
  | dunpack64 nb => exact dunpackPlan_with_mem hm .w64 nb
  | packints32 => exact packIntsPlan_with_mem hm .w32 false
  | packints64 => exact packIntsPlan_with_mem hm .w64 false
  | dpackints32 => exact packIntsPlan_with_mem hm .w32 true
  | dpackints64 => exact packIntsPlan_with_mem hm .w64 true
  | unpackints32 => exact unpackIntsPlan_with_mem hm .w32
  | unpackints64 => exact unpackIntsPlan_with_mem hm .w64
  | serialize => exact serializePlan_with_mem hm
  | deserialize => exact deserializePlan_with_mem hm

end

/-- The bytes that a success writes do not depend on the memory that it writes them to. -/
theorem succeed_with_mem_read (r : Result) (s : State) (m : Memory) {a : Nat} (hlo : dstBase s ≤ a)
    (hhi : a < dstBase s + r.bytes.length) : (succeed r { s with mem := m }).mem.read a = (succeed r s).mem.read a := by
  obtain ⟨k, rfl⟩ := Nat.exists_eq_add_of_le hlo
  have hk : k < r.bytes.length := by omega
  rw [succeed_read_inside r s hk]
  exact succeed_read_inside r { s with mem := m } hk

/-- Settles O51: both runs decide the same, and then end the same but for the memory outside the result. -/
theorem onlySourceWindowMatters : Obligations.OnlySourceWindowMatters := by
  intro i s t m _ hm hx
  have hplan := planOf_with_mem hm i
  rcases exec_outcomes hx with ⟨c, hc, hp, rfl⟩ | ⟨r, hp, _, hlen, hfit, _, rfl⟩
  · refine ⟨_, exec_of_plan_error (hplan.trans hp), rfl, rfl, rfl, rfl, fun he => ?_⟩
    simp [hc] at he
  · refine ⟨_, exec_of_plan_ok (hplan.trans hp), rfl, rfl, rfl, rfl, fun _ a hlo hhi => ?_⟩
    rw [succeed_resLen_toNat hfit, ← hlen] at hhi
    exact succeed_with_mem_read r s m hlo hhi

/-- Settles O52: where both windows hold a byte and each begins below the other's end, the later base is in both. -/
theorem overlapMeansSharedAddress : Obligations.OverlapMeansSharedAddress := by
  intro s
  constructor
  · rintro ⟨hsrc, hdst, hsd, hds⟩
    exact ⟨max (srcBase s) (dstBase s), by omega, by omega⟩
  · rintro ⟨a, ⟨hs, hs'⟩, hd, hd'⟩
    exact ⟨by omega, by omega, by omega, by omega⟩

end Sys2Proof.Machine
end

section
/-! SUPPORT. Host accesses to the data memory: what a read returns, when a write records HostHazard, what every step keeps,
and the order in which host and core see each other's writes. -/

namespace Sys2Proof.Machine

/-! ### Host reads -/

/-- The host sees the memory's byte while no command is in flight (R76). -/
theorem hostByte_of_idle {s : State} (h : s.status.busy = false) (a : Nat) : hostByte s a = s.mem.read a :=
  if_neg (by simp [h])

/-- A host read inside memory records the bytes that the host sees and uses one draw. -/
theorem handle_memRead {s : State} {addr len : Nat} (h : addr + len ≤ s.platform.memSize) :
    handle (.memRead addr len) s = .next { s with
      observed := .mem addr ((List.range len).map fun k => hostByte s (addr + k)) :: s.observed
      draws := s.draws + 1 } := if_neg (by omega)

/-- A host read while no command is in flight records the memory's bytes (R76). -/
theorem handle_memRead_of_idle {s : State} {addr len : Nat} (hb : s.status.busy = false)
    (h : addr + len ≤ s.platform.memSize) :
    handle (.memRead addr len) s = .next { s with
      observed := .mem addr (s.mem.readBytes addr len) :: s.observed
      draws := s.draws + 1 } := by
  rw [handle_memRead h]
  simp only [hostByte_of_idle hb, Memory.readBytes]

/-- A host read past MEM_SIZE faults (R60). -/
theorem handle_memRead_outside {s : State} {addr len : Nat} (h : addr + len > s.platform.memSize) :
    handle (.memRead addr len) s = .fault (.noSuchAddress addr len) := if_pos h

/-- Settles O54: byte k of the record is `hostByte` at its address. -/
theorem hostReadInFlight : Obligations.HostReadInFlight := by
  intro addr len s
  refine ⟨handle_memRead_outside, fun hin => ⟨_, handle_memRead hin, by simp, fun k hk => ?_⟩⟩
  simp [List.getD_eq_getElem?_getD, hk, hostByte]

/-! ### Host writes -/

/-- A host write hits a window in flight exactly when it stores to an address of one (R76). -/
theorem hitsWindows_iff (s : State) (addr n : Nat) : hitsWindows s addr n ↔
    s.status.busy = true ∧ ∃ a, addr ≤ a ∧ a < addr + n ∧ (inSource s a ∨ inDestination s a) := by
  refine and_congr_right fun _ => ⟨?_, ?_⟩
  · rintro ⟨k, hk, hwin⟩
    have hlt := List.mem_range.mp hk
    exact ⟨addr + k, by omega, by omega, hwin⟩
  · rintro ⟨a, hlo, hhi, hwin⟩
    obtain ⟨k, rfl⟩ := Nat.exists_eq_add_of_le hlo
    exact ⟨k, List.mem_range.mpr (by omega), hwin⟩

/-- A host write inside memory stores its bytes and marks a hit (R76). -/
theorem handle_memWrite {s : State} {addr : Nat} {bs : List Byte} (h : addr + bs.length ≤ s.platform.memSize) :
    handle (.memWrite addr bs) s = .next { s with
      mem := s.mem.write addr bs
      hostHazard := s.hostHazard || decide (hitsWindows s addr bs.length)
      raced := s.raced || decide (hitsWindows s addr bs.length) } := if_neg (by omega)

/-- A host write past MEM_SIZE faults (R60). -/
theorem handle_memWrite_outside {s : State} {addr : Nat} {bs : List Byte} (h : addr + bs.length > s.platform.memSize) :
    handle (.memWrite addr bs) s = .fault (.noSuchAddress addr bs.length) := if_pos h

/-- A host write while no command is in flight is a write and no more (R76). -/
theorem handle_memWrite_of_idle {s : State} {addr : Nat} {bs : List Byte} (hb : s.status.busy = false)
    (h : addr + bs.length ≤ s.platform.memSize) :
    handle (.memWrite addr bs) s = .next { s with mem := s.mem.write addr bs } := by
  have hmiss : ¬hitsWindows s addr bs.length := by simp [hb]
  rw [handle_memWrite h]
  simp only [decide_eq_false hmiss, Bool.or_false]

/-- Settles O55: the hazard bits are or-ed with `hitsWindows`, which says that a byte lies in a window. -/
theorem hostWriteRecordsHazard : Obligations.HostWriteRecordsHazard := by
  intro addr bs s
  refine ⟨handle_memWrite_outside, fun hin => ⟨_, handle_memWrite hin, rfl, readBytes_write _ _ _,
    read_write_outside _ _ _, fun hhit => ?_, fun hmiss => ?_⟩⟩
  · rw [← hitsWindows_iff] at hhit
    simp only [decide_eq_true hhit, Bool.or_true, and_self]
  · rw [← hitsWindows_iff] at hmiss
    simp only [decide_eq_false hmiss, Bool.or_false, and_self]

/-! ### What every step keeps -/

/-- A completion leaves the model's own fields about the platform and the host as they were. -/
theorem completion_frame {s t : State} (h : completion s = .next t) :
    t.platform = s.platform ∧ t.hostHazard = s.hostHazard ∧ t.inputs = s.inputs ∧ t.observed = s.observed := by
  rcases completion_outcomes h with ⟨c, _, rfl⟩ | ⟨r, _, _, _, rfl⟩
  · exact ⟨rfl, rfl, rfl, rfl⟩
  · exact ⟨rfl, rfl, rfl, rfl⟩

/-- A host register write reaches neither the platform nor HostHazard. -/
theorem writeReg_frame (i : Nat) (v : Word) (s : State) :
    (writeReg i v s).platform = s.platform ∧ (writeReg i v s).hostHazard = s.hostHazard := by
  rcases writeReg_cases i v s with heq | ⟨_, heq⟩ | ⟨_, _, _, _, _, _, _, heq⟩ | ⟨_, heq⟩ <;> rw [heq] <;> exact ⟨rfl, rfl⟩

/-- The platform is the same in `t` as in `s`, and a HostHazard recorded in `s` is recorded in `t` (R11, R76). -/
def keepsPlatformAndHazard (s t : State) : Prop :=
  t.platform = s.platform ∧ (s.hostHazard = true → t.hostHazard = true)

theorem keepsPlatformAndHazard_of_eq {s t : State} (hp : t.platform = s.platform) (hh : t.hostHazard = s.hostHazard) :
    keepsPlatformAndHazard s t := ⟨hp, fun h => hh.trans h⟩

theorem coreTurn_keepsPlatformAndHazard {s t : State} (h : coreTurn s = .next t) : keepsPlatformAndHazard s t := by
  rcases coreTurn_cases h with ⟨_, rfl⟩ | ⟨_, hc⟩
  · exact keepsPlatformAndHazard_of_eq rfl rfl
  · obtain ⟨hp, hh, _, _⟩ := completion_frame hc
    exact keepsPlatformAndHazard_of_eq hp hh

theorem handle_keepsPlatformAndHazard {e : Event} {s t : State} (h : handle e s = .next t) :
    keepsPlatformAndHazard s t := by
  rcases handle_cases h with ⟨_, _, _, _, _, rfl⟩ | ⟨_, _, v, i, _, _, rfl⟩ | ⟨_, _, _, _, rfl⟩ |
    ⟨_, _, _, _, rfl⟩ | ⟨_, rfl⟩ | ⟨_, hc⟩
  · exact keepsPlatformAndHazard_of_eq rfl rfl
  · obtain ⟨hp, hh⟩ := writeReg_frame i v s
    exact keepsPlatformAndHazard_of_eq hp hh
  · exact keepsPlatformAndHazard_of_eq rfl rfl
  · exact ⟨rfl, fun hrec => by simp only [hrec, Bool.true_or]⟩
  · exact keepsPlatformAndHazard_of_eq rfl rfl
  · exact coreTurn_keepsPlatformAndHazard hc

/-- Settles O57: only a host write to memory touches HostHazard, and it can only set it. -/
theorem hazardAndPlatformPersist : Obligations.HazardAndPlatformPersist := by
  intro s t hs
  rcases step_cases hs with ⟨_, hc⟩ | ⟨e, rest, _, he⟩
  · exact coreTurn_keepsPlatformAndHazard hc
  · exact handle_keepsPlatformAndHazard (s := { s with inputs := rest }) he

/-! ### Host and core in order -/

/-- A host read of register `i` records its value (R36). -/
theorem handle_regRead_register (s : State) {i : Nat} (h : i < 32) :
    handle (.regRead (s.platform.regBase + 8 * i) 8) s =
      .next { s with observed := .reg (s.platform.regBase + 8 * i) (readReg s i) :: s.observed } :=
  ((registerAccessRules s 0 0 0).2 i h).1

/-- An idle host write to CMD issues (R24). -/
theorem handle_cmdWrite_of_idle {s : State} (hb : s.status.busy = false) (c : Word) :
    handle (.regWrite (s.platform.regBase + 8) 8 c) s = .next (issue c s) := by
  rw [← writeReg_cmd_of_idle c hb]
  exact ((registerAccessRules s 0 0 c).2 1 (by decide)).2

/-- A run takes its first event, and goes on from what that event leaves. -/
theorem reaches_event {s t u : State} {e : Event} {rest : List Event} {k : Nat} (hin : s.inputs = e :: rest)
    (he : handle e { s with inputs := rest } = .next t) (hrun : reaches t k u) : reaches s (k + 1) u :=
  (run_next ((step_of_event hin).trans he) k).trans hrun

/-- A host write to memory and then a CMD write, from an idle state, leave the command issued on the written memory (R74). -/
theorem reaches_of_memWrite_cmdWrite {s u : State} (hb : s.status.busy = false) {a : Nat} {bs : List Byte} {c : Word}
    (ha : a + bs.length ≤ s.platform.memSize) {rest : List Event} {k : Nat}
    (hrun : reaches { issue c { s with mem := s.mem.write a bs } with inputs := rest } k u) :
    reaches { s with inputs := .memWrite a bs :: .regWrite (s.platform.regBase + 8) 8 c :: rest } (k + 2) u := by
  refine reaches_event rfl (handle_memWrite_of_idle ?_ ?_) (reaches_event rfl (handle_cmdWrite_of_idle ?_ c) hrun)
  · exact hb
  · exact ha
  · exact hb

/-- A read of STATUS and then of memory, while no command is in flight, record STATUS and the memory's bytes (R75). -/
theorem reaches_statusRead_memRead {t : State} (hb : t.status.busy = false) {b n : Nat} (hn : b + n ≤ t.platform.memSize)
    (hin : t.inputs = [.regRead (t.platform.regBase + 16) 8, .memRead b n]) :
    reaches t 2 { t with
      inputs := []
      observed := .mem b (t.mem.readBytes b n) :: .reg (t.platform.regBase + 16) t.status.toWord :: t.observed
      draws := t.draws + 1 } := by
  refine reaches_event hin (handle_regRead_register { t with inputs := [.memRead b n] } (i := 2) (by decide))
    (reaches_event rfl (handle_memRead_of_idle ?_ ?_) rfl)
  · exact hb
  · exact hn

/-- Settles O11: the two writes leave the command issued on the written memory, the turn completes it, and the two reads
then see that completion's STATUS and memory. -/
theorem hostAndCoreAreOrdered : Obligations.HostAndCoreAreOrdered := by
  intro s c a b n bs hb ha hn
  obtain ⟨t, ht, hbusy, hdone⟩ := completion_next { issue c { s with mem := s.mem.write a bs } with
    inputs := [.regRead (s.platform.regBase + 16) 8, .memRead b n] }
  obtain ⟨hplat, _, hinputs, hobs⟩ := completion_frame ht
  replace hplat : t.platform = s.platform := hplat
  replace hobs : t.observed = s.observed := hobs
  have hreads := reaches_statusRead_memRead hbusy (hplat ▸ hn) (hplat ▸ hinputs)
  refine ⟨t, _, ht, hbusy, hdone,
    reaches_of_memWrite_cmdWrite hb ha (reaches_event rfl ((handle_coreTurn_of_busy rfl).trans ht) hreads), ?_, rfl⟩
  rw [hplat, hobs]

end Sys2Proof.Machine
end

section
/-! SUPPORT. Command words: a word is its fields, when the decoder reads a command from it, and when it matches no row. -/

namespace Sys2Proof.Machine

/-! ### Reading words -/

/-- Settles O1: the decoder reads back what the encoder writes, constructor by constructor. -/
theorem decodeOfEncode : Obligations.DecodeOfEncode := fun _ h => decode_encode h

/-- Settles O4: each word is read by evaluating the decoder. -/
theorem sampleWordsDecode : Obligations.SampleWordsDecode :=
  ⟨rfl, rfl, rfl, rfl, rfl, rfl, rfl, rfl, rfl, rfl⟩

/-! ### Fields of a command word -/

/-- NB has seven bits (R91). -/
theorem nbField_le (c : Word) : nbField c ≤ 127 := Nat.le_of_lt_succ (c.extractLsb' 16 7).isLt

/-- A word whose reserved bits are 0 is made up of OP, W and NB (R90, R91). -/
theorem toNat_of_fields {c : Word} (hhigh : highField c = 0) (hreserved : reservedField c = 0) :
    c.toNat = nbField c * 2 ^ 16 + ((wField c).toNat * 2 ^ 8 + opField c) := by
  have hw : (wField c).toNat = c.toNat / 2 ^ 8 % 2 := by
    rw [wField, BitVec.getLsbD, Nat.toNat_testBit]
  simp only [highField, reservedField, nbField, opField, hw, BitVec.extractLsb'_toNat, Nat.shiftRight_eq_div_pow]
    at hhigh hreserved ⊢
  have := c.isLt
  omega

/-! ### Words that decode -/

/-- A word decodes when its reserved bits are 0 and its fields name a row (R91, R93). -/
theorem decode_ok_iff {c : Word} {i : Instr} : decode c = .ok i ↔
    highField c = 0 ∧ reservedField c = 0 ∧ decodeFields (opField c) (wField c) (nbField c) = .ok i := by
  unfold decode
  split
  · simp_all
  · split <;> simp_all

theorem withoutWidth_ok_iff {nb : Nat} {i j : Instr} : withoutWidth nb i = .ok j ↔ nb = 0 ∧ i = j := by
  unfold withoutWidth
  split <;> simp_all

theorem withoutWordSize_ok_iff {w : Bool} {nb : Nat} {i j : Instr} :
    withoutWordSize w nb i = .ok j ↔ w = false ∧ nb = 0 ∧ i = j := by
  cases w
  · simpa [withoutWordSize] using withoutWidth_ok_iff
  · simp [withoutWordSize]

/-- A command read from the fields is well formed, and its word has these fields and nothing else (R93). -/
theorem encode_of_decodeFields {op nb : Nat} {w : Bool} {i : Instr} (hnb : nb ≤ 127)
    (h : decodeFields op w nb = .ok i) :
    i.WellFormed ∧ (encode i).toNat = nb * 2 ^ 16 + (w.toNat * 2 ^ 8 + op) := by
  have hkernel {m : Word} (hm : m.toNat < 2 ^ 16) := kernelWord_toNat hm hnb
  unfold decodeFields at h
  split at h
  case h_1 | h_2 | h_3 | h_4 =>
    cases h
    cases w <;> exact ⟨hnb, hkernel (by decide)⟩
  case h_5 | h_6 | h_7 =>
    obtain ⟨rfl, rfl⟩ := withoutWidth_ok_iff.mp h
    cases w <;> exact ⟨trivial, rfl⟩
  case h_8 | h_9 =>
    obtain ⟨rfl, rfl, rfl⟩ := withoutWordSize_ok_iff.mp h
    exact ⟨trivial, rfl⟩
  case h_10 => cases h

/-- Settles O2: the word and the encoding of its command have the same fields, which make up the whole of both. -/
theorem encodeOfDecode : Obligations.EncodeOfDecode := by
  intro c i h
  obtain ⟨hhigh, hreserved, hfields⟩ := decode_ok_iff.mp h
  obtain ⟨hwf, hword⟩ := encode_of_decodeFields (nbField_le c) hfields
  exact ⟨hwf, BitVec.eq_of_toNat_eq (hword.trans (toNat_of_fields hhigh hreserved).symm)⟩

/-! ### Words that match no row -/

/-- A word is refused for a reserved bit or for its fields (R94). -/
theorem decode_error_iff {c : Word} : (∃ e, decode c = .error e) ↔
    highField c ≠ 0 ∨ reservedField c ≠ 0 ∨ ∃ e, decodeFields (opField c) (wField c) (nbField c) = .error e := by
  unfold decode
  split
  · simp_all
  · split <;> simp_all

theorem withoutWidth_error_iff {nb : Nat} {i : Instr} : (∃ e, withoutWidth nb i = .error e) ↔ nb ≠ 0 := by
  unfold withoutWidth
  split <;> simp_all

theorem withoutWordSize_error_iff {w : Bool} {nb : Nat} {i : Instr} :
    (∃ e, withoutWordSize w nb i = .error e) ↔ w = true ∨ nb ≠ 0 := by
  cases w
  · simpa [withoutWordSize] using withoutWidth_error_iff
  · simp [withoutWordSize]

/-- Fields name no row for an unknown OP, an NB that must be 0, or a W that must be 0 (R94). -/
theorem decodeFields_error_iff {op nb : Nat} {w : Bool} : (∃ e, decodeFields op w nb = .error e) ↔
    op ∉ [0x01, 0x02, 0x03, 0x04, 0x10, 0x11, 0x12, 0x20, 0x21] ∨ (nb ≠ 0 ∧ op ∉ [0x01, 0x02, 0x03, 0x04]) ∨
      (w = true ∧ op ∈ [0x20, 0x21]) := by
  unfold decodeFields
  split
  case h_1 | h_2 | h_3 | h_4 => simp
  case h_5 | h_6 | h_7 => simp [withoutWidth_error_iff]
  case h_8 | h_9 => simp [withoutWordSize_error_iff, or_comm]
  case h_10 => simp_all

theorem highField_ne_zero_iff {c : Word} : highField c ≠ 0 ↔ c.extractLsb' 32 32 ≠ 0 :=
  BitVec.toNat_ne_iff_ne (y := 0)

theorem nbField_ne_zero_iff {c : Word} : nbField c ≠ 0 ↔ c.extractLsb' 16 7 ≠ 0 :=
  BitVec.toNat_ne_iff_ne (y := 0)

/-- The two groups of reserved bits below bit 32 stand side by side in one number (R91). -/
theorem reservedField_ne_zero_iff {c : Word} :
    reservedField c ≠ 0 ↔ c.extractLsb' 9 7 ≠ 0 ∨ c.extractLsb' 23 9 ≠ 0 := by
  rw [← BitVec.toNat_ne_iff_ne, ← BitVec.toNat_ne_iff_ne, reservedField]
  simp only [BitVec.ofNat_eq_ofNat, BitVec.toNat_zero]
  omega

/-- A latched word that matches no row ends with IllegalCommand (R94, R261 check 1). -/
theorem completion_of_decode_error {s : State} {e : DecodeError} (h : decode s.latch.cmd = .error e) :
    completion s = .next (raiseError .illegalCommand s) := by
  rw [completion, h]

/-- Settles O3: the decoder's refusals are R94's conditions on the fields, and the completion then raises the error. -/
theorem unmatchedWordsRaiseIllegalCommand : Obligations.UnmatchedWordsRaiseIllegalCommand := by
  refine ⟨fun c => ?_, ⟨_, rfl⟩, ?_⟩
  · rw [decode_error_iff, decodeFields_error_iff, highField_ne_zero_iff, reservedField_ne_zero_iff, nbField_ne_zero_iff]
    exact or_congr_right or_left_comm
  · rintro s ⟨e, he⟩
    exact ⟨_, completion_of_decode_error he, rfl, rfl, rfl⟩

end Sys2Proof.Machine
end

section
/-! SUPPORT. The seed of a delta kernel enters by its last element alone (spec/30_encoding.md R101). -/

namespace Sys2Proof.Machine

section
variable {w : WordSize} {s : State} {lo hi : Word}

/-- The checks and the reads of a kernel look at no seed register, so its plan depends on the seed last element only. -/
theorem dpackPlan_with_seed (nb : Nat) (h : lastOf w { s with seedLo := lo, seedHi := hi } = lastOf w s) :
    dpackPlan w nb { s with seedLo := lo, seedHi := hi } = dpackPlan w nb s := by
  rw [dpackPlan, seedLast_eq_lastOf, h, ← seedLast_eq_lastOf]
  rfl

theorem dunpackPlan_with_seed (nb : Nat) (h : lastOf w { s with seedLo := lo, seedHi := hi } = lastOf w s) :
    dunpackPlan w nb { s with seedLo := lo, seedHi := hi } = dunpackPlan w nb s := by
  rw [dunpackPlan, seedLast_eq_lastOf, h, ← seedLast_eq_lastOf]
  rfl

/-- A result with a new seed leaves nothing of the old one (R101). -/
theorem succeed_with_seed {r : Result} {bs : List Byte} (h : r.seed = some bs) :
    succeed r { s with seedLo := lo, seedHi := hi } = succeed r s := by
  rw [succeed, h, succeed, h]
  rfl

end

/-- A delta kernel that succeeds has a new seed (R147). -/
theorem planOf_dkernel_seed {w : WordSize} {nb : Nat} {i : Instr} {s : State} {r : Result}
    (hi : i = dpackInstr w nb ∨ i = dunpackInstr w nb) (h : planOf i s = .ok r) : ∃ bs, r.seed = some bs := by
  rcases hi with rfl | rfl
  · rw [plan_dpack] at h
    obtain ⟨_, rfl⟩ := dpackPlan_ok_iff.mp h
    exact ⟨_, rfl⟩
  · rw [plan_dunpack] at h
    obtain ⟨_, rfl⟩ := dunpackPlan_ok_iff.mp h
    exact ⟨_, rfl⟩

/-- Settles O32: the plan depends on the seed last element only, and its result replaces both seed registers. -/
theorem otherSeedLanesHaveNoEffect : Obligations.OtherSeedLanesHaveNoEffect := by
  intro w nb i s t lo hi _ hi' hlast hx he
  obtain ⟨r, hp, _, _, _, _, rfl⟩ := exec_succeeded hx he
  obtain ⟨bs, hbs⟩ := planOf_dkernel_seed hi' hp
  have hplan : planOf i { s with seedLo := lo, seedHi := hi } = planOf i s := by
    rcases hi' with rfl | rfl
    · simp only [plan_dpack, dpackPlan_with_seed nb hlast]
    · simp only [plan_dunpack, dunpackPlan_with_seed nb hlast]
  rw [exec_of_plan_ok (hplan.trans hp), succeed_with_seed hbs]

end Sys2Proof.Machine
end

section
/-! SUPPORT. Where the fields of a container stand: parts of a byte list, the image and the wire bytes that the encoders
write (spec/30_encoding.md R110 to R121). -/

namespace Sys2Proof.Machine

/-! ### Parts of a byte list -/

/-- A byte of the middle of three parts. -/
theorem getD_append_mid {α : Type} {A X Z : List α} {p k : Nat} (d : α) (hA : A.length = p) (hk : k < X.length) :
    (A ++ (X ++ Z)).getD (p + k) d = X.getD k d := by
  subst hA
  rw [List.getD_append_right _ _ _ _ (Nat.le_add_right _ _), Nat.add_sub_cancel_left, List.getD_append _ _ _ _ hk]

/-- The middle of three parts, cut out (R16). -/
theorem slice_append_mid {A X Z : List Byte} {p n : Nat} (hA : A.length = p) (hX : X.length = n) :
    slice (A ++ (X ++ Z)) p (p + n) = X := by
  rw [slice, List.drop_left' hA, Nat.add_sub_cancel_left, List.take_left' hX]

/-- Byte k of a little-endian encoding (R17). -/
theorem toLE_getD {n k : Nat} (v : Nat) (h : k < n) : (toLE n v).getD k 0 = BitVec.ofNat 8 (v / 256 ^ k) := by
  induction n generalizing v k with
  | zero => omega
  | succ n ih =>
    cases k with
    | zero => simp [toLE]
    | succ k => rw [toLE, List.getD_cons_succ, ih _ (by omega), Nat.div_div_eq_div_mul, ← pow_succ']

/-- A u32 that stands between two other parts is read there (R61). -/
theorem u32At_append_mid {A Z : List Byte} {p : Nat} (v : Nat) (hA : A.length = p) :
    u32At (A ++ (toLE 4 v ++ Z)) p v := by
  intro k hk
  rw [getD_append_mid 0 hA (by rwa [toLE_length]), toLE_getD v hk, BitVec.toNat_ofNat]

/-- What entry b contributes to a concatenation stands between what the entries before and after it do. -/
theorem flatMap_eq_mid {α β : Type} (f : α → List β) {xs : List α} {b : Nat} {x : α} (h : xs[b]? = some x) :
    xs.flatMap f = (xs.take b).flatMap f ++ (f x ++ (xs.drop (b + 1)).flatMap f) := by
  obtain ⟨hb, rfl⟩ := List.getElem?_eq_some_iff.mp h
  rw [← List.flatMap_cons, ← List.drop_eq_getElem_cons hb, ← List.flatMap_append, List.take_append_drop]

theorem sized_take {bs : List (Nat × List Byte)} (h : sized bs) (n : Nat) : sized (bs.take n) :=
  fun x hx => h x (List.mem_of_mem_take hx)

theorem sized_of_valid {C : Container} (h : C.valid) : sized C.blocks := by
  obtain ⟨_, _, hblocks⟩ := h
  exact fun b hb => (hblocks b hb).2

/-- A block of a valid container: its width fits a byte, and its bytes are as many as the width asks for (R106). -/
theorem block_of_valid {C : Container} (h : C.valid) {b nb : Nat} {P : List Byte} (hb : C.blocks[b]? = some (nb, P)) :
    nb < 2 ^ 8 ∧ P.length = 16 * nb := by
  obtain ⟨_, _, hblocks⟩ := h
  obtain ⟨hle, hlen⟩ := hblocks _ (List.mem_of_getElem? hb)
  have hbits : bitsOf C.word ≤ 64 := by cases C.word <;> decide
  exact ⟨by simp only at hle; omega, hlen⟩

theorem ofNat_toNat_of_lt {nb : Nat} (h : nb < 2 ^ 8) : (BitVec.ofNat 8 nb : Byte).toNat = nb := by
  rw [BitVec.toNat_ofNat, Nat.mod_eq_of_lt h]

/-! ### The image -/

/-- The first 16 bytes of an image are the header (R111). -/
theorem imageEncode_getD_header (C : Container) {k : Nat} (h : k < 16) :
    (imageEncode C).getD k 0 = (imageHeader C).getD k 0 := by
  rw [imageEncode, List.append_assoc, List.getD_append _ _ _ _ (by rwa [imageHeader_length])]

/-- From byte 16 an image holds the table and its padding (R112). -/
theorem imageEncode_getD_table (C : Container) {k : Nat} (h : k < pad16 C.blocks.length) :
    (imageEncode C).getD (16 + k) 0 = (imageTable C).getD k 0 := by
  rw [imageEncode, List.append_assoc, getD_append_mid 0 (imageHeader_length C) (by rwa [imageTable_length])]

theorem imageTable_getD_width {C : Container} {b : Nat} {x : Nat × List Byte} (h : C.blocks[b]? = some x) :
    (imageTable C).getD b 0 = BitVec.ofNat 8 x.1 := by
  have hb : b < C.blocks.length := (List.getElem?_eq_some_iff.mp h).1
  rw [imageTable, List.getD_append _ _ _ _ (by rwa [List.length_map])]
  simp [List.getD_eq_getElem?_getD, h]

theorem imageTable_getD_padding (C : Container) {k : Nat} (h : C.blocks.length ≤ k) : (imageTable C).getD k 0 = 0 := by
  rw [imageTable, List.getD_append_right _ _ _ _ (by rwa [List.length_map])]
  rw [List.getD_eq_getElem?_getD, List.getElem?_getD_replicate_default_eq]

theorem imageEncode_getD_tag (C : Container) : (imageEncode C).getD 4 0 = tagByte C.word :=
  imageEncode_getD_header C (by decide)

theorem imageEncode_getD_flag (C : Container) : (imageEncode C).getD 5 0 = flagByte C.delta :=
  imageEncode_getD_header C (by decide)

theorem imageEncode_u32At_count (C : Container) : u32At (imageEncode C) 0 C.count := by
  rw [imageEncode, imageHeader]
  simp only [List.append_assoc]
  exact u32At_append_mid (A := []) _ rfl

theorem imageEncode_u32At_blockCount (C : Container) : u32At (imageEncode C) 8 C.blocks.length := by
  rw [imageEncode, imageHeader]
  simp only [List.append_assoc]
  rw [← List.append_assoc]
  exact u32At_append_mid _ (by simp)

/-- The table is padded to a multiple of 16 bytes, and the blocks follow it (R112, R113). -/
theorem imageBlockOffset_eq (n : Nat) (widths : List Nat) (b : Nat) :
    imageBlockOffset n widths b = 16 + pad16 n + 16 * (widths.take b).sum := rfl

/-- Block b of an image stands at off_b (R113). -/
theorem slice_imageEncode {C : Container} (h : C.valid) {b nb : Nat} {P : List Byte}
    (hb : C.blocks[b]? = some (nb, P)) :
    slice (imageEncode C) (imageBlockOffset C.blocks.length (C.blocks.map (·.1)) b)
      (imageBlockOffset C.blocks.length (C.blocks.map (·.1)) b + 16 * nb) = P := by
  have hbefore := flatMap_length_of_sized _ (sized_take (sized_of_valid h) b)
  rw [imageEncode, flatMap_eq_mid _ hb, ← List.append_assoc _ _ (P ++ _)]
  refine slice_append_mid ?_ (block_of_valid h hb).2
  rw [imageBlockOffset_eq, ← List.map_take, List.length_append, List.length_append, hbefore,
    imageHeader_length, imageTable_length]

/-! ### The wire bytes -/

@[simp] theorem wireRecord_length (b : Nat × List Byte) : (wireRecord b).length = 5 + b.2.length := by
  rw [wireRecord, List.length_cons, List.length_append, toLE_length]
  omega

theorem flatMap_wireRecord_length {bs : List (Nat × List Byte)} (h : sized bs) :
    (bs.flatMap wireRecord).length = (bs.map fun b => 5 + 16 * b.1).sum := by
  rw [List.length_flatMap]
  exact congrArg List.sum (List.map_congr_left fun b hb => by rw [wireRecord_length, h b hb])

section
variable {A Z P : List Byte} {p nb : Nat} (hA : A.length = p)
include hA

/-! A record that stands after `A`: its width, its length field and its data (R120). -/

theorem getD_wireRecord_width (hnb : nb < 2 ^ 8) : ((A ++ (wireRecord (nb, P) ++ Z)).getD p 0).toNat = nb := by
  rw [← Nat.add_zero p, getD_append_mid 0 hA (by simp)]
  exact ofNat_toNat_of_lt hnb

theorem u32At_wireRecord_length : u32At (A ++ (wireRecord (nb, P) ++ Z)) (p + 1) (16 * nb) := by
  have hshape : A ++ (wireRecord (nb, P) ++ Z) = (A ++ [BitVec.ofNat 8 nb]) ++ (toLE 4 (16 * nb) ++ (P ++ Z)) := by
    simp [wireRecord]
  rw [hshape]
  exact u32At_append_mid _ (by simp [hA])

theorem slice_wireRecord_data (hP : P.length = 16 * nb) :
    slice (A ++ (wireRecord (nb, P) ++ Z)) (p + 5) (p + 5 + 16 * nb) = P := by
  have hshape : A ++ (wireRecord (nb, P) ++ Z) = (A ++ BitVec.ofNat 8 nb :: toLE 4 (16 * nb)) ++ (P ++ Z) := by
    simp [wireRecord]
  rw [hshape]
  exact slice_append_mid (by simp [hA]) hP

end

/-- A record offset in terms of the blocks before it (R120). -/
theorem wireRecordOffset_eq (bs : List (Nat × List Byte)) (b : Nat) :
    wireRecordOffset (bs.map (·.1)) b = 10 + ((bs.take b).map fun x => 5 + 16 * x.1).sum := by
  rw [wireRecordOffset, ← List.map_take, List.map_map]
  rfl

/-- The wire bytes before block b's record, as many as its offset says (R120), then the record, then the rest. -/
theorem wireEncode_eq_mid {C : Container} (h : C.valid) {b : Nat} {x : Nat × List Byte} (hb : C.blocks[b]? = some x) :
    ∃ before after, before.length = wireRecordOffset (C.blocks.map (·.1)) b ∧
      wireEncode C = before ++ (wireRecord x ++ after) := by
  have hbefore := flatMap_wireRecord_length (sized_take (sized_of_valid h) b)
  refine ⟨_, _, ?_, by rw [wireEncode, flatMap_eq_mid _ hb, ← List.append_assoc]⟩
  rw [wireRecordOffset_eq, List.length_append, hbefore]
  simp

theorem wireEncode_getD_tag (C : Container) : (wireEncode C).getD 4 0 = tagByte C.word := rfl

theorem wireEncode_getD_flag (C : Container) : (wireEncode C).getD 5 0 = flagByte C.delta := rfl

theorem wireEncode_u32At_count (C : Container) : u32At (wireEncode C) 0 C.count := by
  rw [wireEncode]
  simp only [List.append_assoc]
  exact u32At_append_mid (A := []) _ rfl

theorem wireEncode_u32At_blockCount (C : Container) : u32At (wireEncode C) 6 C.blocks.length := by
  rw [wireEncode, List.append_assoc]
  exact u32At_append_mid _ (by simp)

/-- Settles O60: the header and the table have their bytes at fixed places, and block b stands after the blocks before it,
whose lengths its offset adds up. -/
theorem containerLayout : Obligations.ContainerLayout := by
  intro C h
  have hsized := sized_of_valid h
  refine ⟨⟨?_, imageEncode_u32At_count C, ?_, ?_, ?_, imageEncode_u32At_blockCount C, ?_, ?_⟩,
    ?_, wireEncode_u32At_count C, ?_, ?_, wireEncode_u32At_blockCount C, ?_⟩
  · rw [imageEncode_length C hsized, imageBlockOffset_eq, ← List.map_take, List.take_length]
    rfl
  · rw [imageEncode_getD_tag]
    cases C.word <;> rfl
  · rw [imageEncode_getD_flag]
    cases C.delta <;> rfl
  · intro k hk
    fin_cases hk <;> exact imageEncode_getD_header C (by decide)
  · intro k hlo hhi
    obtain ⟨j, rfl⟩ := Nat.exists_eq_add_of_le (show 16 ≤ k by omega)
    rw [imageEncode_getD_table C (Nat.lt_of_add_lt_add_left hhi), imageTable_getD_padding C (by omega)]
  · intro b nb P hb
    have hlt := (List.getElem?_eq_some_iff.mp hb).1
    refine ⟨?_, slice_imageEncode h hb⟩
    rw [imageEncode_getD_table C (hlt.trans_le (pad16_ge _)), imageTable_getD_width hb,
      ofNat_toNat_of_lt (block_of_valid h hb).1]
  · rw [wireEncode_length C hsized, wireRecordOffset_eq, List.take_length]
    rfl
  · rw [wireEncode_getD_tag]
    cases C.word <;> rfl
  · rw [wireEncode_getD_flag]
    cases C.delta <;> rfl
  · intro b nb P hb
    obtain ⟨hnb, hP⟩ := block_of_valid h hb
    obtain ⟨before, after, hlen, heq⟩ := wireEncode_eq_mid h hb
    rw [heq]
    exact ⟨getD_wireRecord_width hlen hnb, u32At_wireRecord_length hlen, slice_wireRecord_data hlen hP⟩

end Sys2Proof.Machine
end

section
/-! SUPPORT. The image decoder: the checks M1 to M8 on the bytes, and the fields and blocks that it reads
(spec/30_encoding.md R112, R113, R115). -/

namespace Sys2Proof.Machine

/-! ### Bytes of a part -/

theorem slice_getD (L : List Byte) {i j k : Nat} (h : k < j - i) : (slice L i j).getD k 0 = L.getD (i + k) 0 := by
  simp [slice, List.getD_eq_getElem?_getD, h]

theorem slice_drop (L : List Byte) (n i j : Nat) : slice (L.drop n) i j = slice L (n + i) (n + j) := by
  rw [slice, slice, List.drop_drop, Nat.add_sub_add_left]

/-- A part that lies inside the list, byte by byte. -/
theorem slice_eq_map_range (L : List Byte) (i n : Nat) (h : i + n ≤ L.length) :
    slice L i (i + n) = (List.range n).map fun k => L.getD (i + k) 0 := by
  refine List.ext_getElem (by simp; omega) fun k hk hk' => ?_
  have hkn : k < n := by simpa using hk'
  rw [← List.getD_eq_getElem _ 0 hk, slice_getD L (by omega)]
  simp

/-- The reserved bytes of the header are those at the six places that R111 names. -/
theorem slice_reserved (L : List Byte) (h : 16 ≤ L.length) :
    slice L 6 8 ++ slice L 12 16 = [6, 7, 12, 13, 14, 15].map fun k => L.getD k 0 := by
  rw [slice_eq_map_range L 6 2 (by omega), slice_eq_map_range L 12 4 h]
  rfl

/-! ### The widths in the table -/

/-- The widths that an image's table gives, one for each block that its header announces (R112). -/
def tableWidths (L : List Byte) : List Nat :=
  (List.range (fromLE (slice L 8 12))).map fun b => (L.getD (16 + b) 0).toNat

@[simp] theorem tableWidths_length (L : List Byte) : (tableWidths L).length = fromLE (slice L 8 12) := by
  simp [tableWidths]

theorem tableWidths_getElem?_eq_some {L : List Byte} {b nb : Nat} (h : (tableWidths L)[b]? = some nb) :
    nb = (L.getD (16 + b) 0).toNat := by
  obtain ⟨hb, rfl⟩ := List.getElem?_eq_some_iff.mp h
  simp [tableWidths]

/-- A condition on every width is one on every table byte. -/
theorem forall_mem_tableWidths {L : List Byte} {p : Nat → Prop} :
    (∀ nb ∈ tableWidths L, p nb) ↔ ∀ b, b < fromLE (slice L 8 12) → p (L.getD (16 + b) 0).toNat := by
  simp [tableWidths]

/-- The decoder reads the table where the image reaches to its end (M6). -/
theorem slice_table_widths {L : List Byte} (h : 16 + pad16 (fromLE (slice L 8 12)) ≤ L.length) :
    (slice L 16 (16 + fromLE (slice L 8 12))).map (·.toNat) = tableWidths L := by
  have hpad := pad16_ge (fromLE (slice L 8 12))
  rw [slice_eq_map_range L 16 _ (by omega), List.map_map]
  rfl

/-! ### Tags and flags -/

/-- A width can be checked against the tag itself (M7). -/
theorem tagByte_toNat (w : WordSize) : (tagByte w).toNat = bitsOf w := by cases w <;> rfl

/-- The tags of the two word sizes are 32 and 64 (M2). -/
theorem exists_tagByte_iff {b : Byte} : (∃ w, b = tagByte w) ↔ b = 32 ∨ b = 64 :=
  ⟨fun ⟨w, hw⟩ => by cases w; exacts [.inl hw, .inr hw], fun h => h.elim (⟨.w32, ·⟩) (⟨.w64, ·⟩)⟩

/-- The flags of the two modes are 0 and 1 (M3). -/
theorem exists_flagByte_iff {b : Byte} : (∃ d, b = flagByte d) ↔ b = 0 ∨ b = 1 :=
  ⟨fun ⟨d, hd⟩ => by cases d; exacts [.inl hd, .inr hd], fun h => h.elim (⟨false, ·⟩) (⟨true, ·⟩)⟩

theorem flagByte_eq_one_iff {d : Bool} : flagByte d = 1 ↔ d = true := by cases d <;> decide

/-! ### What the decoder accepts -/

/-- The container that the decoder reads from an image of word size `w` and mode `d` (R115). -/
def imageContainer (L : List Byte) (w : WordSize) (d : Bool) : Container :=
  { count := fromLE (slice L 0 4), word := w, delta := d
    blocks := splitBlocks (tableWidths L) (L.drop (16 + pad16 (fromLE (slice L 8 12)))) }

/-- An image is read when it passes M1 to M8, and the container is then the one in its bytes (R115). -/
theorem imageDecode_ok_iff {L : List Byte} {C : Container} : imageDecode L = .ok C ↔
    16 ≤ L.length ∧ L.getD 4 0 = tagByte C.word ∧ L.getD 5 0 = flagByte C.delta ∧
      (∀ k ∈ [6, 7, 12, 13, 14, 15], L.getD k 0 = 0) ∧
      fromLE (slice L 8 12) = blockCount (fromLE (slice L 0 4)) ∧
      16 + pad16 (fromLE (slice L 8 12)) ≤ L.length ∧
      (∀ nb ∈ tableWidths L, nb ≤ bitsOf C.word) ∧
      16 + pad16 (fromLE (slice L 8 12)) + 16 * (tableWidths L).sum ≤ L.length ∧
      C = imageContainer L C.word C.delta := by
  unfold imageDecode
  simp only [bind_ok, check_ok, wordOfTag_ok, deltaOfFlag_ok, pure_ok, Except.ok.injEq, exists_const]
  constructor
  · rintro ⟨h1, w, h2, d, h3, h4, h5, h6, h7, h8, rfl⟩
    have htable := slice_table_widths (by omega : 16 + pad16 (fromLE (slice L 8 12)) ≤ L.length)
    rw [slice_reserved L (by omega)] at h4
    rw [htable] at h7 h8 ⊢
    exact ⟨by omega, h2, h3, by simpa using h4, not_not.mp h5, by omega, mem_le_of_widths h7, by omega, rfl⟩
  · rintro ⟨h1, h2, h3, h4, h5, h6, h7, h8, hC⟩
    rw [slice_reserved L h1, slice_table_widths h6]
    exact ⟨by omega, _, h2, _, h3, by simpa using h4, not_not.mpr h5, by omega, by simpa using h7, by omega, hC.symm⟩

/-- Some container is read exactly from an image that passes M1 to M8 (R115). -/
theorem imageDecode_succeeds_iff {L : List Byte} : (∃ C, imageDecode L = .ok C) ↔
    16 ≤ L.length ∧ (L.getD 4 0 = 32 ∨ L.getD 4 0 = 64) ∧ (L.getD 5 0 = 0 ∨ L.getD 5 0 = 1) ∧
      (∀ k ∈ [6, 7, 12, 13, 14, 15], L.getD k 0 = 0) ∧
      fromLE (slice L 8 12) = blockCount (fromLE (slice L 0 4)) ∧
      16 + pad16 (fromLE (slice L 8 12)) ≤ L.length ∧
      (∀ nb ∈ tableWidths L, nb ≤ (L.getD 4 0).toNat) ∧
      16 + pad16 (fromLE (slice L 8 12)) + 16 * (tableWidths L).sum ≤ L.length := by
  simp only [imageDecode_ok_iff, ← exists_tagByte_iff, ← exists_flagByte_iff]
  constructor
  · rintro ⟨C, h1, h2, h3, h4, h5, h6, h7, h8, _⟩
    rw [h2, tagByte_toNat]
    exact ⟨h1, ⟨_, rfl⟩, ⟨_, h3⟩, h4, h5, h6, h7, h8⟩
  · rintro ⟨h1, ⟨w, h2⟩, ⟨d, h3⟩, h4, h5, h6, h7, h8⟩
    rw [h2, tagByte_toNat] at h7
    exact ⟨imageContainer L w d, h1, h2, h3, h4, h5, h6, h7, h8, rfl⟩

theorem exists_error_iff {ε α : Type} {x : Except ε α} : (∃ e, x = .error e) ↔ ¬∃ a, x = .ok a := by
  cases x <;> simp

/-! ### What the decoder reads -/

/-- Block b of a payload is the part that its width asks for, after the parts of the widths before it (R113). -/
theorem splitBlocks_getElem? (ws : List Nat) (L : List Byte) (b : Nat) : (splitBlocks ws L)[b]? =
    ws[b]?.map fun nb => (nb, slice L (16 * (ws.take b).sum) (16 * (ws.take b).sum + 16 * nb)) := by
  induction ws generalizing L b with
  | nil => rfl
  | cons w ws ih =>
    cases b with
    | zero => simp [splitBlocks, slice]
    | succ b => simp [splitBlocks, ih, slice, Nat.mul_add]

/-- A block that is read has the width of its table byte, and the bytes at off_b (R112, R113). -/
theorem imageContainer_block {L : List Byte} {w : WordSize} {d : Bool} {b nb : Nat} {P : List Byte}
    (h : (imageContainer L w d).blocks[b]? = some (nb, P)) :
    nb = (L.getD (16 + b) 0).toNat ∧
      P = slice L (imageBlockOffset (fromLE (slice L 8 12)) (tableWidths L) b)
        (imageBlockOffset (fromLE (slice L 8 12)) (tableWidths L) b + 16 * nb) := by
  rw [imageContainer, splitBlocks_getElem?, Option.map_eq_some_iff] at h
  obtain ⟨_, hnb, hblock⟩ := h
  cases hblock
  refine ⟨tableWidths_getElem?_eq_some hnb, ?_⟩
  rw [slice_drop, imageBlockOffset_eq, Nat.add_assoc (16 + pad16 _)]

/-- Settles O43: an image is refused when it fails to pass M1 to M8, and one that passes gives `imageContainer`. -/
theorem imageChecksAreM1ToM8 : Obligations.ImageChecksAreM1ToM8 := by
  intro L
  refine ⟨?_, fun _ => imageDecode_error, fun C hC => ?_⟩
  · rw [exists_error_iff, imageDecode_succeeds_iff, forall_mem_tableWidths]
    simp only [not_and_or, not_le, not_forall, exists_prop]
    rfl
  · obtain ⟨_, htag, hflag, _, _, _, _, _, hread⟩ := imageDecode_ok_iff.mp hC
    have hwidths : C.blocks.map (·.1) = tableWidths L := by rw [hread]; exact splitBlocks_widths _ _
    have hcount : C.blocks.length = fromLE (slice L 8 12) := by
      rw [← List.length_map (·.1), hwidths, tableWidths_length]
    rw [htag, tagByte_toNat, hflag, flagByte_eq_one_iff, hcount, hwidths]
    refine ⟨congrArg Container.count hread, rfl, Iff.rfl, rfl, fun b nb P hb => ?_⟩
    rw [hread] at hb
    exact imageContainer_block hb

end Sys2Proof.Machine
end

section
/-! SUPPORT. What the kernel commands read, compute and write: arrays and stream bits in memory, the block of a kernel as a
function of its operands, and the seed registers after it (spec/40_kernels.md R142 to R147). -/

namespace Sys2Proof.Machine

/-! ### Arrays and stream bits in memory -/

theorem write_unchangedOutside {m : Memory} {a n : Nat} {bs : List Byte} (h : bs.length = n) :
    unchangedOutside m (m.write a bs) a n := by
  subst h
  exact fun x hx => read_write_outside m a bs x hx

/-- An array of w-bit values that was written reads back as it is (R98). -/
theorem elemAt_write_of_lt {w : WordSize} {V : List Nat} (hV : ∀ v ∈ V, v < 2 ^ bitsOf w) (m : Memory) (a : Nat) {i : Nat}
    (hi : i < V.length) : elemAt w (m.write a (elementBytes (bytesOf w) V)) a i = V.getD i 0 := by
  rw [elemAt_write w m a V i hi, List.getD_eq_getElem _ _ hi]
  exact Nat.mod_eq_of_lt (hV _ (List.getElem_mem hi))

theorem elementBytes_length_of_block (w : WordSize) {V : List Nat} (h : V.length = 128) :
    (elementBytes (bytesOf w) V).length = blockBytes w := by
  rw [elementBytes_length, h, Nat.mul_comm, blockBytes]

/-- The first `8·n` stream bits at `base` are the bits of the first n bytes as one number (R102). -/
theorem streamBit_eq_testBit (m : Memory) (base : Nat) {n k : Nat} (h : k < 8 * n) :
    streamBit m base k = (fromLE (m.readBytes base n)).testBit k := by
  rw [fromLE_testBit, readBytes_getD _ _ _ _ (by omega), streamBit]

/-- Element i of an unpacked block has the stream bits from i·nb on (R103, R143). -/
theorem unpackBits_testBit (nb : Nat) (P : List Byte) {i j : Nat} (hi : i < 128) (hj : j < nb) :
    ((unpackBits nb P).getD i 0).testBit j = (fromLE P).testBit (i * nb + j) := by
  rw [unpackBits_getD nb P i hi, Nat.testBit_mod_two_pow, Nat.testBit_div_two_pow, decide_eq_true hj, Bool.true_and,
    Nat.add_comm]

/-! ### Packing at the word size, and at 0 -/

/-- A stream of 8·k bits for each value is the array of k-byte elements (R103, R157). -/
theorem toLE_streamOf (k : Nat) (V : List Nat) : toLE (k * V.length) (streamOf (8 * k) V) = elementBytes k V := by
  induction V with
  | nil => rfl
  | cons v vs ih =>
    have hv : v % 256 ^ k < 256 ^ k := Nat.mod_lt _ (by positivity)
    have hlow : toLE k (v % 256 ^ k + 256 ^ k * streamOf (8 * k) vs) = toLE k v := by
      rw [← toLE_mod, Nat.add_mul_mod_self_left, Nat.mod_mod, toLE_mod]
    have hhigh : (v % 256 ^ k + 256 ^ k * streamOf (8 * k) vs) / 256 ^ k = streamOf (8 * k) vs := by
      rw [Nat.add_mul_div_left _ _ (by positivity), Nat.div_eq_of_lt hv, Nat.zero_add]
    rw [streamOf, pow_mul, show (2 : Nat) ^ 8 = 256 from rfl, List.length_cons, Nat.mul_succ, Nat.add_comm (k * _), toLE_add,
      hlow, hhigh, ih, elementBytes_cons]

theorem sixteen_mul_bitsOf (w : WordSize) : 16 * bitsOf w = blockBytes w := by cases w <;> rfl

/-- At nb = w a packed block is its element array (R157). -/
theorem packBits_bitsOf (w : WordSize) {V : List Nat} (h : V.length = 128) :
    packBits (bitsOf w) V = elementBytes (bytesOf w) V := by
  rw [packBits, sixteen_mul_bitsOf, blockBytes, Nat.mul_comm, ← h, bitsOf_eq, toLE_streamOf]

theorem unpackBits_bitsOf (w : WordSize) {V : List Nat} (h : V.length = 128) (hV : ∀ v ∈ V, v < 2 ^ bitsOf w) :
    unpackBits (bitsOf w) (elementBytes (bytesOf w) V) = V := by
  rw [← packBits_bitsOf w h, unpackBits_packBits_of_lt _ V h hV]

/-- The element array that UNPACK writes at nb = w is the packed block that it read (R157). -/
theorem elementBytes_unpackBits_bitsOf (w : WordSize) {P : List Byte} (h : P.length = blockBytes w) :
    elementBytes (bytesOf w) (unpackBits (bitsOf w) P) = P := by
  have hP : elementBytes (bytesOf w) (elements (bytesOf w) 128 P) = P := elementBytes_elements _ _ _ h
  have hlt : ∀ v ∈ elements (bytesOf w) 128 P, v < 2 ^ bitsOf w := by
    rw [← pow256_bytesOf]; exact elements_lt _ _ _
  conv_lhs => rw [← hP, unpackBits_bitsOf w (elements_length _ _ _) hlt]
  exact hP

/-- The elements of a block of width 0 are 0 (R156). -/
theorem unpackBits_zero (P : List Byte) : unpackBits 0 P = List.replicate 128 0 :=
  List.eq_replicate_iff.mpr ⟨unpackBits_length 0 P, fun v hv => Nat.lt_one_iff.mp (unpackBits_lt 0 P v hv)⟩

/-- The running sums of zeros are copies of the value before them (R156). -/
theorem deltaDec_replicate_zero (w : WordSize) {last : Nat} (h : last < 2 ^ bitsOf w) (n : Nat) :
    deltaDec w last (List.replicate n 0) = List.replicate n last := by
  have hadd : addW w last 0 = last := Nat.mod_eq_of_lt h
  induction n with
  | zero => rfl
  | succ n ih => rw [List.replicate_succ, deltaDec, hadd, ih, List.replicate_succ]

/-! ### Deltas -/

theorem deltaAt_eq_subW (w : WordSize) (last : Nat) (K : Nat → Nat) (i : Nat) :
    deltaAt w last K i = subW w (K i) (previous last K i) := by
  rw [deltaAt, ← subW_eq_emod, Int.toNat_natCast]

/-- A delta is 0 exactly when a value repeats the one before it (R156). -/
theorem subW_eq_zero_iff {w : WordSize} {k last : Nat} (hk : k < 2 ^ bitsOf w) (hl : last < 2 ^ bitsOf w) :
    subW w k last = 0 ↔ k = last := by
  constructor
  · intro h
    have hadd := addW_subW w k last hk
    rw [h, addW, Nat.add_zero, Nat.mod_eq_of_lt hl] at hadd
    exact hadd.symm
  · rintro rfl
    exact subW_self w k

/-- All deltas of a block are 0 exactly when every value is the seed last element (R156). -/
theorem deltaAt_all_zero_iff {w : WordSize} {last n : Nat} {K : Nat → Nat} (hl : last < 2 ^ bitsOf w)
    (hK : ∀ i, i < n → K i < 2 ^ bitsOf w) :
    (∀ i, i < n → deltaAt w last K i = 0) ↔ ∀ i, i < n → K i = last := by
  simp only [deltaAt_eq_subW]
  constructor
  · intro h i hi
    induction i with
    | zero => exact (subW_eq_zero_iff (hK 0 hi) hl).mp (h 0 hi)
    | succ i ih =>
      have hprev : K i = last := ih (by omega)
      exact ((subW_eq_zero_iff (hK _ hi) (hK i (by omega))).mp (h _ hi)).trans hprev
  · intro h i hi
    have hprev : previous last K i = last := by
      unfold previous
      split
      · rfl
      · exact h _ (by omega)
    rw [h i hi, hprev, subW_self]

/-- `previous` looks at no value past i − 1. -/
theorem previous_congr {last : Nat} {K K' : Nat → Nat} {n i : Nat} (hi : i < n) (h : ∀ j, j < n → K j = K' j) :
    previous last K i = previous last K' i := by
  unfold previous
  split
  · rfl
  · exact h _ (by omega)

/-! ### The block of a kernel -/

/-- The block that UNPACK and DUNPACK read: 128 fields of nb bits (R143). -/
def unpackedBlock (nb : Nat) (s : State) : List Nat := unpackBits nb (coreRead s (16 * nb))

/-- The deltas that DPACK packs (R145). -/
def deltaBlock (w : WordSize) (s : State) : List Nat := deltaEnc w (lastOf w s) (sourceBlock w s)

/-- The raw values that DUNPACK writes (R146). -/
def rawBlock (w : WordSize) (nb : Nat) (s : State) : List Nat := deltaDec w (lastOf w s) (unpackedBlock nb s)

@[simp] theorem unpackedBlock_length (nb : Nat) (s : State) : (unpackedBlock nb s).length = 128 := unpackBits_length _ _

@[simp] theorem deltaBlock_length (w : WordSize) (s : State) : (deltaBlock w s).length = 128 := by simp [deltaBlock]

@[simp] theorem rawBlock_length (w : WordSize) (nb : Nat) (s : State) : (rawBlock w nb s).length = 128 := by simp [rawBlock]

theorem unpackedBlock_lt (nb : Nat) (s : State) : ∀ v ∈ unpackedBlock nb s, v < 2 ^ nb := unpackBits_lt _ _

/-- The fields of a block are values of every word size that the width passes for. -/
theorem unpackedBlock_lt_word {w : WordSize} {nb : Nat} (h : nb ≤ bitsOf w) (s : State) :
    ∀ v ∈ unpackedBlock nb s, v < 2 ^ bitsOf w := fun v hv =>
  lt_of_lt_of_le (unpackedBlock_lt nb s v hv) (Nat.pow_le_pow_right (by omega) h)

theorem rawBlock_lt (w : WordSize) (nb : Nat) (s : State) : ∀ v ∈ rawBlock w nb s, v < 2 ^ bitsOf w := deltaDec_lt _ _ _

/-- Element i that DUNPACK writes is raw value i (R154). -/
theorem elemAt_write_rawBlock (w : WordSize) (nb : Nat) (s : State) (m : Memory) (a i : Nat) (hi : i < 128) :
    elemAt w (m.write a (elementBytes (bytesOf w) (rawBlock w nb s))) a i = (rawBlock w nb s).getD i 0 :=
  elemAt_write_of_lt (rawBlock_lt w nb s) m a (by simpa)

/-- Raw value i is the one before it plus packed delta i, the first from the seed last element (R146). -/
theorem rawBlock_getD (w : WordSize) (nb : Nat) (s : State) {i : Nat} (hi : i < 128) :
    (rawBlock w nb s).getD i 0 =
      addW w (previous (lastOf w s) (fun j => (rawBlock w nb s).getD j 0) i) ((unpackedBlock nb s).getD i 0) :=
  deltaDec_getD _ _ _ i (by simpa)

section
variable {s : State} (hr : s.raced = false)
include hr

theorem unpackedBlock_getD (nb : Nat) {i : Nat} (hi : i < 128) :
    (unpackedBlock nb s).getD i 0 = packedElem s.mem (srcBase s) nb i := by
  rw [unpackedBlock, unpackBits_getD nb _ i hi, coreRead_of_not_raced hr, packedElem]

theorem unpackedBlock_testBit (nb : Nat) {i j : Nat} (hi : i < 128) (hj : j < nb) :
    ((unpackedBlock nb s).getD i 0).testBit j = streamBit s.mem (srcBase s) (i * nb + j) := by
  have hk : i * nb + j < 8 * (16 * nb) := by nlinarith
  rw [unpackedBlock, unpackBits_testBit nb _ hi hj, coreRead_of_not_raced hr, streamBit_eq_testBit _ _ hk]

theorem deltaBlock_getD (w : WordSize) {i : Nat} (hi : i < 128) :
    (deltaBlock w s).getD i 0 = deltaAt w (lastOf w s) (elemAt w s.mem (srcBase s)) i := by
  have hprev := previous_congr (last := lastOf w s) hi fun j hj => sourceBlock_getD w s hr j hj
  rw [deltaBlock, deltaEnc_getD _ _ _ i (by simpa), sourceBlock_getD w s hr i hi, deltaAt_eq_subW, ← hprev, previous]

end

/-- The element array of the source block is the bytes that were read (R98). -/
theorem elementBytes_sourceBlock (w : WordSize) (s : State) :
    elementBytes (bytesOf w) (sourceBlock w s) = coreRead s (blockBytes w) :=
  elementBytes_elements _ _ _ (coreRead_length _ _)

/-- Blocks with the same elements in memory are the same block. -/
theorem sourceBlock_congr {w : WordSize} {s u : State} (hs : s.raced = false) (hu : u.raced = false)
    (h : ∀ i, i < 128 → elemAt w s.mem (srcBase s) i = elemAt w u.mem (srcBase u) i) :
    sourceBlock w s = sourceBlock w u := by
  refine List.ext_getElem (by simp) fun i hi hi' => ?_
  have hi128 : i < 128 := by simpa using hi
  rw [← List.getD_eq_getElem _ 0 hi, ← List.getD_eq_getElem _ 0 hi', sourceBlock_getD w s hs i hi128,
    sourceBlock_getD w u hu i hi128, h i hi128]

/-- The width covers every delta in memory exactly when it covers every delta of the block. -/
theorem deltaBlock_lt_of_deltaAt_lt {w : WordSize} {nb : Nat} {s : State} (hr : s.raced = false)
    (h : ∀ i, i < 128 → deltaAt w (lastOf w s) (elemAt w s.mem (srcBase s)) i < 2 ^ nb) :
    ∀ d ∈ deltaBlock w s, d < 2 ^ nb := by
  intro d hd
  obtain ⟨i, hi, rfl⟩ := List.getElem_of_mem hd
  have hi128 : i < 128 := by simpa using hi
  rw [← List.getD_eq_getElem _ 0 hi, deltaBlock_getD hr w hi128]
  exact h i hi128

/-! ### The seed registers -/

theorem newSeedLo_congr {w : WordSize} {K K' : Nat → Nat} (h : ∀ i, i < 128 → K i = K' i) :
    newSeedLo w K = newSeedLo w K' := by
  cases w with
  | w32 => rw [newSeedLo, h 124 (by omega), h 125 (by omega), newSeedLo]
  | w64 => rw [newSeedLo, h 126 (by omega), newSeedLo]

theorem newSeedHi_congr {w : WordSize} {K K' : Nat → Nat} (h : ∀ i, i < 128 → K i = K' i) :
    newSeedHi w K = newSeedHi w K' := by
  cases w with
  | w32 => rw [newSeedHi, h 126 (by omega), h 127 (by omega), newSeedHi]
  | w64 => rw [newSeedHi, h 127 (by omega), newSeedHi]

/-- The seed last element stands in SEED_HI alone (R101). -/
theorem lastOf_congr {w : WordSize} {s u : State} (h : s.seedHi = u.seedHi) : lastOf w s = lastOf w u := by
  cases w <;> rw [lastOf, h, lastOf]

section
variable {w : WordSize} {V : List Nat} {K : Nat → Nat} (hlen : V.length = 128) (hV : ∀ v ∈ V, v < 2 ^ bitsOf w)
  (hK : ∀ i, i < 128 → V.getD i 0 = K i) (s : State)
include hlen hV hK

/-- The seed registers after a delta kernel on the block V, from the elements of V wherever they stand (R147). -/
theorem seedLoAfter_seedOf : seedLoAfter s (some (seedOf w V)) = newSeedLo w K :=
  (seedAfter_seedOf w s V hlen hV).1.trans (newSeedLo_congr hK)

theorem seedHiAfter_seedOf : seedHiAfter s (some (seedOf w V)) = newSeedHi w K :=
  (seedAfter_seedOf w s V hlen hV).2.trans (newSeedHi_congr hK)

end

theorem lanesOf_le (w : WordSize) : lanesOf w ≤ 128 := by cases w <;> decide

theorem seedOf_length (w : WordSize) {K : List Nat} (h : K.length = 128) : (seedOf w K).length = 16 := by
  cases w <;> simp [seedOf, lanesOf, bytesOf, h]

/-- Eight bytes are the bytes of the register that holds them (R99). -/
theorem toLE_ofNat_fromLE {bs : List Byte} (h : bs.length = 8) : toLE 8 (BitVec.ofNat 64 (fromLE bs)).toNat = bs := by
  have hlt : fromLE bs < 2 ^ 64 := by
    have := fromLE_lt bs
    rwa [h] at this
  rw [BitVec.toNat_ofNat, Nat.mod_eq_of_lt hlt, toLE_fromLE_of_length h]

/-- The 16 seed bytes after a delta kernel are those of its new seed (R99). -/
theorem seedBytes_succeed {r : Result} {bs : List Byte} (h : r.seed = some bs) (hlen : bs.length = 16) (s : State) :
    seedBytes (succeed r s) = bs := by
  have hlo : toLE 8 (seedLoAfter s (some bs)).toNat = bs.take 8 := toLE_ofNat_fromLE (by simp [hlen])
  have hhi : toLE 8 (seedHiAfter s (some bs)).toNat = (bs.drop 8).take 8 := toLE_ofNat_fromLE (by simp [hlen])
  rw [seedBytes, succeed_seedLo, succeed_seedHi, h, hlo, hhi, List.take_of_length_le (l := bs.drop 8) (by simp [hlen]),
    List.take_append_drop]

/-- Lane j of the new seed is the raw value 128 − SL(w) + j (R100, R101). -/
theorem seedLane_succeed {w : WordSize} {r : Result} {K : List Nat} (h : r.seed = some (seedOf w K)) (hlen : K.length = 128)
    (hK : ∀ k ∈ K, k < 2 ^ bitsOf w) (s : State) {j : Nat} (hj : j < lanesOf w) :
    seedLane w (succeed r s) j = K.getD (128 - lanesOf w + j) 0 := by
  have hlanes := lanesOf_le w
  have hdrop : (K.drop (128 - lanesOf w)).length = lanesOf w := by rw [List.length_drop, hlen]; omega
  have hread := elements_elementBytes (bytesOf w) (K.drop (128 - lanesOf w)) [] fun v hv => by
    rw [pow256_bytesOf]; exact hK v (List.mem_of_mem_drop hv)
  rw [hdrop, List.append_nil] at hread
  rw [seedLane, seedBytes_succeed h (seedOf_length w hlen), ← elements_getD _ (lanesOf w) _ hj 0, seedOf, hread,
    drop_getD_add]

/-! ### A kernel command that succeeds -/

/-- A command that has decided on a result, with no hazard, performs it and changes nothing else (R264). -/
theorem exec_of_plan_ok_of_not_raced {i : Instr} {s : State} {r : Result} (hr : s.raced = false) (h : planOf i s = .ok r) :
    exec i s = .next { s with
      mem := s.mem.write (dstBase s) r.bytes
      seedLo := seedLoAfter s r.seed
      seedHi := seedHiAfter s r.seed
      status := completedStatus s .none
      resLen := BitVec.ofNat 64 r.len } := by
  rw [exec_of_plan_ok h, succeed_of_not_raced hr]
  rfl

/-- What has been performed by a command that succeeded. -/
theorem succeeds_plan {i : Instr} {s t : State} (h : succeeds i s t) :
    ∃ r, planOf i s = .ok r ∧ t = succeed r s ∧ t.mem = s.mem.write (dstBase s) r.bytes := by
  obtain ⟨hr, hx, he⟩ := h
  obtain ⟨r, hp, _, _, _, _, rfl⟩ := exec_succeeded hx he
  exact ⟨r, hp, rfl, by rw [succeed_mem, coreBytes_of_not_raced hr]⟩

end Sys2Proof.Machine
end

section
/-! SUPPORT. PACK, UNPACK, DPACK and DUNPACK: what each decides and performs, and what they make of each other's output
(spec/40_kernels.md R144, R148 to R159). -/

namespace Sys2Proof.Machine

/-! ### What each kernel decides -/

section
variable {w : WordSize} {nb : Nat} {s : State} {r : Result}

theorem planOf_pack_ok_iff : planOf (packInstr w nb) s = .ok r ↔
    (nb ≤ bitsOf w ∧ windowsOk s ∧ blockBytes w ≤ srcSize s ∧ 16 * nb ≤ dstSize s) ∧
      r = { len := 16 * nb, bytes := packBits nb (sourceBlock w s), seed := none } := by
  rw [plan_pack, packPlan_ok_iff]

theorem planOf_unpack_ok_iff : planOf (unpackInstr w nb) s = .ok r ↔
    (nb ≤ bitsOf w ∧ windowsOk s ∧ 16 * nb ≤ srcSize s ∧ blockBytes w ≤ dstSize s) ∧
      r = { len := blockBytes w, bytes := elementBytes (bytesOf w) (unpackedBlock nb s), seed := none } := by
  rw [plan_unpack, unpackPlan_ok_iff, unpackedBlock]

theorem planOf_dpack_ok_iff : planOf (dpackInstr w nb) s = .ok r ↔
    (nb ≤ bitsOf w ∧ windowsOk s ∧ blockBytes w ≤ srcSize s ∧ 16 * nb ≤ dstSize s) ∧
      r = { len := 16 * nb, bytes := packBits nb (deltaBlock w s), seed := some (seedOf w (sourceBlock w s)) } := by
  rw [plan_dpack, dpackPlan_ok_iff, seedLast_eq_lastOf, deltaBlock]

theorem planOf_dunpack_ok_iff : planOf (dunpackInstr w nb) s = .ok r ↔
    (nb ≤ bitsOf w ∧ windowsOk s ∧ 16 * nb ≤ srcSize s ∧ blockBytes w ≤ dstSize s) ∧
      r = { len := blockBytes w, bytes := elementBytes (bytesOf w) (rawBlock w nb s),
            seed := some (seedOf w (rawBlock w nb s)) } := by
  rw [plan_dunpack, dunpackPlan_ok_iff, seedLast_eq_lastOf, rawBlock, unpackedBlock]

end

/-! ### The four kernels on operands that pass the checks -/

/-- Settles O23: the source block is packed, and stream bits are the elements' bits. -/
theorem packResult : Obligations.PackResult := by
  intro w nb s hr hnb hwin hsrc hdst
  have hplan := planOf_pack_ok_iff.mpr ⟨⟨hnb, hwin, hsrc, hdst⟩, rfl⟩
  refine ⟨_, exec_of_plan_ok_of_not_raced hr hplan, fun i j hi hj => ?_, write_unchangedOutside (packBits_length _ _)⟩
  rw [streamBit_write _ _ _ _ (sourceBlock_length w s) i j hi hj, sourceBlock_getD w s hr i hi]

/-- Settles O24: the fields of the packed block are written, each below 2^nb and with its stream bits. -/
theorem unpackResult : Obligations.UnpackResult := by
  intro w nb s hr hnb hwin hsrc hdst
  have hplan := planOf_unpack_ok_iff.mpr ⟨⟨hnb, hwin, hsrc, hdst⟩, rfl⟩
  refine ⟨_, exec_of_plan_ok_of_not_raced hr hplan, fun i hi => ?_,
    write_unchangedOutside (elementBytes_length_of_block w (unpackedBlock_length nb s))⟩
  rw [elemAt_write_of_lt (unpackedBlock_lt_word hnb s) _ _ (by simpa)]
  refine ⟨?_, fun j hj => unpackedBlock_testBit hr nb hi hj⟩
  rw [unpackedBlock_getD hr nb hi]
  exact Nat.mod_lt _ (by positivity)

/-- Settles O25: the block's deltas are packed as PACK packs elements, and the seed is the block's last values. -/
theorem dpackResult : Obligations.DpackResult := by
  intro w nb s hr hnb hwin hsrc hdst
  have hplan := planOf_dpack_ok_iff.mpr ⟨⟨hnb, hwin, hsrc, hdst⟩, rfl⟩
  have hK := sourceBlock_getD w s hr
  have hexec := exec_of_plan_ok_of_not_raced hr hplan
  rw [seedLoAfter_seedOf (sourceBlock_length w s) (sourceBlock_lt w s) hK,
    seedHiAfter_seedOf (sourceBlock_length w s) (sourceBlock_lt w s) hK] at hexec
  refine ⟨_, hexec, fun i j hi hj => ?_, write_unchangedOutside (packBits_length _ _)⟩
  rw [streamBit_write _ _ _ _ (deltaBlock_length w s) i j hi hj, deltaBlock_getD hr w hi]

/-- Settles O26: the running sums are written, and the recurrence of the raw values is that of the elements in memory. -/
theorem dunpackResult : Obligations.DunpackResult := by
  intro w nb s hr hnb hwin hsrc hdst
  have hplan := planOf_dunpack_ok_iff.mpr ⟨⟨hnb, hwin, hsrc, hdst⟩, rfl⟩
  have hK := fun i hi => (elemAt_write_rawBlock w nb s s.mem (dstBase s) i hi).symm
  have hexec := exec_of_plan_ok_of_not_raced hr hplan
  rw [seedLoAfter_seedOf (rawBlock_length w nb s) (rawBlock_lt w nb s) hK,
    seedHiAfter_seedOf (rawBlock_length w nb s) (rawBlock_lt w nb s) hK] at hexec
  refine ⟨_, hexec, fun i hi => ?_, write_unchangedOutside (elementBytes_length_of_block w (rawBlock_length w nb s))⟩
  rw [← hK i hi, rawBlock_getD w nb s hi, previous_congr hi hK, unpackedBlock_getD hr nb hi, addW]

/-! ### What each kernel has performed when it succeeds -/

section
variable {w : WordSize} {nb : Nat} {s t : State}

theorem pack_succeeds (h : succeeds (packInstr w nb) s t) :
    t.resLen = BitVec.ofNat 64 (16 * nb) ∧ t.mem = s.mem.write (dstBase s) (packBits nb (sourceBlock w s)) := by
  obtain ⟨r, hp, rfl, hm⟩ := succeeds_plan h
  obtain ⟨_, rfl⟩ := planOf_pack_ok_iff.mp hp
  exact ⟨rfl, hm⟩

theorem unpack_succeeds (h : succeeds (unpackInstr w nb) s t) :
    nb ≤ bitsOf w ∧ t.resLen = BitVec.ofNat 64 (blockBytes w) ∧ t.mem =
      s.mem.write (dstBase s) (elementBytes (bytesOf w) (unpackedBlock nb s)) := by
  obtain ⟨r, hp, rfl, hm⟩ := succeeds_plan h
  obtain ⟨⟨hnb, _⟩, rfl⟩ := planOf_unpack_ok_iff.mp hp
  exact ⟨hnb, rfl, hm⟩

theorem dpack_succeeds (h : succeeds (dpackInstr w nb) s t) :
    t.resLen = BitVec.ofNat 64 (16 * nb) ∧ t.mem = s.mem.write (dstBase s) (packBits nb (deltaBlock w s)) ∧
      ∃ r, r.seed = some (seedOf w (sourceBlock w s)) ∧ t = succeed r s := by
  obtain ⟨r, hp, rfl, hm⟩ := succeeds_plan h
  obtain ⟨_, rfl⟩ := planOf_dpack_ok_iff.mp hp
  exact ⟨rfl, hm, _, rfl, rfl⟩

theorem dunpack_succeeds (h : succeeds (dunpackInstr w nb) s t) :
    t.mem = s.mem.write (dstBase s) (elementBytes (bytesOf w) (rawBlock w nb s)) ∧
      ∃ r, r.seed = some (seedOf w (rawBlock w nb s)) ∧ t = succeed r s := by
  obtain ⟨r, hp, rfl, hm⟩ := succeeds_plan h
  obtain ⟨_, rfl⟩ := planOf_dunpack_ok_iff.mp hp
  exact ⟨hm, _, rfl, rfl⟩

end

/-! ### Full width, width 0 and round trips -/

/-- A kernel of width w that succeeds writes the bytes that it has read (R157). -/
theorem fullWidth_succeeds {w : WordSize} {i : Instr} {s t : State}
    (hi : i = packInstr w (bitsOf w) ∨ i = unpackInstr w (bitsOf w)) (h : succeeds i s t) :
    t.resLen = BitVec.ofNat 64 (blockBytes w) ∧ t.mem = s.mem.write (dstBase s) (coreRead s (blockBytes w)) := by
  rcases hi with rfl | rfl
  · obtain ⟨hlen, hm⟩ := pack_succeeds h
    rw [sixteen_mul_bitsOf] at hlen
    rw [packBits_bitsOf w (sourceBlock_length w s), elementBytes_sourceBlock] at hm
    exact ⟨hlen, hm⟩
  · obtain ⟨_, hlen, hm⟩ := unpack_succeeds h
    rw [unpackedBlock, sixteen_mul_bitsOf, elementBytes_unpackBits_bitsOf w (coreRead_length _ _)] at hm
    exact ⟨hlen, hm⟩

/-- Settles O27: at nb = w the packed block and the element array are the same bytes, whichever of them is read. -/
theorem fullWidthIsCopy : Obligations.FullWidthIsCopy := by
  refine ⟨fun w V hlen hV => ⟨packBits_bitsOf w hlen, unpackBits_bitsOf w hlen hV⟩, fun w i s t hi h => ?_⟩
  obtain ⟨hlen, hm⟩ := fullWidth_succeeds hi h
  rw [hm, readBytes_write_of_length _ _ _ _ (coreRead_length _ _)]
  exact ⟨hlen, coreRead_of_not_raced h.1 _⟩

/-- A packed block of width 0 has no byte, so writing it changes nothing (R156). -/
theorem read_write_packBits_zero (m : Memory) (a : Nat) (V : List Nat) (x : Nat) :
    (m.write a (packBits 0 V)).read x = m.read x :=
  read_write_outside m a (packBits 0 V) x (by simpa using lt_or_ge x a)

/-- At width 0 every raw value is the seed last element (R156). -/
theorem rawBlock_zero (w : WordSize) (s : State) : rawBlock w 0 s = List.replicate 128 (lastOf w s) := by
  rw [rawBlock, unpackedBlock, unpackBits_zero, deltaDec_replicate_zero w (lastOf_lt w s)]

/-- Settles O28: a block of width 0 is empty, its fields are 0, and the running sums of zeros repeat the seed last element. -/
theorem zeroWidthConvention : Obligations.ZeroWidthConvention := by
  intro w s t
  refine ⟨fun h => ?_, fun h => ?_, fun h i hi => ?_, fun h => ?_, fun K hK => deltaAt_all_zero_iff (lastOf_lt w s) hK⟩
  · obtain ⟨hlen, hm⟩ := pack_succeeds h
    rw [hm]
    exact ⟨hlen, read_write_packBits_zero _ _ _⟩
  · obtain ⟨hlen, hm, _⟩ := dpack_succeeds h
    rw [hm]
    exact ⟨hlen, read_write_packBits_zero _ _ _⟩
  · obtain ⟨hnb, _, hm⟩ := unpack_succeeds h
    rw [hm, elemAt_write_of_lt (unpackedBlock_lt_word hnb s) _ _ (by simpa), unpackedBlock, unpackBits_zero,
      List.getD_replicate _ hi]
  · obtain ⟨hm, r, hseed, ht⟩ := dunpack_succeeds h
    refine ⟨fun i hi => ?_, fun j hj => ?_⟩
    · rw [hm, elemAt_write_rawBlock w 0 s _ _ i hi, rawBlock_zero, List.getD_replicate _ hi]
    · have hlanes := lanesOf_le w
      rw [ht, seedLane_succeed hseed (rawBlock_length w 0 s) (rawBlock_lt w 0 s) s hj, rawBlock_zero,
        List.getD_replicate _ (by omega)]

/-- Settles O29: unpacking keeps the low nb bits of each value, and these are the value where it fits. -/
theorem packUnpackRoundTrip : Obligations.PackUnpackRoundTrip := by
  intro w nb V _ hlen _
  refine ⟨fun hV => unpackBits_packBits_of_lt nb V hlen hV, fun i _ => ?_⟩
  have hmap := List.getD_map (l := V) (d := 0) (n := i) (· % 2 ^ nb)
  rwa [Nat.zero_mod, ← unpackBits_packBits nb V hlen] at hmap

/-- DUNPACK of the packed deltas of a block, from the same seed last element, has the block as its raw values (R159). -/
theorem rawBlock_of_packed_deltas {w : WordSize} {nb : Nat} {s u : State} (hu : u.raced = false)
    (hlast : lastOf w u = lastOf w s) (hd : ∀ d ∈ deltaBlock w s, d < 2 ^ nb)
    (hread : u.mem.readBytes (srcBase u) (16 * nb) = packBits nb (deltaBlock w s)) :
    rawBlock w nb u = sourceBlock w s := by
  rw [rawBlock, unpackedBlock, coreRead_of_not_raced hu, hread, unpackBits_packBits_of_lt nb _ (deltaBlock_length w s) hd,
    hlast, deltaBlock, deltaDec_deltaEnc _ _ _ (sourceBlock_lt w s)]

/-- The packed bytes of a DPACK that succeeded stand at its destination. -/
theorem dpack_succeeds_readBytes {w : WordSize} {nb : Nat} {s t : State} (h : succeeds (dpackInstr w nb) s t) :
    t.mem.readBytes (dstBase s) (16 * nb) = packBits nb (deltaBlock w s) := by
  obtain ⟨_, hm, _⟩ := dpack_succeeds h
  rw [hm, readBytes_write_of_length _ _ _ _ (packBits_length _ _)]

/-- Settles O30: the raw values are the source block, so the elements and the new seed are the same. -/
theorem dpackDunpackStayInStep : Obligations.DpackDunpackStayInStep := by
  intro w nb s t u v hst hd hlast hread huv
  rw [dpack_succeeds_readBytes hst] at hread
  have hraw := rawBlock_of_packed_deltas huv.1 hlast (deltaBlock_lt_of_deltaAt_lt hst.1 hd) hread
  obtain ⟨_, _, r, hr, ht⟩ := dpack_succeeds hst
  obtain ⟨hm, q, hq, hv⟩ := dunpack_succeeds huv
  refine ⟨fun i hi => ?_, ?_, ?_⟩
  · rw [hm, elemAt_write_rawBlock w nb u _ _ i hi, hraw, sourceBlock_getD w s hst.1 i hi]
  · rw [hv, ht, succeed_seedLo, succeed_seedLo, hq, hr, hraw]
    rfl
  · rw [hv, ht, succeed_seedHi, succeed_seedHi, hq, hr, hraw]
    rfl

/-- DPACK leaves the last raw values of its block in SEED_HI (R147). -/
theorem dpack_succeeds_seedHi {w : WordSize} {nb : Nat} {s t : State} (h : succeeds (dpackInstr w nb) s t) :
    t.seedHi = newSeedHi w (elemAt w s.mem (srcBase s)) := by
  obtain ⟨_, _, r, hseed, ht⟩ := dpack_succeeds h
  rw [ht, succeed_seedHi, hseed,
    seedHiAfter_seedOf (sourceBlock_length w s) (sourceBlock_lt w s) (sourceBlock_getD w s h.1)]

/-- DPACK of the same block from the same seed last element has the same deltas (R158). -/
theorem deltaBlock_congr {w : WordSize} {s u : State} (hs : s.raced = false) (hu : u.raced = false)
    (hseed : s.seedHi = u.seedHi)
    (h : ∀ i, i < 128 → elemAt w s.mem (srcBase s) i = elemAt w u.mem (srcBase u) i) :
    deltaBlock w s = deltaBlock w u := by
  rw [deltaBlock, lastOf_congr hseed, sourceBlock_congr hs hu h, deltaBlock]

/-- Settles O31: the second DPACK starts from `seedOf` of the first block, and each DUNPACK stays in step with its DPACK. -/
theorem seedContinuation : Obligations.SeedContinuation := by
  intro w n₁ n₂ s₁ t₁ s₂ t₂ h₁ h₂ hlo hhi
  refine ⟨fun x y hxy _ hxhi hblock => ?_, fun hd₁ hd₂ u₁ v₁ u₂ v₂ hu₁ hu₂ hlast _ huhi hread₁ hread₂ => ?_⟩
  · have hseed : x.seedHi = s₂.seedHi := hxhi.trans ((dpack_succeeds_seedHi h₁).symm.trans hhi.symm)
    rw [dpack_succeeds_readBytes hxy, dpack_succeeds_readBytes h₂, deltaBlock_congr hxy.1 h₂.1 hseed hblock]
  · obtain ⟨hback₁, _, hstep⟩ := dpackDunpackStayInStep w n₁ s₁ t₁ u₁ v₁ h₁ hd₁ hlast hread₁ hu₁
    have hseed : u₂.seedHi = s₂.seedHi := huhi.trans (hstep.trans hhi.symm)
    obtain ⟨hback₂, _⟩ := dpackDunpackStayInStep w n₂ s₂ t₂ u₂ v₂ h₂ hd₂ (lastOf_congr hseed) hread₂ hu₂
    exact fun i hi => ⟨hback₁ i hi, hback₂ i hi⟩

end Sys2Proof.Machine
end

section
/-! SUPPORT. The commands that use no seed (spec/10_state.md R34): what they decide does not depend on the seed registers, and
they leave them as they were. -/

namespace Sys2Proof.Machine

/-- What a command other than DPACK and DUNPACK decides rests on no seed register: its plan looks at the latch, the platform
and memory alone (R34). -/
theorem planOf_with_seed {i : Instr} (h : usesSeed i = false) (s : State) (lo hi : Word) :
    planOf i { s with seedLo := lo, seedHi := hi } = planOf i s := by
  cases i with
  | dpack32 nb => cases h
  | dpack64 nb => cases h
  | dunpack32 nb => cases h
  | dunpack64 nb => cases h
  | _ => rfl

/-- A success with no new seed keeps the old one, and uses it for nothing else. -/
theorem succeed_with_seed_of_none {r : Result} (h : r.seed = none) (s : State) (lo hi : Word) :
    succeed r { s with seedLo := lo, seedHi := hi } = { succeed r s with seedLo := lo, seedHi := hi } := by
  rw [succeed, h, succeed]
  rfl

/-- Settles O50: the plan is the same for every seed, and neither ending of it touches the seed registers. -/
theorem otherCommandsIgnoreSeed : Obligations.OtherCommandsIgnoreSeed := by
  intro i s t lo hi hno hx
  have hplan := planOf_with_seed hno s lo hi
  rcases exec_outcomes hx with ⟨c, _, hp, rfl⟩ | ⟨r, hp, _, _, _, hseed, rfl⟩
  · exact ⟨rfl, rfl, fun _ => exec_of_plan_error (hplan.trans hp)⟩
  · rw [succeed_seedLo, succeed_seedHi, hseed hno]
    refine ⟨rfl, rfl, fun _ => ?_⟩
    rw [exec_of_plan_ok (hplan.trans hp), succeed_with_seed_of_none (hseed hno)]

end Sys2Proof.Machine
end

section
/-! SUPPORT. The image of a valid container is read back, whatever follows it (spec/30_encoding.md R111 to R115). -/

namespace Sys2Proof.Machine

/-- A u32 that stands between two other parts, cut out and read (R17, R61). -/
theorem fromLE_slice_append_mid {A Z : List Byte} {p v : Nat} (hA : A.length = p) (hv : v < 2 ^ 32) :
    fromLE (slice (A ++ (toLE 4 v ++ Z)) p (p + 4)) = v := by
  rw [slice_append_mid hA (toLE_length 4 v), fromLE_toLE_of_lt (lt256_4 hv)]

theorem blockCount_le (n : Nat) : blockCount n ≤ n := by
  unfold blockCount ceilDiv
  omega

/-- The blocks of an image stand after its header and its table (R113). -/
theorem image_payload (C : Container) (more : List Byte) :
    (imageEncode C ++ more).drop (16 + pad16 C.blocks.length) = C.blocks.flatMap (·.2) ++ more := by
  rw [imageEncode, List.append_assoc]
  exact List.drop_left' (by rw [List.length_append, imageHeader_length, imageTable_length])

section
variable {C : Container} (h : C.valid) (more : List Byte)
include h

theorem count_lt_of_valid : C.count < 2 ^ 32 := by
  obtain ⟨hcount, _⟩ := h
  exact hcount

theorem blocks_length_of_valid : C.blocks.length = blockCount C.count := by
  obtain ⟨_, hblocks, _⟩ := h
  exact hblocks

theorem width_le_of_valid {b : Nat × List Byte} (hb : b ∈ C.blocks) : b.1 ≤ bitsOf C.word := by
  obtain ⟨_, _, hblocks⟩ := h
  exact (hblocks b hb).1

/-- The block count of a valid container fits its u32 field (R111). -/
theorem blocks_length_lt_of_valid : C.blocks.length < 2 ^ 32 := by
  rw [blocks_length_of_valid h]
  exact (blockCount_le _).trans_lt (count_lt_of_valid h)

theorem image_count : fromLE (slice (imageEncode C ++ more) 0 4) = C.count := by
  rw [imageEncode, imageHeader]
  simp only [List.append_assoc]
  exact fromLE_slice_append_mid (A := []) rfl (count_lt_of_valid h)

theorem image_blockCount : fromLE (slice (imageEncode C ++ more) 8 12) = C.blocks.length := by
  rw [imageEncode, imageHeader]
  simp only [List.append_assoc]
  rw [← List.append_assoc]
  exact fromLE_slice_append_mid (by simp) (blocks_length_lt_of_valid h)

/-- An image has its header, its table and its payload, and no less (R114). -/
theorem image_length : (imageEncode C ++ more).length = 16 + pad16 C.blocks.length + 16 * widthSum C + more.length := by
  rw [List.length_append, imageEncode_length C (sized_of_valid h), imageSize]

/-- The widths read from an image are those of the blocks: each fits its table byte (R112). -/
theorem image_tableWidths : tableWidths (imageEncode C ++ more) = C.blocks.map (·.1) := by
  have hfit : ∀ b ∈ C.blocks, (BitVec.ofNat 8 b.1 : Byte).toNat = b.1 := fun b hb => by
    obtain ⟨k, hk⟩ := List.mem_iff_getElem?.mp hb
    exact ofNat_toNat_of_lt (block_of_valid h hk).1
  rw [← slice_table_widths (by rw [image_blockCount h, image_length h]; omega), image_blockCount h, imageEncode, imageTable]
  simp only [List.append_assoc]
  rw [slice_append_mid (imageHeader_length C) (List.length_map _), List.map_map]
  exact List.map_congr_left hfit

/-- The container that stands in an image is the one it was written from (R115). -/
theorem imageContainer_imageEncode : imageContainer (imageEncode C ++ more) C.word C.delta = C := by
  rw [imageContainer, image_count h, image_blockCount h, image_tableWidths h, image_payload,
    splitBlocks_flatMap _ _ (sized_of_valid h)]

/-- The image of a valid container passes M1 to M8 and is read back (R115). -/
theorem imageDecode_imageEncode : imageDecode (imageEncode C ++ more) = .ok C := by
  have hlen := image_length h more
  have hheader : ∀ k, k < 16 → (imageEncode C ++ more).getD k 0 = (imageHeader C).getD k 0 := fun k hk => by
    rw [List.getD_append _ _ _ _ (by rw [imageEncode_length C (sized_of_valid h), imageSize]; omega),
      imageEncode_getD_header C hk]
  have hzero : ∀ k ∈ [6, 7, 12, 13, 14, 15], (imageEncode C ++ more).getD k 0 = 0 := fun k hk => by
    fin_cases hk <;> exact hheader _ (by decide)
  rw [imageDecode_ok_iff, image_blockCount h, image_count h, image_tableWidths h]
  refine ⟨by omega, hheader 4 (by decide), hheader 5 (by decide), hzero, blocks_length_of_valid h, by omega,
    List.forall_mem_map.mpr fun b hb => width_le_of_valid h hb, ?_, (imageContainer_imageEncode h more).symm⟩
  rw [hlen, widthSum]
  omega

end

end Sys2Proof.Machine
end

section
/-! SUPPORT. The block encoder and decoder as functions: what a block of an encoding holds, which element a packed value of any
container stands for, and that the two undo each other (spec/41_block_encoder.md R180 to R189, R196, R197). -/

namespace Sys2Proof.Machine

/-! ### Elements and packed values -/

/-- The packed value of an element, given the element before it (R183, R184): its delta in delta mode. -/
def packedOf (w : WordSize) (delta : Bool) (prev x : Nat) : Nat := if delta then subW w x prev else x

/-- The element of a packed value, given the element before it (R189). -/
def elementOf (w : WordSize) (delta : Bool) (prev v : Nat) : Nat := if delta then addW w prev v else v

theorem elementOf_packedOf (w : WordSize) (delta : Bool) (prev : Nat) {x : Nat} (h : x < 2 ^ bitsOf w) :
    elementOf w delta prev (packedOf w delta prev x) = x := by
  cases delta with
  | false => rfl
  | true => exact addW_subW w x prev h

theorem packedOf_elementOf (w : WordSize) (delta : Bool) (prev : Nat) {v : Nat} (h : v < 2 ^ bitsOf w) :
    packedOf w delta prev (elementOf w delta prev v) = v := by
  cases delta with
  | false => rfl
  | true => exact subW_addW w v prev h

theorem elementOf_lt (w : WordSize) (delta : Bool) (prev : Nat) {v : Nat} (h : v < 2 ^ bitsOf w) :
    elementOf w delta prev v < 2 ^ bitsOf w := by
  cases delta with
  | false => exact h
  | true => exact addW_lt w prev v

theorem packedOf_lt (w : WordSize) (delta : Bool) (prev : Nat) {x : Nat} (h : x < 2 ^ bitsOf w) :
    packedOf w delta prev x < 2 ^ bitsOf w := by
  cases delta with
  | false => exact h
  | true => exact subW_lt w x prev

/-- The value before element n + 1 + i, in the sequence that begins after element n. -/
theorem previous_add (last : Nat) (K : Nat → Nat) (n i : Nat) :
    previous last K (n + 1 + i) = previous (K n) (fun k => K (n + 1 + k)) i := by
  cases i with
  | zero => rfl
  | succ i => rfl

/-! ### What a block of an encoding holds -/

/-- Group b of a sequence: its elements from 128·b on, at most 128 of them (R182). -/
def groupAt (X : List Nat) (b : Nat) : List Nat := (X.drop (128 * b)).take 128

/-- The element before group b, 0 before the first (R187, R188). -/
def elementBefore (X : List Nat) (b : Nat) : Nat := if b = 0 then 0 else X.getD (128 * b - 1) 0

theorem groupAt_length (X : List Nat) (b : Nat) : (groupAt X b).length = min 128 (X.length - 128 * b) := by simp [groupAt]

theorem groupAt_length_le (X : List Nat) (b : Nat) : (groupAt X b).length ≤ 128 := List.length_take_le _ _

theorem groupAt_getD (X : List Nat) (b : Nat) {i : Nat} (hi : i < 128) : (groupAt X b).getD i 0 = X.getD (128 * b + i) 0 := by
  rw [groupAt, take_getD_of_lt _ _ _ hi, drop_getD_add]

/-- Value i of block b of an encoding (R183, R184, R187): in plain mode the element, 0 past the end; in delta mode the delta
of the group, whose last element is repeated, from the element before the group. -/
def blockValue (w : WordSize) (X : List Nat) (delta : Bool) (b i : Nat) : Nat :=
  if delta then deltaAt w (elementBefore X b) (fun k => X.getD (min (128 * b + k) (X.length - 1)) 0) i
  else X.getD (128 * b + i) 0

/-- A value inside the sequence is the packed form of its element (R183, R184). -/
theorem blockValue_of_lt (w : WordSize) {X : List Nat} (delta : Bool) {b i : Nat} (h : 128 * b + i < X.length) :
    blockValue w X delta b i =
      packedOf w delta (previous 0 (fun k => X.getD k 0) (128 * b + i)) (X.getD (128 * b + i) 0) := by
  cases delta with
  | false => rfl
  | true =>
    simp only [blockValue, packedOf, ↓reduceIte]
    rw [deltaAt_eq_subW, show min (128 * b + i) (X.length - 1) = 128 * b + i by omega]
    congr 1
    cases i with
    | zero => simp [previous, elementBefore]
    | succ i =>
      show X.getD (min (128 * b + i) (X.length - 1)) 0 = X.getD (128 * b + i) 0
      congr 1
      omega

section
variable {X : List Nat} {b : Nat} (hb : 128 * b < X.length)
include hb

/-- Group b of a sequence, padded as in delta mode, is the sequence from 128·b on with its last element repeated (R184). -/
theorem padDelta_groupAt_getD {i : Nat} (hi : i < 128) :
    (padDelta (groupAt X b)).getD i 0 = X.getD (min (128 * b + i) (X.length - 1)) 0 := by
  have hne : groupAt X b ≠ [] := by
    rw [← List.length_pos_iff, groupAt_length]
    omega
  rw [padDelta_getD _ _ hi hne, groupAt_getD X b (by omega), groupAt_length]
  congr 1
  omega

/-- The running seed at block b is the element before its group (R187, R188). -/
theorem runningSeed_eq :
    (if b = 0 then initSeed else (padDelta (groupAt X (b - 1))).getD 127 0) = elementBefore X b := by
  rw [elementBefore]
  split
  · rfl
  · rw [padDelta_groupAt_getD (by omega) (by omega)]
    congr 1
    omega

/-- The kernel packs the values of the block, from the running seed (R183, R184). -/
theorem kernelInput_getD (w : WordSize) (delta : Bool) {i : Nat} (hi : i < 128) :
    (kernelInput w delta (elementBefore X b) (groupAt X b)).getD i 0 = blockValue w X delta b i := by
  cases delta with
  | false =>
    rw [kernelInput, if_neg Bool.false_ne_true, padPlain_getD, groupAt_getD X b hi]
    rfl
  | true =>
    have hprev := previous_congr (last := elementBefore X b) hi fun j hj => padDelta_groupAt_getD hb hj
    simp only [kernelInput, blockValue, ↓reduceIte]
    rw [deltaEnc_getD _ _ _ i (by rwa [padDelta_length _ (groupAt_length_le X b)]), padDelta_groupAt_getD hb hi,
      deltaAt_eq_subW, ← hprev, previous]

/-- A value past the end of the sequence is 0: a padded zero, or the delta of a repeated element (R183, R184). -/
theorem blockValue_of_le (w : WordSize) (delta : Bool) {i : Nat} (h : X.length ≤ 128 * b + i) :
    blockValue w X delta b i = 0 := by
  cases delta with
  | false => exact List.getD_eq_default _ _ h
  | true =>
    obtain ⟨i, rfl⟩ := Nat.exists_eq_succ_of_ne_zero (show i ≠ 0 by omega)
    simp only [blockValue, ↓reduceIte]
    rw [deltaAt_eq_subW]
    show subW w (X.getD (min (128 * b + (i + 1)) (X.length - 1)) 0) (X.getD (min (128 * b + i) (X.length - 1)) 0) = 0
    rw [show min (128 * b + (i + 1)) (X.length - 1) = min (128 * b + i) (X.length - 1) by omega, subW_self]

end

/-- Groups begin inside the sequence (R182). -/
theorem lt_blockCount_iff {b n : Nat} : b < blockCount n ↔ 128 * b < n := by
  unfold blockCount ceilDiv
  omega

/-- Block b of an encoding: its values, at the least width that holds them (R181, R186). -/
theorem encodeFn_block (w : WordSize) {X : List Nat} (delta : Bool) {b : Nat} (hb : 128 * b < X.length) :
    ∃ nb P, (encodeFn w X delta).blocks[b]? = some (nb, P) ∧
      (∀ i, i < 128 → (unpackBits nb P).getD i 0 = blockValue w X delta b i) ∧
      ∀ nb', (∀ i, i < 128 → blockValue w X delta b i < 2 ^ nb') → nb ≤ nb' := by
  have hget : (encodeFn w X delta).blocks[b]? =
      some (encodeBlock (kernelInput w delta (elementBefore X b) (groupAt X b))) := by
    rw [← runningSeed_eq hb]
    exact encodeBlocks_get w delta initSeed (blockCount X.length) X b (lt_blockCount_iff.mpr hb)
  have hlen := groupAt_length_le X b
  have hvalue := fun i (hi : i < 128) => kernelInput_getD hb w delta hi
  refine ⟨_, _, hget, fun i hi => ?_, fun nb' hfit => (selectWidth_le_iff _ _).mpr fun v hv => ?_⟩
  · exact (congrArg (·.getD i 0) (unpackBits_encodeBlock w delta _ _ hlen)).trans (hvalue i hi)
  · obtain ⟨i, hi, rfl⟩ := List.getElem_of_mem hv
    have hi128 : i < 128 := by rwa [kernelInput_length _ _ _ _ hlen] at hi
    rw [← List.getD_eq_getElem _ 0 hi, hvalue i hi128]
    exact hfit i hi128

/-- Settles O35: the block of `encodeFn_block`, whose values fit a width exactly when its unpacked ones do. -/
theorem encodedBlocksHoldTheirGroups : Obligations.EncodedBlocksHoldTheirGroups := by
  intro w X delta b _ _ hb
  obtain ⟨nb, P, hget, hvalue, hleast⟩ := encodeFn_block w delta (lt_blockCount_iff.mp hb)
  exact ⟨nb, P, hget, hvalue, fun nb' hfit => hleast nb' fun i hi => hvalue i hi ▸ hfit i hi⟩

theorem encodeFn_blocks_length (w : WordSize) (X : List Nat) (delta : Bool) :
    (encodeFn w X delta).blocks.length = blockCount X.length := by
  simp [encodeFn]

theorem getD_lt {X : List Nat} {n : Nat} (h : ∀ x ∈ X, x < n) {i : Nat} (hi : i < X.length) : X.getD i 0 < n := by
  rw [List.getD_eq_getElem _ _ hi]
  exact h _ (List.getElem_mem hi)

/-- The values of an encoding of w-bit elements are w-bit values (R181). -/
theorem blockValue_lt {w : WordSize} {X : List Nat} (hX : ∀ x ∈ X, x < 2 ^ bitsOf w) (delta : Bool) {b : Nat}
    (hb : 128 * b < X.length) (i : Nat) : blockValue w X delta b i < 2 ^ bitsOf w := by
  rcases Nat.lt_or_ge (128 * b + i) X.length with hin | hout
  · rw [blockValue_of_lt w delta hin]
    exact packedOf_lt w delta _ (getD_lt hX hin)
  · rw [blockValue_of_le hb w delta hout]
    positivity

/-- Settles O36: the count fits a u32, the blocks are B(count), and the word size is a width that holds every value. -/
theorem encodedContainerIsValid : Obligations.EncodedContainerIsValid := by
  intro w X delta hlen hX
  have hcount : X.length < 2 ^ 32 := by omega
  refine ⟨⟨hcount, encodeFn_blocks_length w X delta, fun x hx => ⟨?_, encodeFn_sized w X delta x hx⟩⟩, rfl, rfl, rfl⟩
  obtain ⟨b, hget⟩ := List.mem_iff_getElem?.mp hx
  have hb := (List.getElem?_eq_some_iff.mp hget).1
  rw [encodeFn_blocks_length, lt_blockCount_iff] at hb
  obtain ⟨nb, P, hget', _, hleast⟩ := encodeFn_block w delta hb
  cases Option.some.inj (hget.symm.trans hget')
  exact hleast _ fun i _ => blockValue_lt hX delta hb i

/-! ### What a container decodes to -/

/-- Every index is that of a value in a block of 128. -/
theorem exists_block_index (i : Nat) : ∃ b j, j < 128 ∧ i = 128 * b + j :=
  ⟨i / 128, i % 128, Nat.mod_lt _ (by omega), (Nat.div_add_mod i 128).symm⟩

/-- Value i of one block stands for an element, from the one before it in the block or the running seed (R189). -/
theorem decodeBlock_getD (w : WordSize) (delta : Bool) (last : Nat) (b : Nat × List Byte) {i : Nat} (hi : i < 128) :
    (decodeBlock w delta last b).getD i 0 =
      elementOf w delta (previous last (fun k => (decodeBlock w delta last b).getD k 0) i) ((unpackBits b.1 b.2).getD i 0) := by
  cases delta with
  | false => rfl
  | true => exact deltaDec_getD w last (unpackBits b.1 b.2) i (by rwa [unpackBits_length])

section
variable (w : WordSize) (delta : Bool) {n : Nat} (last : Nat) (b : Nat × List Byte) (bs : List (Nat × List Byte))

theorem decodeBlocks_cons_getD_head {i : Nat} (hi : i < 128) (hn : i < n) :
    (decodeBlocks w delta n last (b :: bs)).getD i 0 = (decodeBlock w delta last b).getD i 0 := by
  rw [decodeBlocks, List.getD_append _ _ _ _ (by simp; omega), take_getD_of_lt _ _ _ (by omega)]

theorem decodeBlocks_cons_getD_tail (hn : 128 ≤ n) (i : Nat) :
    (decodeBlocks w delta n last (b :: bs)).getD (127 + 1 + i) 0 =
      (decodeBlocks w delta (n - 128) ((decodeBlock w delta last b).getD 127 0) bs).getD i 0 := by
  have hlen : ((decodeBlock w delta last b).take (min 128 n)).length = 128 := by simp; omega
  rw [decodeBlocks, List.getD_append_right _ _ _ _ (by omega), hlen, Nat.add_sub_cancel_left]

end

/-- Value i of block b stands for element 128·b + i, from the element before it (R189). -/
theorem decodeBlocks_getD (w : WordSize) (delta : Bool) {n last : Nat} {bs : List (Nat × List Byte)} {b nb : Nat}
    {P : List Byte} (hget : bs[b]? = some (nb, P)) {i : Nat} (hi : i < 128) (hn : 128 * b + i < n) :
    (decodeBlocks w delta n last bs).getD (128 * b + i) 0 =
      elementOf w delta (previous last (fun k => (decodeBlocks w delta n last bs).getD k 0) (128 * b + i))
        ((unpackBits nb P).getD i 0) := by
  induction bs generalizing n last b with
  | nil => simp at hget
  | cons x bs ih =>
    cases b with
    | zero =>
      obtain rfl : x = (nb, P) := by simpa using hget
      have hhead := fun j (hj : j < i + 1) =>
        decodeBlocks_cons_getD_head w delta (n := n) last (nb, P) bs (i := j) (by omega) (by omega)
      rw [Nat.mul_zero, Nat.zero_add, previous_congr (Nat.lt_succ_self i) hhead, hhead i (Nat.lt_succ_self i)]
      exact decodeBlock_getD w delta last (nb, P) hi
    | succ b =>
      have hsplit : 128 * (b + 1) + i = 127 + 1 + (128 * b + i) := by ring
      have htail := decodeBlocks_cons_getD_tail w delta (n := n) last x bs (by omega)
      have hseed := decodeBlocks_cons_getD_head w delta (n := n) last x bs (i := 127) (by omega) (by omega)
      rw [hsplit, previous_add, hseed]
      simp only [htail]
      exact ih (by simpa using hget) (by omega)

/-- Value i of block b of a container stands for element 128·b + i, from the element before it, 0 before the first (R189). -/
theorem decodeFn_getD {C : Container} {b nb : Nat} {P : List Byte} (hget : C.blocks[b]? = some (nb, P)) {i : Nat} (hi : i < 128)
    (hn : 128 * b + i < C.count) :
    (decodeFn C).getD (128 * b + i) 0 =
      elementOf C.word C.delta (previous 0 (fun k => (decodeFn C).getD k 0) (128 * b + i)) ((unpackBits nb P).getD i 0) :=
  decodeBlocks_getD C.word C.delta hget hi hn

section
variable {C : Container} (h : C.valid)
include h

/-- Every group of a valid container has its block, of width at most w (R106). -/
theorem exists_block_of_valid {b : Nat} (hb : 128 * b < C.count) :
    ∃ nb P, C.blocks[b]? = some (nb, P) ∧ nb ≤ bitsOf C.word := by
  have hlt : b < C.blocks.length := by rwa [blocks_length_of_valid h, lt_blockCount_iff]
  exact ⟨_, _, List.getElem?_eq_getElem hlt, width_le_of_valid h (List.getElem_mem hlt)⟩

/-- The elements of a valid container are w-bit values. -/
theorem decodeFn_lt : ∀ x ∈ decodeFn C, x < 2 ^ bitsOf C.word := by
  intro x hx
  obtain ⟨i, hi, rfl⟩ := List.getElem_of_mem hx
  obtain ⟨b, j, hj, rfl⟩ := exists_block_index i
  rw [← List.getD_eq_getElem _ 0 hi]
  rw [decodeFn_length h] at hi
  obtain ⟨nb, P, hget, hnb⟩ := exists_block_of_valid h (b := b) (by omega)
  rw [decodeFn_getD hget hj hi]
  refine elementOf_lt _ _ _ (lt_of_lt_of_le ?_ (Nat.pow_le_pow_right (by omega) hnb))
  exact getD_lt (unpackBits_lt nb P) (by rwa [unpackBits_length])

end

/-! ### Decoding an encoding, and the least payload -/

/-- An encoding of w-bit elements decodes to them, one by one: an element is that of its packed value (R196). -/
theorem decodeFn_encodeFn_getD {w : WordSize} {X : List Nat} (hX : ∀ x ∈ X, x < 2 ^ bitsOf w) (delta : Bool) {i : Nat}
    (hi : i < X.length) : (decodeFn (encodeFn w X delta)).getD i 0 = X.getD i 0 := by
  induction i using Nat.strongRecOn with
  | ind i ih =>
    have hprev : previous 0 (fun k => (decodeFn (encodeFn w X delta)).getD k 0) i = previous 0 (fun k => X.getD k 0) i := by
      cases i with
      | zero => rfl
      | succ i => exact ih i (by omega) (by omega)
    obtain ⟨b, j, hj, rfl⟩ := exists_block_index i
    obtain ⟨nb, P, hget, hvalue, _⟩ := encodeFn_block w delta (X := X) (b := b) (by omega)
    rw [decodeFn_getD hget hj hi, hprev, hvalue j hj, blockValue_of_lt w delta hi]
    exact elementOf_packedOf w delta _ (getD_lt hX hi)

/-- Decoding undoes encoding (R196). -/
theorem decodeFn_encodeFn {w : WordSize} {X : List Nat} (delta : Bool) (hlen : X.length ≤ 2 ^ 32 - 1)
    (hX : ∀ x ∈ X, x < 2 ^ bitsOf w) : decodeFn (encodeFn w X delta) = X := by
  obtain ⟨hvalid, hcount, _⟩ := encodedContainerIsValid w X delta hlen hX
  refine List.ext_getElem ((decodeFn_length hvalid).trans hcount) fun i hi hi' => ?_
  rw [← List.getD_eq_getElem _ 0 hi, ← List.getD_eq_getElem _ 0 hi', decodeFn_encodeFn_getD hX delta hi']

/-- A block of a valid container holds the values of an encoding of its elements, so its width covers them (R197). -/
theorem blockValue_decodeFn_lt {C : Container} (h : C.valid) {b nb : Nat} {P : List Byte} (hget : C.blocks[b]? = some (nb, P))
    (hb : 128 * b < C.count) {i : Nat} (hi : i < 128) : blockValue C.word (decodeFn C) C.delta b i < 2 ^ nb := by
  have hlen := decodeFn_length h
  rw [← hlen] at hb
  rcases Nat.lt_or_ge (128 * b + i) C.count with hin | hout
  · have hv : (unpackBits nb P).getD i 0 < 2 ^ nb := getD_lt (unpackBits_lt nb P) (by rwa [unpackBits_length])
    have hnb : nb ≤ bitsOf C.word := width_le_of_valid h (List.mem_of_getElem? hget)
    rw [blockValue_of_lt C.word C.delta (by rwa [hlen]), decodeFn_getD hget hi hin,
      packedOf_elementOf _ _ _ (lt_of_lt_of_le hv (Nat.pow_le_pow_right (by omega) hnb))]
    exact hv
  · rw [blockValue_of_le hb C.word C.delta (by rwa [hlen])]
    positivity

/-- The width of each block of the encoding is at most that of any container of the same elements (R197). -/
theorem encodeFn_widths_le {C : Container} (h : C.valid) :
    List.Forall₂ (· ≤ ·) ((encodeFn C.word (decodeFn C) C.delta).blocks.map (·.1)) (C.blocks.map (·.1)) := by
  have hlen : (encodeFn C.word (decodeFn C) C.delta).blocks.length = C.blocks.length := by
    rw [encodeFn_blocks_length, decodeFn_length h, blocks_length_of_valid h]
  refine List.forall₂_iff_get.mpr ⟨by simpa using hlen, fun b hb hb' => ?_⟩
  rw [List.length_map] at hb hb'
  have hcount : 128 * b < C.count := by rwa [← lt_blockCount_iff, ← blocks_length_of_valid h]
  obtain ⟨nb, P, hget, _, hleast⟩ := encodeFn_block C.word C.delta (X := decodeFn C) (b := b) (by rwa [decodeFn_length h])
  have hfst : (encodeFn C.word (decodeFn C) C.delta).blocks[b] = (nb, P) := (List.getElem?_eq_some_iff.mp hget).2
  simp only [List.get_eq_getElem, List.getElem_map, hfst]
  exact hleast _ fun i hi => blockValue_decodeFn_lt h (List.getElem?_eq_getElem hb') hcount hi

/-- Settles O38: each block of the encoding is at most as wide as the container's own. -/
theorem encodedPayloadIsLeast : Obligations.EncodedPayloadIsLeast := by
  rintro w X delta C h rfl rfl _ rfl
  exact (encodeFn_widths_le h).sum_le_sum

end Sys2Proof.Machine
end

section
/-! SUPPORT. PACKINTS, DPACKINTS and UNPACKINTS: the arrays that they read and write, what each decides and performs, and what
UNPACKINTS makes of the output of the others (spec/41_block_encoder.md R185, R190 to R198). -/

namespace Sys2Proof.Machine

/-! ### Element arrays -/

@[simp] theorem arrayAt_length (w : WordSize) (m : Memory) (a n : Nat) : (arrayAt w m a n).length = n := by simp [arrayAt]

/-- An array in memory is the elements of its bytes (R98). -/
theorem elements_readBytes (w : WordSize) (m : Memory) (a n : Nat) :
    elements (bytesOf w) n (m.readBytes a (n * bytesOf w)) = arrayAt w m a n := by
  refine List.ext_getElem (by simp) fun i hi hi' => ?_
  have hin : i < n := by simpa using hi
  rw [← List.getD_eq_getElem _ 0 hi, elements_getD _ _ _ hin, readBytes_slice _ _ _ _ _ (by nlinarith)]
  simp [arrayAt, elemAt]

/-- An array of w-bit values that was written is read back (R98). -/
theorem arrayAt_write {w : WordSize} {V : List Nat} (hV : ∀ v ∈ V, v < 2 ^ bitsOf w) (m : Memory) (a : Nat) :
    arrayAt w (m.write a (elementBytes (bytesOf w) V)) a V.length = V := by
  refine List.ext_getElem (by simp) fun i _ hi => ?_
  rw [← List.getD_eq_getElem _ 0 hi, ← elemAt_write_of_lt hV m a hi]
  simp [arrayAt]

/-! ### The elements of the source window -/

/-- With no hazard, PACKINTS and DPACKINTS read the array in the source window (R185). -/
theorem windowElements_eq_arrayAt {w : WordSize} {s : State} {n : Nat} (hr : s.raced = false) (h : srcSize s = n * bytesOf w) :
    windowElements w s = arrayAt w s.mem (srcBase s) n := by
  rw [windowElements, windowBytes, h, Nat.mul_div_cancel _ (bytesOf_pos w), coreRead_of_not_raced hr, elements_readBytes]

theorem windowElements_lt (w : WordSize) (s : State) : ∀ x ∈ windowElements w s, x < 2 ^ bitsOf w := by
  rw [← pow256_bytesOf]
  exact elements_lt _ _ _

/-- The array of the elements read is the source window itself, where its length is a whole number of them (R185). -/
theorem elementBytes_windowElements {w : WordSize} {s : State} (h : srcSize s % bytesOf w = 0) :
    elementBytes (bytesOf w) (windowElements w s) = windowBytes s :=
  elementBytes_elements _ _ _ ((coreRead_length _ _).trans (Nat.div_mul_cancel (Nat.dvd_of_mod_eq_zero h)).symm)

/-! ### What each command decides -/

section
variable {w : WordSize} {delta : Bool} {s : State} {r : Result}

theorem planOf_packInts_ok_iff : planOf (packIntsInstr w delta) s = .ok r ↔
    (windowsOk s ∧ srcSize s % bytesOf w = 0 ∧ srcSize s / bytesOf w ≤ 2 ^ 32 - 1 ∧
      imageSize (encodeFn w (windowElements w s) delta) ≤ dstSize s) ∧
    r = { len := imageSize (encodeFn w (windowElements w s) delta),
          bytes := imageEncode (encodeFn w (windowElements w s) delta), seed := none } := by
  rw [plan_packInts, packIntsPlan_ok_iff]

theorem planOf_unpackInts_ok_iff : planOf (unpackIntsInstr w) s = .ok r ↔
    windowsOk s ∧ ∃ C, imageDecode (windowBytes s) = .ok C ∧ C.word = w ∧ bytesOf w * C.count ≤ dstSize s ∧
      r = { len := bytesOf w * C.count, bytes := elementBytes (bytesOf w) (decodeFn C), seed := none } := by
  rw [plan_unpackInts, unpackIntsPlan_ok_iff]

end

/-! ### The commands on operands that pass the checks -/

theorem imageEncode_encodeFn_length (w : WordSize) (X : List Nat) (delta : Bool) :
    (imageEncode (encodeFn w X delta)).length = imageSize (encodeFn w X delta) :=
  imageEncode_length _ (encodeFn_sized w X delta)

/-- Settles O33: the elements read are the array in the source window, and the image of their encoding is written. -/
theorem packIntsResult : Obligations.PackIntsResult := by
  rintro w delta s n C hr hwin hsrc hn rfl hdst
  have hdiv : srcSize s / bytesOf w = n := by rw [hsrc, Nat.mul_div_cancel _ (bytesOf_pos w)]
  have hmod : srcSize s % bytesOf w = 0 := by rw [hsrc, Nat.mul_mod_left]
  rw [← windowElements_eq_arrayAt hr hsrc] at hdst ⊢
  have hplan := planOf_packInts_ok_iff.mpr ⟨⟨hwin, hmod, hdiv.trans_le hn, hdst⟩, rfl⟩
  have hlen := imageEncode_encodeFn_length w (windowElements w s) delta
  exact ⟨_, exec_of_plan_ok_of_not_raced hr hplan, readBytes_write_of_length _ _ _ _ hlen, write_unchangedOutside hlen⟩

/-- The elements of a valid container, written as an array, fill its count of places. -/
theorem elementBytes_decodeFn_length {C : Container} (h : C.valid) :
    (elementBytes (bytesOf C.word) (decodeFn C)).length = bytesOf C.word * C.count := by
  rw [elementBytes_length, decodeFn_length h]

/-- Settles O34: the elements are written as they decode, and each is that of its packed value, from the element before it
in memory. -/
theorem unpackIntsResult : Obligations.UnpackIntsResult := by
  rintro w s C hr hwin hC rfl hdst
  have hvalid := imageDecode_valid hC
  rw [← coreRead_of_not_raced hr] at hC
  have hplan := planOf_unpackInts_ok_iff.mpr ⟨hwin, C, hC, rfl, hdst, rfl⟩
  have helem : ∀ i, i < C.count → elemAt C.word (s.mem.write (dstBase s) (elementBytes (bytesOf C.word) (decodeFn C)))
      (dstBase s) i = (decodeFn C).getD i 0 := fun i hi =>
    elemAt_write_of_lt (decodeFn_lt hvalid) _ _ (by rwa [decodeFn_length hvalid])
  refine ⟨_, exec_of_plan_ok_of_not_raced hr hplan, ?_, fun i hi => ?_,
    write_unchangedOutside (elementBytes_decodeFn_length hvalid)⟩
  · rw [← decodeFn_length hvalid]
    exact arrayAt_write (decodeFn_lt hvalid) _ _
  · obtain ⟨b, j, hj, rfl⟩ := exists_block_index i
    obtain ⟨nb, P, hget, _⟩ := exists_block_of_valid hvalid (b := b) (by omega)
    have hdiv : (128 * b + j) / 128 = b := by omega
    have hmod : (128 * b + j) % 128 = j := by omega
    have hprev := previous_congr (last := 0) hi helem
    rw [hdiv, hmod, helem _ hi, hprev, decodeFn_getD hget hj hi, unpackBits_getD nb P j hj]
    exact ⟨nb, P, hget, rfl⟩

/-! ### Round trips -/

/-- What PACKINTS or DPACKINTS has done when it succeeds: the image of the encoded source elements stands at the destination,
RES_LEN bytes long (R190 to R193). -/
theorem packInts_succeeds {w : WordSize} {delta : Bool} {s t : State} (h : succeeds (packIntsInstr w delta) s t) :
    srcSize s % bytesOf w = 0 ∧ (windowElements w s).length ≤ 2 ^ 32 - 1 ∧
      t.mem.readBytes (dstBase s) t.resLen.toNat = imageEncode (encodeFn w (windowElements w s) delta) := by
  obtain ⟨r, hp, rfl, hm⟩ := succeeds_plan h
  obtain ⟨⟨_, hmod, hcount, hdst⟩, rfl⟩ := planOf_packInts_ok_iff.mp hp
  refine ⟨hmod, (elements_length _ _ _).trans_le hcount, ?_⟩
  rw [succeed_resLen_toNat hdst, hm]
  exact readBytes_write_of_length _ _ _ _ (imageEncode_encodeFn_length _ _ _)

/-- What UNPACKINTS has done when it succeeds on a window that holds an image: it has written its elements (R194, R195). -/
theorem unpackInts_succeeds {w : WordSize} {u v : State} {C : Container} (h : succeeds (unpackIntsInstr w) u v)
    (hC : imageDecode (u.mem.readBytes (srcBase u) (srcSize u)) = .ok C) :
    v.resLen = BitVec.ofNat 64 (bytesOf w * C.count) ∧
      v.mem = u.mem.write (dstBase u) (elementBytes (bytesOf w) (decodeFn C)) := by
  obtain ⟨r, hp, rfl, hm⟩ := succeeds_plan h
  obtain ⟨_, C', hC', _, _, rfl⟩ := planOf_unpackInts_ok_iff.mp hp
  rw [windowBytes, coreRead_of_not_raced h.1, hC] at hC'
  cases hC'
  exact ⟨rfl, hm⟩

/-- Settles O37: the encoding is valid, so its image is read back, and it decodes to the source elements, whose array is the
source window. -/
theorem encodedSequenceDecodesBack : Obligations.EncodedSequenceDecodesBack := by
  refine ⟨fun w X delta hlen hX => decodeFn_encodeFn delta hlen hX, fun w delta s t u v hst hread huv => ?_⟩
  obtain ⟨_, hbytes⟩ := hread
  obtain ⟨hmod, hlen, himage⟩ := packInts_succeeds hst
  obtain ⟨hvalid, hcount, _⟩ := encodedContainerIsValid w _ delta hlen (windowElements_lt w s)
  have hC := imageDecode_imageEncode hvalid []
  rw [List.append_nil, ← himage, ← hbytes] at hC
  obtain ⟨hres, hm⟩ := unpackInts_succeeds huv hC
  rw [decodeFn_encodeFn delta hlen (windowElements_lt w s), elementBytes_windowElements hmod] at hm
  constructor
  · rw [hres, hcount, windowElements, elements_length, Nat.mul_div_cancel' (Nat.dvd_of_mod_eq_zero hmod)]
    exact (BitVec.ofNat_toNat 64 s.latch.srcLen).trans (BitVec.setWidth_eq _)
  · rw [hm, windowBytes, readBytes_write_of_length _ _ _ _ (coreRead_length _ _)]
    exact coreRead_of_not_raced hst.1 _

/-! ### The empty sequence -/

theorem encodeFn_nil (w : WordSize) (delta : Bool) :
    encodeFn w [] delta = { count := 0, word := w, delta := delta, blocks := [] } := rfl

theorem pad16_zero : pad16 0 = 0 := rfl

theorem imageSize_encodeFn_nil (w : WordSize) (delta : Bool) : imageSize (encodeFn w [] delta) = 16 := by
  rw [encodeFn_nil, imageSize, widthSum, List.length_nil, pad16_zero]
  rfl

/-- The image of an empty sequence is its header: only tag and flag are not 0 (R198). -/
theorem imageEncode_encodeFn_nil (w : WordSize) (delta : Bool) :
    imageEncode (encodeFn w [] delta) = [0, 0, 0, 0, tagByte w, flagByte delta] ++ List.replicate 10 0 := by
  rw [encodeFn_nil]
  simp [imageEncode, imageHeader, imageTable, toLE, pad16_zero, List.replicate]

/-- Settles O39: an empty sequence has no group, and the commands of O33 on no elements write its image. -/
theorem emptySequenceImage : Obligations.EmptySequenceImage := by
  refine fun w delta => ⟨⟨encodeFn_nil w delta, imageEncode_encodeFn_nil w delta, rfl⟩, fun s hr hwin hsrc hdst => ?_⟩
  obtain ⟨m, hx, himage, _⟩ := packIntsResult w delta s 0 (encodeFn w [] delta) hr hwin (by rw [hsrc, Nat.zero_mul])
    (by decide) rfl (by rwa [imageSize_encodeFn_nil])
  rw [imageSize_encodeFn_nil, imageEncode_encodeFn_nil] at himage
  rw [imageSize_encodeFn_nil] at hx
  exact ⟨_, hx, rfl, rfl, himage⟩

end Sys2Proof.Machine
end

section
/-! SUPPORT. The wire decoder: the checks W1 to W9 on the bytes, and that it reads the serialization of a valid container back
and accepts nothing else (spec/30_encoding.md R120 to R124, spec/42_container.md R222, R223, R225). -/

namespace Sys2Proof.Machine

/-! ### Reading records -/

/-- A record that stands first is read, where the records after it are (R120, W5 to W8). -/
theorem wireRecords_cons {tag B nb : Nat} {P more left : List Byte} {bs : List (Nat × List Byte)} (htag : tag < 2 ^ 8)
    (hnb : nb ≤ tag) (hP : P.length = 16 * nb) (h : wireRecords tag B more = .ok (bs, left)) :
    wireRecords tag (B + 1) (wireRecord (nb, P) ++ more) = .ok ((nb, P) :: bs, left) := by
  have hsize : (wireRecord (nb, P) ++ more).length = 5 + 16 * nb + more.length := by
    rw [List.length_append, wireRecord_length, hP]
  have hwidth : ((wireRecord (nb, P) ++ more).getD 0 0).toNat = nb := getD_wireRecord_width (A := []) rfl (by omega)
  have hlen : fromLE (slice (wireRecord (nb, P) ++ more) 1 5) = 16 * nb := by
    have hshape : wireRecord (nb, P) ++ more = [BitVec.ofNat 8 nb] ++ (toLE 4 (16 * nb) ++ (P ++ more)) := by
      simp [wireRecord]
    rw [hshape]
    exact fromLE_slice_append_mid rfl (by omega)
  have hdata : slice (wireRecord (nb, P) ++ more) 5 (5 + 16 * nb) = P := slice_wireRecord_data (A := []) rfl hP
  have hrest : (wireRecord (nb, P) ++ more).drop (5 + 16 * nb) = more :=
    List.drop_left' (by rw [wireRecord_length, hP])
  simp only [wireRecords, hwidth, hlen, hdata, hrest, hsize, h, bind_ok, check_ok, pure_ok]
  exact ⟨(), by omega, (), by omega, (), by omega, (), by omega, _, rfl, rfl⟩

/-- Records that stand one after another are read back, whatever follows them (R120). -/
theorem wireRecords_flatMap {tag : Nat} {bs : List (Nat × List Byte)} (htag : tag < 2 ^ 8)
    (h : ∀ b ∈ bs, b.1 ≤ tag ∧ b.2.length = 16 * b.1) (more : List Byte) :
    wireRecords tag bs.length (bs.flatMap wireRecord ++ more) = .ok (bs, more) := by
  induction bs with
  | nil => rfl
  | cons b bs ih =>
    obtain ⟨hnb, hP⟩ := h b List.mem_cons_self
    rw [List.flatMap_cons, List.append_assoc]
    exact wireRecords_cons htag hnb hP (ih fun x hx => h x (List.mem_cons_of_mem b hx))

/-! ### What the decoder accepts -/

/-- A stream is read when it passes W1 to W9, and the container is then the one in its bytes (R124). -/
theorem wireDecode_ok_iff {L : List Byte} {C : Container} : wireDecode L = .ok C ↔
    10 ≤ L.length ∧ L.getD 4 0 = tagByte C.word ∧ L.getD 5 0 = flagByte C.delta ∧
      fromLE (slice L 6 10) = blockCount (fromLE (slice L 0 4)) ∧
      wireRecords (bitsOf C.word) (fromLE (slice L 6 10)) (L.drop 10) = .ok (C.blocks, []) ∧
      C.count = fromLE (slice L 0 4) := by
  unfold wireDecode
  simp only [bind_ok, check_ok, wordOfTag_ok, deltaOfFlag_ok, pure_ok, Except.ok.injEq, exists_const]
  constructor
  · rintro ⟨h1, w, h2, d, h3, h4, ⟨bs, left⟩, h5, h9, rfl⟩
    obtain rfl : left = [] := not_not.mp h9
    exact ⟨by omega, h2, h3, not_not.mp h4, h5, rfl⟩
  · rintro ⟨h1, h2, h3, h4, h5, hcount⟩
    exact ⟨by omega, _, h2, _, h3, not_not.mpr h4, _, h5, not_not.mpr rfl, hcount ▸ rfl⟩

/-- A stream with a header is the fields of the header, and then the rest (R120, R121). -/
theorem wire_fields_append (L : List Byte) (h : 10 ≤ L.length) :
    slice L 0 4 ++ [L.getD 4 0, L.getD 5 0] ++ slice L 6 10 ++ L.drop 10 = L := by
  have hheader : slice L 0 4 ++ [L.getD 4 0, L.getD 5 0] ++ slice L 6 10 = slice L 0 10 := by
    rw [slice_eq_map_range L 0 4 (by omega), slice_eq_map_range L 6 4 h, slice_eq_map_range L 0 10 h]
    rfl
  rw [hheader]
  exact List.take_append_drop 10 L

/-- A stream that is read is the serialization of the container it gives (R223). -/
theorem wireEncode_of_wireDecode {L : List Byte} {C : Container} (h : wireDecode L = .ok C) : wireEncode C = L := by
  obtain ⟨hlen, htag, hflag, _, hrecords, hcount⟩ := wireDecode_ok_iff.mp h
  obtain ⟨hblocks, _, hrest⟩ := wireRecords_ok hrecords
  rw [List.append_nil] at hrest
  rw [wireEncode, hcount, hblocks, ← htag, ← hflag, ← hrest, toLE_fromLE_of_length (by simp; omega),
    toLE_fromLE_of_length (by simp; omega), wire_fields_append L hlen]

theorem tagByte_injective {w w' : WordSize} (h : tagByte w = tagByte w') : w = w' := by
  have hread := wordOfTag_ok (c := .corruptData).mpr h
  rw [wordOfTag_ok.mpr rfl] at hread
  exact Except.ok.inj hread

/-! ### Reading a serialization -/

section
variable {C : Container} (h : C.valid) (more : List Byte)
include h

theorem wire_count : fromLE (slice (wireEncode C ++ more) 0 4) = C.count := by
  rw [wireEncode]
  simp only [List.append_assoc]
  exact fromLE_slice_append_mid (A := []) rfl (count_lt_of_valid h)

theorem wire_blockCount : fromLE (slice (wireEncode C ++ more) 6 10) = C.blocks.length := by
  rw [wireEncode, List.append_assoc, List.append_assoc]
  exact fromLE_slice_append_mid (by simp) (blocks_length_lt_of_valid h)

/-- The records of a serialization are read as the blocks, and leave what follows it (R120). -/
theorem wire_records : wireRecords (bitsOf C.word) C.blocks.length ((wireEncode C ++ more).drop 10) = .ok (C.blocks, more) := by
  have hrest : (wireEncode C ++ more).drop 10 = C.blocks.flatMap wireRecord ++ more := by
    rw [wireEncode, List.append_assoc]
    exact List.drop_left' (by simp)
  obtain ⟨_, _, hblocks⟩ := h
  rw [hrest]
  exact wireRecords_flatMap (by cases C.word <;> decide) hblocks more

theorem wire_length : 10 ≤ (wireEncode C ++ more).length := by
  rw [List.length_append, wireEncode_length C (sized_of_valid h), wireSize]
  omega

/-- The serialization of a valid container is read back (R222). -/
theorem wireDecode_wireEncode : wireDecode (wireEncode C) = .ok C := by
  rw [← List.append_nil (wireEncode C), wireDecode_ok_iff, wire_count h, wire_blockCount h]
  exact ⟨wire_length h [], rfl, rfl, blocks_length_of_valid h, wire_records h [], rfl⟩

/-- Nothing may follow a serialization (W9). -/
theorem eq_nil_of_wireDecode_wireEncode_append {D : Container} (hread : wireDecode (wireEncode C ++ more) = .ok D) :
    more = [] := by
  obtain ⟨_, htag, _, _, hrecords, _⟩ := wireDecode_ok_iff.mp hread
  have hword : C.word = D.word := tagByte_injective htag
  rw [wire_blockCount h, ← hword, wire_records h] at hrecords
  exact (Prod.mk.inj (Except.ok.inj hrecords)).2

end

/-- Settles O41: a stream that is read is re-encoded by its container, and any valid container of those bytes is read back. -/
theorem deserializeIsExact : Obligations.DeserializeIsExact := by
  intro L C hC
  refine ⟨wireEncode_of_wireDecode hC, wireDecode_valid hC, fun C' hvalid hbytes => ?_⟩
  have hread := wireDecode_wireEncode hvalid
  rw [hbytes, hC] at hread
  exact (Except.ok.inj hread).symm

/-- Settles O42: if a beginning of a serialization were read, it would be one itself, and then nothing could follow it. -/
theorem truncationIsDetected : Obligations.TruncationIsDetected := by
  rintro C L hvalid ⟨more, hsplit⟩ hproper
  cases hread : wireDecode L with
  | error e => rw [wireDecode_error hread]
  | ok D =>
    have hwhole := wireDecode_wireEncode hvalid
    rw [← hsplit, ← wireEncode_of_wireDecode hread] at hwhole
    obtain rfl := eq_nil_of_wireDecode_wireEncode_append (wireDecode_valid hread) more hwhole
    exact absurd ((List.append_nil L).symm.trans hsplit) hproper

end Sys2Proof.Machine
end

section
/-! SUPPORT. SERIALIZE and DESERIALIZE: what each writes, and what the commands make of each other's output
(spec/42_container.md R220 to R222, R226). -/

namespace Sys2Proof.Machine

/-! ### What a command writes -/

/-- A command that has decided on a result with no new seed, with no hazard, writes its bytes and changes no other (R264). -/
theorem exec_writes_result {i : Instr} {s : State} {n : Nat} {bs : List Byte} (hr : s.raced = false)
    (h : planOf i s = .ok { len := n, bytes := bs, seed := none }) :
    ∃ m, exec i s = .next { s with mem := m, status := completedStatus s .none, resLen := BitVec.ofNat 64 n } ∧
      m.readBytes (dstBase s) n = bs ∧ unchangedOutside s.mem m (dstBase s) n := by
  obtain ⟨_, hlen, _, _⟩ := planOf_ok h
  exact ⟨_, exec_of_plan_ok_of_not_raced hr h, readBytes_write_of_length _ _ _ _ hlen, write_unchangedOutside hlen⟩

/-- The output of a command that succeeded, RES_LEN bytes at the destination, is the bytes of its result (R68). -/
theorem succeeds_output {i : Instr} {s t : State} (h : succeeds i s t) :
    ∃ r, planOf i s = .ok r ∧ t.mem.readBytes (dstBase s) t.resLen.toNat = r.bytes := by
  obtain ⟨r, hp, rfl, hm⟩ := succeeds_plan h
  obtain ⟨_, hlen, hfit, _⟩ := planOf_ok hp
  rw [succeed_resLen_toNat hfit, hm]
  exact ⟨r, hp, readBytes_write_of_length _ _ _ _ hlen⟩

/-! ### The two commands -/

/-- Settles O44: the image in the source window is decoded, and the wire bytes of its container are written. -/
theorem serializeResult : Obligations.SerializeResult := by
  intro s C hr hwin hC hdst
  rw [← coreRead_of_not_raced hr] at hC
  exact exec_writes_result hr (serializePlan_ok_iff.mpr ⟨hwin, C, hC, hdst, rfl⟩)

/-- Settles O45: the stream in the source window is decoded, and the image of its container is written. -/
theorem deserializeResult : Obligations.DeserializeResult := by
  intro s C hr hwin hC hdst
  rw [← coreRead_of_not_raced hr] at hC
  exact exec_writes_result hr (deserializePlan_ok_iff.mpr ⟨hwin, C, hC, hdst, rfl⟩)

/-- What SERIALIZE has done when it succeeds: its output is the serialization of the container that it read (R220). -/
theorem serialize_succeeds {s t : State} (h : succeeds .serialize s t) :
    ∃ C, imageDecode (s.mem.readBytes (srcBase s) (srcSize s)) = .ok C ∧
      t.mem.readBytes (dstBase s) t.resLen.toNat = wireEncode C := by
  obtain ⟨r, hp, hout⟩ := succeeds_output h
  obtain ⟨_, C, hC, _, rfl⟩ := serializePlan_ok_iff.mp hp
  rw [windowBytes, coreRead_of_not_raced h.1] at hC
  exact ⟨C, hC, hout⟩

/-- What DESERIALIZE has done when it succeeds: its output is the image of the container that it read (R221). -/
theorem deserialize_succeeds {s t : State} (h : succeeds .deserialize s t) :
    ∃ C, wireDecode (s.mem.readBytes (srcBase s) (srcSize s)) = .ok C ∧
      t.mem.readBytes (dstBase s) t.resLen.toNat = imageEncode C := by
  obtain ⟨r, hp, hout⟩ := succeeds_output h
  obtain ⟨_, C, hC, _, rfl⟩ := deserializePlan_ok_iff.mp hp
  rw [windowBytes, coreRead_of_not_raced h.1] at hC
  exact ⟨C, hC, hout⟩

/-! ### Round trips -/

/-- DESERIALIZE on the output of SERIALIZE writes the image of the container that SERIALIZE read (R222). -/
theorem serialize_deserialize_succeed {s t u v : State} (hst : succeeds .serialize s t) (hread : readsOutputOf u s t)
    (huv : succeeds .deserialize u v) :
    ∃ C, imageDecode (s.mem.readBytes (srcBase s) (srcSize s)) = .ok C ∧
      v.mem.readBytes (dstBase u) v.resLen.toNat = imageEncode C := by
  obtain ⟨C, hC, hwire⟩ := serialize_succeeds hst
  obtain ⟨D, hD, himage⟩ := deserialize_succeeds huv
  obtain ⟨_, hbytes⟩ := hread
  rw [hbytes, hwire, wireDecode_wireEncode (imageDecode_valid hC)] at hD
  cases hD
  exact ⟨C, hC, himage⟩

/-- The image of a valid container with nothing after it is read back (R115). -/
theorem imageDecode_imageEncode_self {C : Container} (h : C.valid) : imageDecode (imageEncode C) = .ok C := by
  have hread := imageDecode_imageEncode h []
  rwa [List.append_nil] at hread

/-- Where SERIALIZE read an image that the core wrote, DESERIALIZE on its output writes the same bytes (R222). -/
theorem serialize_deserialize_restores_image {s t u v : State} {C : Container} (hst : succeeds .serialize s t)
    (hread : readsOutputOf u s t) (huv : succeeds .deserialize u v) (hC : C.valid)
    (himage : s.mem.readBytes (srcBase s) (srcSize s) = imageEncode C) :
    v.mem.readBytes (dstBase u) v.resLen.toNat = imageEncode C := by
  obtain ⟨D, hD, hout⟩ := serialize_deserialize_succeed hst hread huv
  rw [himage, imageDecode_imageEncode_self hC] at hD
  cases hD
  exact hout

/-- Settles O40: both formats of a valid container are read back, and the commands pass the container on. -/
theorem containerFormatsRoundTrip : Obligations.ContainerFormatsRoundTrip := by
  refine ⟨fun C more h => ⟨imageDecode_imageEncode h more, wireDecode_wireEncode h, imageEncode_length C (sized_of_valid h),
    wireEncode_length C (sized_of_valid h)⟩, fun s t u v hst hread huv => ⟨?_, fun C hC himage => ?_⟩⟩
  · obtain ⟨C, hC, hout⟩ := serialize_deserialize_succeed hst hread huv
    rw [hC, hout, imageDecode_imageEncode_self (imageDecode_valid hC)]
  · exact serialize_deserialize_restores_image hst hread huv hC himage

/-- Settles O46: SERIALIZE and DESERIALIZE restore the image that the encoder wrote, so the decoder reads the encoder's own
output and O37 applies. -/
theorem fullPipelineRestoresSource : Obligations.FullPipelineRestoresSource := by
  intro w delta s₁ t₁ s₂ t₂ s₃ t₃ s₄ t₄ h₁ hread₂ h₂ hread₃ h₃ hread₄ h₄
  obtain ⟨_, hbytes₂⟩ := hread₂
  obtain ⟨hsize₄, hbytes₄⟩ := hread₄
  obtain ⟨_, hlen, himage⟩ := packInts_succeeds h₁
  obtain ⟨hvalid, _⟩ := encodedContainerIsValid w _ delta hlen (windowElements_lt w s₁)
  have hrestored := serialize_deserialize_restores_image h₂ hread₃ h₃ hvalid (hbytes₂.trans himage)
  have hsame := hrestored.trans himage.symm
  have hsize : t₃.resLen.toNat = t₁.resLen.toNat := by simpa using congrArg List.length hsame
  obtain ⟨_, hback⟩ := encodedSequenceDecodesBack
  exact hback w delta s₁ t₁ s₄ t₄ h₁ ⟨hsize₄.trans hsize, hbytes₄.trans hsame⟩ h₄

end Sys2Proof.Machine
end

section
/-! SUPPORT. How a command ends (spec/60_exceptions.md): the code that it reports, what an error leaves unchanged, a command
that is issued again, and a host write that races with a completion. -/

namespace Sys2Proof.Machine

/-! ### An idle core -/

/-- While no command is in flight the core has no step (R276). -/
theorem coreTurn_of_idle {s : State} (h : s.status.busy = false) : coreTurn s = .next s := if_neg (by simp [h])

/-- Settles O7: with no event left a step is the core's turn. -/
theorem idleCoreDoesNothing : Obligations.IdleCoreDoesNothing := by
  intro s hb
  exact ⟨coreTurn_of_idle hb, fun hnone => (step_of_no_event hnone).trans (coreTurn_of_idle hb)⟩

/-! ### The code of a run of checks -/

/-- The code that a command reports for what it has decided: that of the check that failed, NONE if none did (R262). -/
def codeOf {α : Type} : Except ErrorCode α → ErrorCode
  | .error c => c
  | .ok _ => .none

section
variable {α : Type} {s : State} {rest : List (Bool × ErrorCode)}

/-- What is computed once every check has passed adds no code. -/
theorem codeOf_bind_pure {β : Type} (x : Except ErrorCode α) (g : α → β) :
    codeOf (x >>= fun a => pure (g a)) = codeOf x := by
  cases x <;> rfl

theorem codeOf_check (p : Prop) [Decidable p] (c : ErrorCode) : codeOf (check p c) = firstFailing [(decide p, c)] := by
  by_cases h : p
  · rw [check_of c h, decide_eq_true h]; rfl
  · rw [check_of_not c h, decide_eq_false h]; rfl

/-- A check before others stands before theirs in the list (R261). -/
theorem codeOf_check_bind (p : Prop) [Decidable p] (c : ErrorCode) {f : Unit → Except ErrorCode α}
    (h : codeOf (f ()) = firstFailing rest) : codeOf (check p c >>= f) = firstFailing ((decide p, c) :: rest) := by
  by_cases hp : p
  · rw [check_of c hp, decide_eq_true hp]; rfl
  · rw [check_of_not c hp, decide_eq_false hp]; exact h

/-- Checks 3 to 5 before others stand before theirs in the list (R261). -/
theorem codeOf_checkWindows_bind {f : Unit → Except ErrorCode α} (h : codeOf (f ()) = firstFailing rest) :
    codeOf (checkWindows s >>= f) = firstFailing (windowChecks s ++ rest) := by
  have hassoc : (checkWindows s >>= f) = (check (windowsMisaligned s) .misalignedBuffer >>= fun _ =>
      check (windowsOutOfRange s) .addressRange >>= fun _ => check (windowsOverlap s) .bufferOverlap >>= f) := by
    simp only [checkWindows, bind_assoc]
  rw [hassoc]
  exact codeOf_check_bind _ _ (codeOf_check_bind _ _ (codeOf_check_bind _ _ h))

/-- The list of a command that reads a container, whose decoder reports one code: the windows, the container, and then what
the command checks of it (R261, checks 6 and 7). -/
theorem codeOf_containerPlan {decoded : Except ErrorCode Container} {malformed : ErrorCode} {wrongWord : Container → Bool}
    {len : Container → Nat} {f : Container → Except ErrorCode α} (hdecoded : ∀ {e}, decoded = .error e → e = malformed)
    (hf : ∀ C, codeOf (f C) =
      firstFailing [(wrongWord C, .wordSizeMismatch), (decide (dstSize s < len C), .bufferTooSmall)]) :
    codeOf (checkWindows s >>= fun _ => decoded >>= f) =
      firstFailing (containerCheckList decoded malformed wrongWord len s) := by
  cases decoded with
  | error e => exact codeOf_checkWindows_bind (hdecoded rfl)
  | ok C => exact codeOf_checkWindows_bind (hf C)

end

/-! ### Each command's plan follows its list -/

theorem codeOf_kernelChecks (w : WordSize) (nb srcNeed dstNeed : Nat) (s : State) :
    codeOf (kernelChecks w nb srcNeed dstNeed s) = firstFailing (kernelCheckList w nb srcNeed dstNeed s) :=
  codeOf_check_bind _ _ (codeOf_checkWindows_bind (codeOf_check_bind _ _ (codeOf_check _ _)))

theorem codeOf_packPlan (w : WordSize) (nb : Nat) (s : State) :
    codeOf (packPlan w nb s) = firstFailing (kernelCheckList w nb (blockBytes w) (16 * nb) s) :=
  (codeOf_bind_pure _ _).trans (codeOf_kernelChecks ..)

theorem codeOf_unpackPlan (w : WordSize) (nb : Nat) (s : State) :
    codeOf (unpackPlan w nb s) = firstFailing (kernelCheckList w nb (16 * nb) (blockBytes w) s) :=
  (codeOf_bind_pure _ _).trans (codeOf_kernelChecks ..)

theorem codeOf_dpackPlan (w : WordSize) (nb : Nat) (s : State) :
    codeOf (dpackPlan w nb s) = firstFailing (kernelCheckList w nb (blockBytes w) (16 * nb) s) :=
  (codeOf_bind_pure _ _).trans (codeOf_kernelChecks ..)

theorem codeOf_dunpackPlan (w : WordSize) (nb : Nat) (s : State) :
    codeOf (dunpackPlan w nb s) = firstFailing (kernelCheckList w nb (16 * nb) (blockBytes w) s) :=
  (codeOf_bind_pure _ _).trans (codeOf_kernelChecks ..)

theorem codeOf_packIntsPlan (w : WordSize) (delta : Bool) (s : State) :
    codeOf (packIntsPlan w delta s) = firstFailing (packIntsCheckList w delta s) :=
  codeOf_checkWindows_bind (codeOf_check_bind _ _ ((codeOf_bind_pure _ _).trans (codeOf_check _ _)))

theorem codeOf_unpackIntsPlan (w : WordSize) (s : State) :
    codeOf (unpackIntsPlan w s) = firstFailing (containerCheckList (imageDecode (windowBytes s)) .malformedContainer
      (fun C => decide (C.word ≠ w)) (fun C => bytesOf w * C.count) s) :=
  codeOf_containerPlan imageDecode_error fun _ => codeOf_check_bind _ _ ((codeOf_bind_pure _ _).trans (codeOf_check _ _))

theorem codeOf_serializePlan (s : State) :
    codeOf (serializePlan s) = firstFailing (containerCheckList (imageDecode (windowBytes s)) .malformedContainer
      (fun _ => false) wireSize s) :=
  codeOf_containerPlan imageDecode_error fun _ => (codeOf_bind_pure _ _).trans (codeOf_check _ _)

theorem codeOf_deserializePlan (s : State) :
    codeOf (deserializePlan s) = firstFailing (containerCheckList (wireDecode (windowBytes s)) .corruptData
      (fun _ => false) imageSize s) :=
  codeOf_containerPlan wireDecode_error fun _ => (codeOf_bind_pure _ _).trans (codeOf_check _ _)

/-- What a command decides is the first failing check of its list (R261, R262). -/
theorem codeOf_planOf (i : Instr) (s : State) : codeOf (planOf i s) = firstFailing (checkList i s) := by
  cases i with
  | pack32 nb => exact codeOf_packPlan .w32 nb s
  | pack64 nb => exact codeOf_packPlan .w64 nb s
  | unpack32 nb => exact codeOf_unpackPlan .w32 nb s
  | unpack64 nb => exact codeOf_unpackPlan .w64 nb s
  | dpack32 nb => exact codeOf_dpackPlan .w32 nb s
  | dpack64 nb => exact codeOf_dpackPlan .w64 nb s
  | dunpack32 nb => exact codeOf_dunpackPlan .w32 nb s
  | dunpack64 nb => exact codeOf_dunpackPlan .w64 nb s
  | packints32 => exact codeOf_packIntsPlan .w32 false s
  | packints64 => exact codeOf_packIntsPlan .w64 false s
  | dpackints32 => exact codeOf_packIntsPlan .w32 true s
  | dpackints64 => exact codeOf_packIntsPlan .w64 true s
  | unpackints32 => exact codeOf_unpackIntsPlan .w32 s
  | unpackints64 => exact codeOf_unpackIntsPlan .w64 s
  | serialize => exact codeOf_serializePlan s
  | deserialize => exact codeOf_deserializePlan s

/-! ### The code of a completion -/

/-- A command's completion reports what its plan decided. -/
theorem exec_status_eq {i : Instr} {s t : State} (h : exec i s = .next t) :
    t.status = s.status.completed (codeOf (planOf i s)) := by
  rcases exec_cases h with ⟨c, hc, rfl⟩ | ⟨r, hr, rfl⟩
  · rw [hc]; rfl
  · rw [hr]; rfl

theorem allChecks_of_decode {s : State} {i : Instr} (h : decode s.latch.cmd = .ok i) :
    allChecks s = (false, .illegalCommand) :: checkList i s := by
  rw [allChecks, h]

theorem allChecks_of_decode_error {s : State} {e : DecodeError} (h : decode s.latch.cmd = .error e) :
    allChecks s = [(true, .illegalCommand)] := by
  rw [allChecks, h]

/-- Settles O47: a word that matches no row fails check 1, and the plan of a command follows its list of checks. -/
theorem firstFailingCheckIsReported : Obligations.FirstFailingCheckIsReported := by
  intro s t h
  cases hd : decode s.latch.cmd with
  | error e =>
    rw [completion_of_decode_error hd] at h
    rw [allChecks_of_decode_error hd, ← Host.Outcome.next.inj h]
    rfl
  | ok i =>
    rw [completion_of_decode hd] at h
    rw [exec_status_eq h, allChecks_of_decode hd, codeOf_planOf]
    rfl

/-! ### Errors -/

/-- A completion that ends with ERR = 1 has raised a code other than NONE (R263). -/
theorem completion_failed {s t : State} (h : completion s = .next t) (he : t.status.err = true) :
    ∃ c, c ≠ .none ∧ t = raiseError c s := by
  rcases completion_outcomes h with herror | ⟨r, _, _, _, rfl⟩
  · exact herror
  · simp at he

/-- Settles O48: the completion is `raiseError`, which writes no other register and no memory. -/
theorem errorsArePrecise : Obligations.ErrorsArePrecise := by
  intro s t h he
  obtain ⟨c, hc, rfl⟩ := completion_failed h he
  exact ⟨rfl, hc, drawsAfter_of_not_raced⟩

/-! ### A command issued again -/

/-- No check looks at STATUS or RES_LEN (R261). -/
theorem allChecks_with_status_resLen (s : State) (st : Status) (n : Word) :
    allChecks { s with status := st, resLen := n } = allChecks s := rfl

/-- Issuing the word of a failed command again captures the operands that it ran on, and so puts back the state it ran in
but for STATUS and RES_LEN (R24, R263). -/
theorem issue_raiseError {s : State} (hl : latchAgrees s) (hr : s.raced = false) (c : ErrorCode) :
    issue s.cmd (raiseError c s) = { s with status := Status.issued, resLen := 0 } := by
  rw [raiseError_of_not_raced hr, issue, ← hl, ← hr]

/-- Settles O53: both completions report the first failing check (O47), of the same list. -/
theorem retryReportsSameCode : Obligations.RetryReportsSameCode := by
  intro s t u _ hl hr ht he hu
  have htcode := congrArg Status.code (firstFailingCheckIsReported s t ht)
  obtain ⟨c, _, rfl⟩ := completion_failed ht he
  have hissue : writeReg 1 (raiseError c s).cmd (raiseError c s) = { s with status := Status.issued, resLen := 0 } :=
    (writeReg_cmd_of_idle _ rfl).trans (issue_raiseError hl hr c)
  rw [hissue] at hu ⊢
  have hucode := congrArg Status.code (firstFailingCheckIsReported _ u hu)
  rw [allChecks_with_status_resLen] at hucode
  exact ⟨rfl, hucode.trans htcode.symm⟩

/-! ### A host write that races with the completion -/

/-- A completion changes neither SRC_LEN nor WIGN (R29, R263, R264). -/
theorem completion_keeps_srcLen_wign {s t : State} (h : completion s = .next t) :
    t.srcLen = s.srcLen ∧ t.status.wign = s.status.wign := by
  rcases completion_outcomes h with ⟨c, _, rfl⟩ | ⟨r, _, _, _, rfl⟩
  · exact ⟨rfl, rfl⟩
  · exact ⟨rfl, rfl⟩

/-- A host write to SRC_LEN is a write of register 4 (R22). -/
theorem handle_srcLenWrite (s : State) (v : Word) :
    handle (.regWrite (s.platform.regBase + 32) 8 v) s = .next (writeReg 4 v s) :=
  ((registerAccessRules s 0 0 v).2 4 (by decide)).2

/-- In flight a write to SRC_LEN is ignored and sets WIGN (R37). -/
theorem handle_srcLenWrite_of_busy {s : State} (hb : s.status.busy = true) (v : Word) :
    handle (.regWrite (s.platform.regBase + 32) 8 v) s = .next { s with status := s.status.writeIgnored } := by
  rw [handle_srcLenWrite, writeReg_of_busy v hb (by decide)]

/-- While no command is in flight a write to SRC_LEN takes effect (R37). -/
theorem handle_srcLenWrite_of_idle {s : State} (hb : s.status.busy = false) (v : Word) :
    handle (.regWrite (s.platform.regBase + 32) 8 v) s = .next { s with srcLen := v } := by
  rw [handle_srcLenWrite]
  exact congrArg _ (whenIdle_of_idle (fun s => { s with srcLen := v }) hb)

/-- A run that begins with a CMD write, from an idle state, goes on with the command issued (R24). -/
theorem reaches_of_cmdWrite {s u : State} (hb : s.status.busy = false) {c : Word} {rest : List Event} {k : Nat}
    (hrun : reaches { issue c s with inputs := rest } k u) :
    reaches { s with inputs := .regWrite (s.platform.regBase + 8) 8 c :: rest } (k + 1) u :=
  reaches_event rfl (handle_cmdWrite_of_idle (s := { s with inputs := rest }) hb c) hrun

/-- Settles O10: before the core's turn the write meets a command in flight, after it an idle block, and the completion
itself changes neither SRC_LEN nor WIGN. -/
theorem racingWriteHasBothOutcomes : Obligations.RacingWriteHasBothOutcomes := by
  intro s c v hb
  constructor
  · obtain ⟨t, ht, _, hdone⟩ := completion_next { issue c s with inputs := [], status := Status.issued.writeIgnored }
    obtain ⟨hlen, hwign⟩ := completion_keeps_srcLen_wign ht
    have hwrite := handle_srcLenWrite_of_busy (s := { issue c s with inputs := [.coreTurn] }) rfl v
    exact ⟨t, reaches_of_cmdWrite hb (reaches_event rfl hwrite
      (reaches_event rfl ((handle_coreTurn_of_busy rfl).trans ht) rfl)), hlen, hwign, hdone⟩
  · obtain ⟨t, ht, hbusy, hdone⟩ := completion_next
      { issue c s with inputs := [.regWrite (s.platform.regBase + 32) 8 v] }
    obtain ⟨hplat, _, hinputs, _⟩ := completion_frame ht
    obtain ⟨_, hwign⟩ := completion_keeps_srcLen_wign ht
    have hwrite := handle_srcLenWrite_of_idle (s := { t with inputs := [] }) hbusy v
    replace hinputs : t.inputs = [.regWrite (s.platform.regBase + 32) 8 v] := hinputs
    replace hplat : t.platform = s.platform := hplat
    rw [← hplat] at hinputs
    exact ⟨_, reaches_of_cmdWrite hb (reaches_event rfl ((handle_coreTurn_of_busy rfl).trans ht)
      (reaches_event hinputs hwrite rfl)), rfl, hwign, hdone⟩

end Sys2Proof.Machine
end

section
/-! SUPPORT. Reset (spec/70_reset_and_hazards.md R290 to R292), and why a command in flight ends (R303). -/

namespace Sys2Proof.Machine

/-! ### What reset leaves -/

theorem handle_reset (s : State) : handle .reset s = .next (resetBlock s) := rfl

/-- After reset the core has nothing to do: no command is in flight (R276, R290). -/
theorem coreTurn_resetBlock (s : State) : coreTurn (resetBlock s) = .next (resetBlock s) := coreTurn_of_idle rfl

/-- Reset puts the registers where power-on does (R290, R293). -/
theorem readReg_resetBlock (s : State) (i : Nat) :
    readReg (resetBlock s) i = readReg (State.powerOn s.platform s.mem) i := rfl

theorem fromLE_replicate_zero (n : Nat) : fromLE (List.replicate n 0) = 0 := by
  induction n with
  | zero => rfl
  | succ n ih => rw [List.replicate_succ, fromLE, ih]; rfl

theorem seedBytes_resetBlock (s : State) : seedBytes (resetBlock s) = List.replicate 16 0 := by
  rw [seedBytes, resetBlock_seedLo, resetBlock_seedHi]
  decide

theorem seedLane_resetBlock (w : WordSize) (s : State) (j : Nat) : seedLane w (resetBlock s) j = 0 := by
  rw [seedLane, seedBytes_resetBlock, List.drop_replicate, List.take_replicate, fromLE_replicate_zero]

/-! ### The memory after reset -/

theorem memoryAfterReset_of_idle {s : State} (hb : s.status.busy = false) : memoryAfterReset s = s.mem :=
  if_neg (by simp [hb])

/-- A reset in flight writes the bytes of the destination window that exist, each with a free value (R291). -/
theorem memoryAfterReset_read_inside {s : State} (hb : s.status.busy = true) {a : Nat} (hin : inDestination s a)
    (hmem : a < s.platform.memSize) : (memoryAfterReset s).read a = Config.freeByte s.draws a := by
  obtain ⟨k, rfl⟩ := Nat.exists_eq_add_of_le hin.1
  have hk : k < min (dstBase s + dstSize s) s.platform.memSize - dstBase s := by omega
  rw [memoryAfterReset, if_pos hb, read_write, List.length_map, List.length_range, if_pos (by omega),
    Nat.add_sub_cancel_left]
  simp [List.getD_eq_getElem?_getD, hk]

/-- Reset leaves every byte outside the destination window of an abandoned command (R291, R292). -/
theorem memoryAfterReset_read_outside {s : State} {a : Nat} (hout : ¬(s.status.busy = true ∧ inDestination s a)) :
    (memoryAfterReset s).read a = s.mem.read a := by
  unfold memoryAfterReset
  split
  · next hb =>
    have hwindow : ¬inDestination s a := fun hin => hout ⟨hb, hin⟩
    refine read_write_outside _ _ _ _ ?_
    rw [List.length_map, List.length_range]
    omega
  · rfl

/-- Settles O20: the event leaves `resetBlock s`, whose registers are those of power-on. -/
theorem resetEventEffects : Obligations.ResetEventEffects := fun s =>
  ⟨resetBlock s, handle_reset s, ⟨rfl, fun i hi => (readReg_resetBlock s i).trans (readReg_powerOn _ _ hi)⟩, rfl,
    fun w j _ => seedLane_resetBlock w s j, coreTurn_resetBlock s, memoryAfterReset_of_idle,
    fun _ => memoryAfterReset_read_outside, rfl, rfl, rfl, rfl⟩

/-- Settles O21: the event leaves `resetBlock s`, idle, with the memory of `memoryAfterReset`. -/
theorem resetInFlightAbandonsCommand : Obligations.ResetInFlightAbandonsCommand := by
  intro s t hb hreset
  obtain rfl := Host.Outcome.next.inj hreset
  exact ⟨coreTurn_resetBlock s, fun _ => memoryAfterReset_read_inside hb,
    fun _ hout => memoryAfterReset_read_outside fun h => hout h.2⟩

/-! ### A command in flight ends -/

/-- The core's turn always answers, and leaves no command in flight (R73, R276). -/
theorem coreTurn_next (s : State) : ∃ t, coreTurn s = .next t ∧ t.status.busy = false := by
  cases hb : s.status.busy with
  | false => exact ⟨s, coreTurn_of_idle hb, hb⟩
  | true =>
    obtain ⟨t, ht, hidle, _⟩ := completion_next s
    exact ⟨t, (coreTurn_of_busy hb).trans ht, hidle⟩

theorem writeReg_inputs (i : Nat) (v : Word) (s : State) : (writeReg i v s).inputs = s.inputs := by
  rcases writeReg_cases i v s with heq | ⟨_, heq⟩ | ⟨_, _, _, _, _, _, _, heq⟩ | ⟨_, heq⟩ <;> simp only [heq, issue_inputs]

theorem coreTurn_inputs {s t : State} (h : coreTurn s = .next t) : t.inputs = s.inputs := by
  rcases coreTurn_cases h with ⟨_, rfl⟩ | ⟨_, hc⟩
  · rfl
  · obtain ⟨_, _, hinputs, _⟩ := completion_frame hc
    exact hinputs

/-- No event adds to the events that are left (log entry 3). -/
theorem handle_inputs {e : Event} {s t : State} (h : handle e s = .next t) : t.inputs = s.inputs := by
  rcases handle_cases h with ⟨_, _, _, _, _, rfl⟩ | ⟨_, _, v, i, _, _, rfl⟩ | ⟨_, _, _, _, rfl⟩ |
    ⟨_, _, _, _, rfl⟩ | ⟨_, rfl⟩ | ⟨_, hc⟩
  · rfl
  · exact writeReg_inputs i v s
  · rfl
  · rfl
  · rfl
  · exact coreTurn_inputs hc

/-- Within `n` steps a run from `s` comes to a state with BUSY = 0, or stops. -/
def endsWithin (n : Nat) (s : State) : Prop :=
  ∃ k ≤ n, (∃ t, reaches s k t ∧ t.status.busy = false) ∨
    (∃ f, Host.Core.run core k s = .fault f) ∨ (∃ r, Host.Core.run core k s = .refused r)

theorem endsWithin_of_idle {s : State} (hb : s.status.busy = false) (n : Nat) : endsWithin n s :=
  ⟨0, n.zero_le, .inl ⟨s, rfl, hb⟩⟩

theorem endsWithin_of_fault {s : State} {f : Fault} (h : step s = .fault f) (n : Nat) : endsWithin (n + 1) s :=
  ⟨1, by omega, .inr (.inl ⟨f, run_fault h 0⟩)⟩

theorem endsWithin_of_refused {s : State} {r : Refusal} (h : step s = .refused r) (n : Nat) : endsWithin (n + 1) s :=
  ⟨1, by omega, .inr (.inr ⟨r, run_refused h 0⟩)⟩

theorem endsWithin_of_next {s t : State} {n : Nat} (h : step s = .next t) (ht : endsWithin n t) : endsWithin (n + 1) s := by
  obtain ⟨k, hk, hrun⟩ := ht
  refine ⟨k + 1, by omega, ?_⟩
  unfold reaches
  rwa [run_next h]

/-- Every event takes one step, and the turn after the last one leaves no command in flight (R303). -/
theorem endsWithin_inputs {events : List Event} {s : State} (hin : s.inputs = events) :
    endsWithin (events.length + 1) s := by
  induction events generalizing s with
  | nil =>
    obtain ⟨t, ht, hidle⟩ := coreTurn_next s
    exact endsWithin_of_next ((step_of_no_event hin).trans ht) (endsWithin_of_idle hidle _)
  | cons e rest ih =>
    have hstep := step_of_event hin
    cases hout : handle e { s with inputs := rest } with
    | next t => exact endsWithin_of_next (hstep.trans hout) (ih (handle_inputs hout))
    | fault f => exact endsWithin_of_fault (hstep.trans hout) _
    | refused r => exact endsWithin_of_refused (hstep.trans hout) _

/-- Settles O9: the run needs at most the events in the list and one core's turn. -/
theorem commandInFlightEnds : Obligations.CommandInFlightEnds := fun _ _ => endsWithin_inputs rfl

end Sys2Proof.Machine
end
